-- ==== Sys2Proof/Word.lean ====
section
/-!
DEFINITION. The two word types of PXLC: bytes of the format (spec 00 R12) and 32-bit registers (00 R8, 10 R21).
-/

namespace Sys2Proof

/-- An unsigned 8-bit value (00 R12). -/
abbrev Byte := BitVec 8

/-- A 32-bit register, length, cursor or counter: `LEN_W` = `CNT_W` = 32 (00 R8). -/
abbrev Word := BitVec 32

end Sys2Proof
end

