-- ==== Sys2Proof/Config.lean ====
section
/-!
DEFINITION. What an instance of PXLC fixes: the format constants (00 R5 to R7), the parameters a model takes (00 R8, R10),
and the free values, constants without a body, for what the spec leaves unspecified.
-/

namespace Sys2Proof

/-- The three byte buffers (10 R40). -/
inductive Space where
  | inp
  | work
  | out
  deriving DecidableEq, Repr

/-- The rule that picks one of several equally frequent pairs: 00 R10 fixes the first; 93 UB1 defines the other two,
which a model may offer. -/
inductive TieRule where
  | firstToReachMax
  | firstEncountered
  | lowestIndex
  deriving DecidableEq, Repr

/-- The parameters of an instance. As 32-bit values the capacities are at most 2^32 - 1, as 00 R8 asks; its other
condition, `CAP_OUT` at least 7, is `Params.Legal`. -/
structure Params where
  capIn : Word
  capWork : Word
  capOut : Word
  tie : TieRule
  deriving DecidableEq, Repr

namespace Config

/-- The three bytes of `MAGIC` (00 R5). -/
def magic0 : Byte := 0x50#8
def magic1 : Byte := 0x58#8
def magic2 : Byte := 0x4C#8

/-- `RLE_MARKER` (00 R5), the constant the encoder and the framer use. -/
def rleMarker : Byte := 0xFF#8

/-- `NO_SUB` (00 R5): the value of `sub_byte` that means no substitution. -/
def noSub : Byte := 0x00#8

/-- `HDR_LEN` (00 R5). -/
def hdrLen : Nat := 7

/-- `SUB_LO` and `SUB_HI` (00 R6). -/
def subLo : Nat := 128
def subHi : Nat := 254

/-- `RUN_CAP`, `LIT_MAX`, `TRIPLET_LEN` (00 R7). -/
def runCap : Nat := 255
def litMax : Nat := 3
def tripletLen : Nat := 3

/-- The instance `State.reset` describes. DESIGN CHOICE (log 1): the spec leaves the capacities open; these satisfy
00 R8 and R9. The tie rule is the one 00 R10 fixes (log 2). -/
def instanceParams : Params :=
  { capIn := 65536#32, capWork := 65536#32, capOut := 131080#32, tie := .firstToReachMax }

/-- A buffer byte that nothing has written since reset number `epoch` (10 R41, R50; 93 UB3): any value (log 3). -/
opaque powerUpByte (epoch : Nat) (space : Space) (index : Nat) : Byte

/-- A counter of `HIST` before the first ANALYZE after reset number `epoch` (10 R42; 93 UB3): any value (log 4). -/
opaque powerUpCount (epoch : Nat) (index : Nat) : Word

/-- A bit of `USED` before the first ANALYZE after reset number `epoch` (10 R43; 93 UB3): any value (log 4). -/
opaque powerUpUsed (epoch : Nat) (value : Byte) : Bool

/-- What the `n`-th unspecified host read returns (10 R41, R51; 93 UB2, UB4, UB5): any value (log 9, log 10). -/
opaque freeWord (n : Nat) : Word

end Config

/-- 00 R8: `CAP_OUT` is at least 7. -/
abbrev Params.Legal (p : Params) : Prop := 7 ≤ p.capOut.toNat

/-- The condition of 00 R9 under which COMPRESS cannot run out of room. -/
abbrev Params.Roomy (p : Params) : Prop :=
  p.capIn.toNat ≤ p.capWork.toNat ∧ 2 * p.capIn.toNat + 8 ≤ p.capOut.toNat

end Sys2Proof
end

