-- ==== Sys2Proof/Syntax.lean ====
section
/-!
DEFINITION. The instructions of PXLC: the ten command words (30 R104) and the forms a file is made of, the header
record HDR (30 R91) and the payload forms RUN and LIT (30 R93 to R95). One constructor per row of spec/opcode_table.json.
-/

namespace Sys2Proof

/-- The four header fields, file bytes 3 to 6 (30 R91); the register `HDR` holds the same four (10 R27). -/
structure Hdr where
  sub : Byte
  orig1 : Byte
  orig2 : Byte
  marker : Byte
  deriving DecidableEq, Repr

/-- The payload forms of the stream the decoder interprets (30 R93). -/
inductive Form where
  /-- The triplet (marker, count, value) (30 R94); the marker is the stream's own. -/
  | run (count value : Byte)
  /-- One byte that is not the marker (30 R95). -/
  | lit (b : Byte)
  deriving DecidableEq, Repr

/-- Every row of spec/opcode_table.json. -/
inductive Instr where
  | analyze
  | select
  | subst
  | frame
  | rleenc
  | parse
  | rledec
  | unsubst
  | compress
  | decompress
  | hdr (fields : Hdr)
  | run (count value : Byte)
  | lit (b : Byte)
  deriving DecidableEq, Repr

/-- A payload form as an instruction. -/
def Form.toInstr : Form → Instr
  | .run c v => .run c v
  | .lit b => .lit b

end Sys2Proof
end

