-- ==== Sys2Proof/Machine/State.lean ====
section
/-!
DEFINITION. The whole state of PXLC (10_state.md) as plain data, the two agents' pending moves, and the state after reset
(10 R50, 70 R280).
-/

namespace Sys2Proof.Machine

/-- The fields of `STATUS` (10 R23); bits 31:8 read 0 and are not held (log 20). -/
structure Status where
  busy : Bool
  done : Bool
  err : Bool
  pairValid : Bool
  errCode : BitVec 4
  deriving DecidableEq, Repr

/-- The fields of `PAIR` (10 R29); bits 31:16 read 0 and are not held (log 20). -/
structure Pair where
  a : Byte
  b : Byte
  deriving DecidableEq, Repr

/-- A table or buffer held sparsely: (index, value) pairs. Canonical form: indices strictly rising. -/
abbrev Cells (α : Type) := List (Nat × α)

/-- A byte buffer (10 R40): (index, byte) pairs, the indices strictly rising. An index that is not listed was not written
since reset and holds no known value (10 R41, R50; log 3), so no entry can equal what an unlisted one reads as. -/
abbrev Memory := List Host.Cell

/-- What an unlisted entry of an analyzer table holds: nothing known after reset, zero once ANALYZE has cleared the table
(10 R42, R43; 40 R121; log 4). -/
inductive Fill where
  | unspecified
  | cleared
  deriving DecidableEq, Repr

/-- `HIST` (10 R42). Canonical form: indices strictly rising, and once cleared no entry is 0. -/
structure Hist where
  fill : Fill
  cells : Cells Word
  deriving DecidableEq, Repr

/-- `USED` (10 R43): `marks` are the bits set since the table's fill. -/
structure Used where
  fill : Fill
  marks : BitVec 256
  deriving DecidableEq, Repr

/-- What the core is doing. A started command completes in one move (70 R290; log 7), or PARSE, RLEDEC and DECOMPRESS
advance one record or form at a time (43 R200; log 12). `chained` says that the stage is one of DECOMPRESS. -/
inductive Activity where
  /-- No command runs. -/
  | idle
  /-- `CMD` was written with `w` and nothing else has happened. -/
  | started (w : Word)
  /-- PARSE is about to take the header record at the start of IN. -/
  | header (chained : Bool)
  /-- PARSE has loaded the header fields. -/
  | loaded (chained : Bool)
  /-- RLEDEC is in its form loop; `RP` is at the next form. -/
  | stream (chained : Bool)
  deriving DecidableEq, Repr

/-- What the host can do (10 R21, 20 R60 to R65, 70 R280). A register access names its offset and its width in bits. -/
inductive HostOp where
  | readReg (offset width : Nat)
  | writeReg (offset width : Nat) (w : Word)
  | readBuf (space : Space) (index : Nat)
  | writeBuf (space : Space) (index : Nat) (v : Byte)
  | reset
  deriving DecidableEq, Repr

/-- How much of a command one move of the core does (40 R141, 43 R200 leave it open; log 12). -/
inductive Grain where
  | whole
  | form
  deriving DecidableEq, Repr

/-- One entry of the schedule: which agent moves (00 R11; log 8). -/
inductive Move where
  | host (op : HostOp)
  | core (grain : Grain)
  deriving DecidableEq, Repr

/-- The error kinds of 60 R250. -/
inductive ErrorKind where
  | invalidFormat
  | corruptedStream
  | capacityExceeded
  | illegalCommand
  deriving DecidableEq, Repr

/-- The state of PXLC (10 R20), and after it the model's own fields. -/
structure State where
  /-- `STATUS` (10 R23). -/
  status : Status
  /-- `IN_LEN` (10 R24). -/
  inLen : Word
  /-- `WORK_LEN` (10 R25). -/
  workLen : Word
  /-- `OUT_LEN` (10 R26). -/
  outLen : Word
  /-- `HDR` (10 R27). -/
  hdr : Hdr
  /-- `PAIR` (10 R29). -/
  pair : Pair
  /-- `BEST_COUNT` (10 R30). -/
  bestCount : Word
  /-- `ERR_INFO` (10 R32). -/
  errInfo : Word
  /-- The buffer IN (10 R40). -/
  bufIn : Memory
  /-- The buffer WORK (10 R40). -/
  bufWork : Memory
  /-- The buffer OUT (10 R40). -/
  bufOut : Memory
  /-- `HIST` (10 R42). -/
  hist : Hist
  /-- `USED` (10 R43). -/
  used : Used
  /-- `RP` (10 R44). -/
  rp : Word
  /-- `RUNLEN` (10 R44). -/
  runLen : Byte
  /-- `CURV` (10 R44). -/
  curV : Byte
  /-- `PREV` (10 R44). -/
  prev : Byte
  /-- `SCAN` (10 R44). -/
  scan : Byte
  /-- `PHASE` (10 R44). -/
  phase : BitVec 4
  /-- The instance's parameters; no step changes them (00 R8, R10; log 1, log 2). -/
  params : Params
  /-- What the core is doing (log 7). -/
  activity : Activity
  /-- The moves to come (log 8). -/
  schedule : List Move
  /-- What the host's last read returned (log 15). -/
  readData : Word
  /-- How many free values host reads have drawn (log 10). -/
  freeCount : Nat
  /-- How many resets there were (log 3). -/
  epoch : Nat
  deriving DecidableEq, Repr

/-- Why a step faults: for no reason. The errors of PXLC are error completions, which are next states (60 R258), and the
accesses a model stops on are refusals (10 R33; 20 R62, R65; log 11). -/
inductive Fault where
  deriving DecidableEq, Repr

/-- Why a step is refused. Only a host access can be; no instruction of the table is. -/
inductive Refusal where
  /-- Raised by an instruction of the table that has no meaning in the model. Safe. -/
  | notModelled (mnemonic : String)
  /-- Raised by a host register access at an offset of 0x40 or above, which does not exist and which the spec has the model
  refuse (10 R33, 93 UB7). Safe: the platform may do anything with such an access, and the model stops. -/
  | noSuchRegister (offset : Nat)
  /-- Raised by a host access to a buffer at or above its capacity, which reaches nothing and which the spec has the model
  refuse (20 R62). Safe: the model stops where hardware would go on. -/
  | noSuchByte (space : Space) (index : Nat)
  /-- Raised by a host register access that is misaligned or not 32 bits wide, which the spec has the model refuse
  (20 R65, 93 UB7). Safe: the model stops. -/
  | badRegisterAccess (offset width : Nat)
  deriving DecidableEq, Repr

/-- `STATUS` after reset: 0 (10 R50). -/
def Status.reset : Status :=
  { busy := false, done := false, err := false, pairValid := false, errCode := 0#4 }

/-- `HDR` after reset: 0xFF000000, the header-field tuple of a file with no substitution (10 R50). -/
def hdrReset : Hdr := { sub := 0x00#8, orig1 := 0x00#8, orig2 := 0x00#8, marker := 0xFF#8 }

/-- The state right after reset (10 R50, 70 R280). The spec leaves buffers and tables unspecified, which the empty
buffers and the unspecified tables hold (log 3, log 4), and gives the working registers no value: DESIGN CHOICE 0 (log 5).
The parameters are those of log 1; nothing is scheduled (log 8). -/
def State.reset : State where
  status := Status.reset
  inLen := 0#32
  workLen := 0#32
  outLen := 0#32
  hdr := hdrReset
  pair := { a := 0#8, b := 0#8 }
  bestCount := 0#32
  errInfo := 0#32
  bufIn := []
  bufWork := []
  bufOut := []
  hist := { fill := .unspecified, cells := [] }
  used := { fill := .unspecified, marks := 0#256 }
  rp := 0#32
  runLen := 0#8
  curV := 0#8
  prev := 0#8
  scan := 0#8
  phase := 0#4
  params := Config.instanceParams
  activity := .idle
  schedule := []
  readData := 0#32
  freeCount := 0
  epoch := 0

end Sys2Proof.Machine
end

