-- ==== Sys2Proof/Machine/Ops.lean ====
section
/-!
DEFINITION. The named operations over memory, tables and registers (00 R13): reading and writing cells, `Append`, the start
of a command, its completion, and `raise`, the one shared operation by which a command takes an error (60 R258).
-/

namespace Sys2Proof.Machine

/-- The value listed at index `i`, if there is one. -/
def cellRead {α : Type} : Cells α → Nat → Option α
  | [], _ => none
  | (j, u) :: rest, i => if j = i then some u else cellRead rest i

/-- List value `v` at index `i`, keeping the indices in rising order. -/
def cellWrite {α : Type} : Cells α → Nat → α → Cells α
  | [], i, v => [(i, v)]
  | (j, u) :: rest, i, v =>
    if i < j then (i, v) :: (j, u) :: rest
    else if i = j then (i, v) :: rest
    else (j, u) :: cellWrite rest i v

/-- List nothing at index `i`. -/
def cellErase {α : Type} : Cells α → Nat → Cells α
  | [], _ => []
  | (j, u) :: rest, i => if j = i then rest else (j, u) :: cellErase rest i

/-- The canonical form of cells: indices strictly rising. -/
abbrev Rising {α : Type} (l : Cells α) : Prop := l.Pairwise fun x y => x.1 < y.1

/-- The canonical form of a buffer. An unlisted index reads as no value, so no entry can equal it. -/
abbrev Memory.wf (m : Memory) : Prop := Rising m

/-- The byte written last at index `i`, if any was written since reset (20 R70). -/
def Memory.read (m : Memory) (i : Nat) : Option Byte := cellRead m i

/-- Write byte `v` at index `i` (00 R13 `MemWrite`). -/
def Memory.write (m : Memory) (i : Nat) (v : Byte) : Memory := cellWrite m i v

/-- `a ‖ b` (00 R12): the index of a pair into `HIST` (30 R96). -/
def pairIndex (a b : Byte) : Nat := a.toNat * 256 + b.toNat

/-- The canonical form of `HIST`: indices strictly rising, and no entry equal to what an unlisted one reads as. -/
abbrev Hist.wf (h : Hist) : Prop := Rising h.cells ∧ (h.fill = .cleared → ∀ c ∈ h.cells, c.2 ≠ 0#32)

/-- Every counter 0 (40 R121). -/
def Hist.clear : Hist := { fill := .cleared, cells := [] }

/-- Counter `k` (10 R42); before the first ANALYZE after a reset it is any value (log 4). -/
def Hist.read (epoch : Nat) (h : Hist) (k : Nat) : Word :=
  match cellRead h.cells k with
  | some v => v
  | none =>
    match h.fill with
    | .cleared => 0#32
    | .unspecified => Config.powerUpCount epoch k

/-- Set counter `k`, keeping the canonical form. -/
def Hist.write (h : Hist) (k : Nat) (v : Word) : Hist :=
  if h.fill = .cleared ∧ v = 0#32 then { h with cells := cellErase h.cells k }
  else { h with cells := cellWrite h.cells k v }

/-- Every bit 0 (40 R121). -/
def Used.clear : Used := { fill := .cleared, marks := 0#256 }

/-- Bit `v` (10 R43); before the first ANALYZE after a reset an unmarked bit is any value (log 4). -/
def Used.read (epoch : Nat) (u : Used) (v : Byte) : Bool :=
  u.marks.getLsbD v.toNat ||
    match u.fill with
    | .cleared => false
    | .unspecified => Config.powerUpUsed epoch v

/-- Set bit `v` to 1 (40 R120). -/
def Used.mark (u : Used) (v : Byte) : Used := { u with marks := u.marks ||| BitVec.twoPow 256 v.toNat }

/-- The buffer behind a space (10 R40). -/
def State.buf (s : State) : Space → Memory
  | .inp => s.bufIn
  | .work => s.bufWork
  | .out => s.bufOut

/-- The length register of a space (10 R40). -/
def State.len (s : State) : Space → Word
  | .inp => s.inLen
  | .work => s.workLen
  | .out => s.outLen

/-- The capacity of a space (00 R8). -/
def State.cap (s : State) : Space → Word
  | .inp => s.params.capIn
  | .work => s.params.capWork
  | .out => s.params.capOut

def State.setBuf (s : State) (sp : Space) (m : Memory) : State :=
  match sp with
  | .inp => { s with bufIn := m }
  | .work => { s with bufWork := m }
  | .out => { s with bufOut := m }

def State.setLen (s : State) (sp : Space) (n : Word) : State :=
  match sp with
  | .inp => { s with inLen := n }
  | .work => { s with workLen := n }
  | .out => { s with outLen := n }

/-- `S[i]` as the core reads it (00 R13). A byte nothing has written since reset holds any value, the same at every read
(20 R66, R70; log 3). -/
def State.byteAt (s : State) (sp : Space) (i : Nat) : Byte :=
  ((s.buf sp).read i).getD (Config.powerUpByte s.epoch sp i)

/-- The bytes `S[start]` to `S[start + n - 1]`. -/
def State.bytes (s : State) (sp : Space) (start n : Nat) : List Byte :=
  (List.range' start n).map (s.byteAt sp)

/-- `S[i] <- v` (00 R13). -/
def State.writeByte (s : State) (sp : Space) (i : Nat) (v : Byte) : State :=
  s.setBuf sp ((s.buf sp).write i v)

/-- How a stretch of a command ends: normally, or at a `raise` (00 R15, R13). -/
inductive Ran where
  | ok (s : State)
  | raised (e : ErrorKind) (info : Word) (s : State)
  deriving DecidableEq, Repr

/-- Go on with the next stretch; after a `raise` nothing more of the command runs (00 R13). -/
def Ran.andThen : Ran → (State → Ran) → Ran
  | .ok s, f => f s
  | .raised e info s, _ => .raised e info s

/-- `Append(S, v)` (00 R13): CapacityExceeded when S is full (60 R255). -/
def append (sp : Space) (v : Byte) (s : State) : Ran :=
  if s.len sp = s.cap sp then .raised .capacityExceeded 0#32 s
  else .ok ((s.writeByte sp (s.len sp).toNat v).setLen sp (s.len sp + 1#32))

/-- `while cond : body`, at most `fuel` times. Every loop of the spec advances a cursor bounded by a length (00 R15), so
the length is fuel enough. -/
def whileLoop (cond : State → Bool) (body : State → Ran) : Nat → State → Ran
  | 0, s => .ok s
  | fuel + 1, s => if cond s then (body s).andThen (whileLoop cond body fuel) else .ok s

/-- `for j in 1 .. n : body`. -/
def repeatTimes (body : State → Ran) : Nat → State → Ran
  | 0, s => .ok s
  | n + 1, s => (body s).andThen (repeatTimes body n)

/-- The first test of every command that reads IN: `IN_LEN` above `CAP_IN` (60 R255, R257). -/
def checkInLen (s : State) : Ran :=
  if s.params.capIn.toNat < s.inLen.toNat then .raised .capacityExceeded 0#32 s else .ok s

/-- The codes of 60 R250. -/
def ErrorKind.code : ErrorKind → BitVec 4
  | .invalidFormat => 1#4
  | .corruptedStream => 2#4
  | .capacityExceeded => 3#4
  | .illegalCommand => 4#4

/-- The start of a command (30 R103): BUSY set, DONE, ERR, ERRCODE and ERR_INFO cleared. It is also all there is to the
return from an error, which needs no instruction of its own (60 R260). -/
def State.begin (s : State) : State :=
  { s with
    status := { s.status with busy := true, done := false, err := false, errCode := 0#4 }
    errInfo := 0#32 }

/-- A host write of `w` to `CMD` with BUSY = 0 (10 R22, 30 R103). -/
def State.ring (s : State) (w : Word) : State := { s.begin with activity := .started w }

/-- Normal completion (30 R103). -/
def State.complete (s : State) : State :=
  { s with status := { s.status with busy := false, done := true }, activity := .idle }

/-- Error completion, what `raise E(info)` does (60 R258). -/
def State.errorComplete (e : ErrorKind) (info : Word) (s : State) : State :=
  { s with
    workLen := 0#32
    outLen := 0#32
    errInfo := info
    status := { s.status with errCode := e.code, err := true, busy := false, done := true }
    activity := .idle }

/-- The end of a command: completion, normal or error (00 R15). -/
def Ran.finish : Ran → State
  | .ok s => s.complete
  | .raised e info s => s.errorComplete e info

/-- The end of a stretch after which the command still runs: only a `raise` completes it. -/
def Ran.settle : Ran → State
  | .ok s => s
  | .raised e info s => s.errorComplete e info

/-- A whole command (30 R103): start, body, completion. -/
def command (body : State → Ran) (s : State) : Host.Outcome State Fault Refusal :=
  .next (body s.begin).finish

end Sys2Proof.Machine
end

