-- ==== Sys2Proof/Machine/Flags.lean ====
section
/-!
DEFINITION. The flags of `STATUS` (10 R23, R34): the word the host reads, and PAIR_VALID, the one flag a command computes
(10 R31, 40 R125). BUSY, DONE, ERR and ERRCODE are written by the start and the completions of Machine/Ops.lean.
-/

namespace Sys2Proof.Machine

/-- One flag as a bit. -/
def flagBit (b : Bool) : BitVec 1 := if b then 1#1 else 0#1

/-- `STATUS` as the host reads it (10 R23): ERRCODE 7:4, PAIR_VALID 3, ERR 2, DONE 1, BUSY 0, the rest 0. -/
def Status.word (st : Status) : Word :=
  0#24 ++ st.errCode ++ flagBit st.pairValid ++ flagBit st.err ++ flagBit st.done ++ flagBit st.busy

/-- `STATUS` as the host reads it while BUSY = 1 (10 R51): BUSY = 1, DONE, ERR and ERRCODE 0, PAIR_VALID any value. -/
def Status.busyWord (pairValid : Bool) : Word :=
  Status.word { busy := true, done := false, err := false, pairValid := pairValid, errCode := 0#4 }

/-- PAIR_VALID after ANALYZE: 1 exactly when `BEST_COUNT` is 2 or more (10 R31, 40 R125). -/
def pairValidOf (bestCount : Word) : Bool := decide (2 ≤ bestCount.toNat)

/-- `STATUS.PAIR_VALID <- 1 if BEST_COUNT >= 2 else 0` (40 R120). -/
def setPairValid (s : State) : State :=
  { s with status := { s.status with pairValid := pairValidOf s.bestCount } }

end Sys2Proof.Machine
end

