-- ==== Sys2Proof/WellFormed.lean ====
section
/-!
DEFINITION. Which instruction terms the encodings of 30 admit, in a stream whose marker is `m`.
-/

namespace Sys2Proof

/-- 30 R93, R95: a literal is a byte that is not the marker of its stream. Every other operand admits every byte value
(30 R94, R96, R98; header fields 30 R92). -/
def WellFormed (m : Byte) : Instr → Bool
  | .analyze => true
  | .select => true
  | .subst => true
  | .frame => true
  | .rleenc => true
  | .parse => true
  | .rledec => true
  | .unsubst => true
  | .compress => true
  | .decompress => true
  | .hdr _ => true
  | .run _ _ => true
  | .lit b => b != m

end Sys2Proof
end

