-- ==== Sys2Proof/Decode.lean ====
section
/-!
DEFINITION. The decoders of 30_encoding.md, total on any bytes and rejecting by name, and the encoder. A command word is
decoded at `CMD` (30 R102 to R105), a header record at file byte 0 (30 R91, 44 R213), a payload form at the stream cursor
(30 R93). A register's four bytes stand in little-endian order (20 R64).
-/

namespace Sys2Proof

/-- Where bits are decoded; the payload decoder is told the marker of its file (30 R93, 43 R196). -/
inductive Port where
  | cmd
  | header
  | stream (m : Byte)
  deriving DecidableEq, Repr

/-- Why a decoder rejects. -/
inductive DecodeError where
  /-- Fewer than the four bytes of a command word. -/
  | shortCommand
  /-- A reserved command word (30 R105). -/
  | reservedCommand (w : Word)
  /-- The first three bytes are missing or are not the magic (44 R214). -/
  | badMagic
  /-- The magic, but fewer than seven bytes (44 R215). -/
  | shortHeader
  /-- No byte at all where a form should start. -/
  | noForm
  /-- A marker with fewer than two bytes after it (43 R194). -/
  | truncatedRun
  deriving DecidableEq, Repr

/-- The bits 31:4 of a command word, which must be 0 (30 R102). -/
def commandHigh (w : Word) : BitVec 28 := w.extractLsb' 4 28

/-- The field `OP`, bits 3:0 (30 R102). -/
def commandOp (w : Word) : BitVec 4 := w.extractLsb' 0 4

/-- The command codes of 30 R104; `none` is a reserved code (30 R105). -/
def commandOfOp (op : BitVec 4) : Option Instr :=
  match op.toNat with
  | 1 => some .analyze
  | 2 => some .select
  | 3 => some .subst
  | 4 => some .frame
  | 5 => some .rleenc
  | 6 => some .parse
  | 7 => some .rledec
  | 8 => some .unsubst
  | 9 => some .compress
  | 10 => some .decompress
  | _ => none

/-- 30 R103: a word with a nonzero bit among 31:4, or with no code of R104 in 3:0, is no command. -/
def decodeCommand (w : Word) : Except DecodeError Instr :=
  if commandHigh w ≠ 0#28 then .error (.reservedCommand w)
  else match commandOfOp (commandOp w) with
    | some i => .ok i
    | none => .error (.reservedCommand w)

/-- The word whose little-endian bytes are given (20 R64). -/
def wordOfBytes (b0 b1 b2 b3 : Byte) : Word := b3 ++ b2 ++ b1 ++ b0

/-- The four bytes of a word, lowest address first (20 R64). -/
def bytesOfWord (w : Word) : List Byte :=
  [w.extractLsb' 0 8, w.extractLsb' 8 8, w.extractLsb' 16 8, w.extractLsb' 24 8]

/-- The header record (30 R91), with the tests of 44 R213 in their order: magic first, length second. -/
def decodeHeader : List Byte → Except DecodeError (Hdr × List Byte)
  | b0 :: b1 :: b2 :: rest =>
    if b0 = Config.magic0 ∧ b1 = Config.magic1 ∧ b2 = Config.magic2 then
      match rest with
      | s :: a :: b :: m :: rest' => .ok (⟨s, a, b, m⟩, rest')
      | _ => .error .shortHeader
    else .error .badMagic
  | _ => .error .badMagic

/-- One payload form in a stream with marker `m` (30 R93): RUN is tried before LIT (30 R95). -/
def decodeForm (m : Byte) : List Byte → Except DecodeError (Form × List Byte)
  | [] => .error .noForm
  | b :: rest =>
    if b = m then
      match rest with
      | count :: value :: rest' => .ok (.run count value, rest')
      | _ => .error .truncatedRun
    else .ok (.lit b, rest)

/-- The decoder of every port: the instruction and the bytes after it. -/
def decode : Port → List Byte → Except DecodeError (Instr × List Byte)
  | .cmd, b0 :: b1 :: b2 :: b3 :: rest =>
    match decodeCommand (wordOfBytes b0 b1 b2 b3) with
    | .ok i => .ok (i, rest)
    | .error e => .error e
  | .cmd, _ => .error .shortCommand
  | .header, bytes =>
    match decodeHeader bytes with
    | .ok (h, rest) => .ok (.hdr h, rest)
    | .error e => .error e
  | .stream m, bytes =>
    match decodeForm m bytes with
    | .ok (f, rest) => .ok (f.toInstr, rest)
    | .error e => .error e

/-- Where an instruction is decoded, in a file with marker `m`. -/
def Instr.port (m : Byte) : Instr → Port
  | .analyze => .cmd
  | .select => .cmd
  | .subst => .cmd
  | .frame => .cmd
  | .rleenc => .cmd
  | .parse => .cmd
  | .rledec => .cmd
  | .unsubst => .cmd
  | .compress => .cmd
  | .decompress => .cmd
  | .hdr _ => .header
  | .run _ _ => .stream m
  | .lit _ => .stream m

/-- The bytes of a header record (30 R91). -/
def headerBytes (h : Hdr) : List Byte :=
  [Config.magic0, Config.magic1, Config.magic2, h.sub, h.orig1, h.orig2, h.marker]

/-- The encoder, from the same tables: command words of 30 R104, the record of R91, the forms of R94 and R95. -/
def encode (m : Byte) : Instr → List Byte
  | .analyze => bytesOfWord 0x00000001#32
  | .select => bytesOfWord 0x00000002#32
  | .subst => bytesOfWord 0x00000003#32
  | .frame => bytesOfWord 0x00000004#32
  | .rleenc => bytesOfWord 0x00000005#32
  | .parse => bytesOfWord 0x00000006#32
  | .rledec => bytesOfWord 0x00000007#32
  | .unsubst => bytesOfWord 0x00000008#32
  | .compress => bytesOfWord 0x00000009#32
  | .decompress => bytesOfWord 0x0000000A#32
  | .hdr h => headerBytes h
  | .run count value => [m, count, value]
  | .lit b => [b]

/-- The bytes of a table row's bits for a file form: the table reads the pattern of 30 R108 as one number, so byte 0 of
the form is its most significant byte; bytes past the row's bits are 0 (log 13). -/
def formTableBytes (nbits w pad : Nat) : List Byte :=
  let n := nbits / 8
  ((List.range n).map fun k => BitVec.ofNat 8 (w >>> (8 * (n - 1 - k)))) ++ List.replicate (pad - n) 0#8

/-- The port a table row of `nbits` bits belongs to: 32 is a command word, up to 24 a payload form written for the
marker 0xFF (30 R108), more than 32 the header record. -/
def tablePort (nbits : Nat) : Option Port :=
  if nbits = 32 then some .cmd
  else if nbits = 0 then none
  else if nbits ≤ 24 then some (.stream Config.rleMarker)
  else if 32 < nbits ∧ nbits ≤ 56 then some .header
  else none

/-- The bytes the hardware stores for a table row's bits, padded to the longest instruction of its port. -/
def tableBytes (nbits w : Nat) : List Byte :=
  if nbits = 32 then bytesOfWord (BitVec.ofNat 32 w)
  else if nbits ≤ 24 then formTableBytes nbits w Config.tripletLen
  else formTableBytes nbits w Config.hdrLen

/-- The instruction the decoder reads from a table row's bits. -/
def decodeTableWord (nbits w : Nat) : Option Instr :=
  match tablePort nbits with
  | none => none
  | some p =>
    match decode p (tableBytes nbits w) with
    | .ok (i, _) => some i
    | .error _ => none

end Sys2Proof
end

