-- ==== Sys2Proof/Machine/Operands.lean ====
section
/-!
DEFINITION. The operand forms of PXLC (20 R75): sequential reads at `RP` with look-ahead below the length, the header
record at IN[0 .. 6], the payload form at `RP`, and the registers `HDR` and `PAIR` as words.
-/

namespace Sys2Proof.Machine

/-- The input: `IN[0]` to `IN[IN_LEN - 1]` (00 R17). -/
def State.input (s : State) : List Byte := s.bytes .inp 0 s.inLen.toNat

/-- The valid bytes of WORK: the processed or the expanded buffer (10 R25). -/
def State.workBytes (s : State) : List Byte := s.bytes .work 0 s.workLen.toNat

/-- The valid bytes of OUT: the output (10 R26). -/
def State.output (s : State) : List Byte := s.bytes .out 0 s.outLen.toNat

/-- `RP` has not reached the length of the source. -/
def State.more (s : State) (sp : Space) : Bool := decide (s.rp.toNat < (s.len sp).toNat)

/-- `S[RP]` (20 R75). -/
def State.cur (s : State) (sp : Space) : Byte := s.byteAt sp s.rp.toNat

/-- `RP <- RP + n` (20 R75). -/
def State.advance (s : State) (n : Nat) : State := { s with rp := s.rp + BitVec.ofNat 32 n }

/-- `RP <- n`. -/
def State.seek (s : State) (n : Nat) : State := { s with rp := BitVec.ofNat 32 n }

/-- The bytes of IN from `RP` on that a form can need: at most three, none at or above `IN_LEN` (20 R75, 43 R192). -/
def fetchForm (s : State) : List Byte :=
  s.bytes .inp s.rp.toNat (min Config.tripletLen (s.inLen.toNat - s.rp.toNat))

/-- The bytes PARSE looks at: at most seven, none at or above `IN_LEN` (44 R213). -/
def fetchHeader (s : State) : List Byte := s.bytes .inp 0 (min Config.hdrLen s.inLen.toNat)

/-- `HDR` as a word: MARKER, ORIG2, ORIG1, SUB from the top (20 R64). -/
def hdrWord (h : Hdr) : Word := h.marker ++ h.orig2 ++ h.orig1 ++ h.sub

/-- The four fields of a word written to `HDR` (10 R27). -/
def hdrOfWord (w : Word) : Hdr :=
  { sub := w.extractLsb' 0 8, orig1 := w.extractLsb' 8 8, orig2 := w.extractLsb' 16 8, marker := w.extractLsb' 24 8 }

/-- `PAIR` as a word: 0, PAIR_B, PAIR_A from the top (10 R29). -/
def pairWord (p : Pair) : Word := 0#16 ++ p.b ++ p.a

end Sys2Proof.Machine
end

