-- ==== Sys2Proof/Machine/Analyzer.lean ====
section
/-!
DEFINITION. Unit U1: ANALYZE (40 R120) and SELECT (40 R135).
-/

namespace Sys2Proof.Machine

/-- The clearing of 40 R121, and the working registers set before use. -/
def analyzeClear (s : State) : State :=
  { s with
    hist := Hist.clear
    used := Used.clear
    bestCount := 0#32
    pair := { a := 0#8, b := 0#8 }
    rp := 0#32 }

/-- `USED[c] <- 1` (40 R120). -/
def markUsed (c : Byte) (s : State) : State := { s with used := s.used.mark c }

/-- `HIST[k] <- n` (40 R120). -/
def setCounter (k : Nat) (n : Word) (s : State) : State := { s with hist := s.hist.write k n }

/-- The running maximum: replaced only by a strictly greater count (40 R124). -/
def keepBest (a b : Byte) (n : Word) (s : State) : State :=
  if s.bestCount.toNat < n.toNat then { s with bestCount := n, pair := { a := a, b := b } } else s

/-- Raise the counter of the pair (`PREV`, c) by one, and the running maximum with it (40 R120). -/
def countPair (c : Byte) (s : State) : State :=
  keepBest s.prev c (s.hist.read s.epoch (pairIndex s.prev c) + 1#32)
    (setCounter (pairIndex s.prev c) (s.hist.read s.epoch (pairIndex s.prev c) + 1#32) s)

/-- The pair that ends at i = `RP`, from the second byte on (40 R120). -/
def sweepPair (c : Byte) (s : State) : State := if 1 ≤ s.rp.toNat then countPair c s else s

/-- `PREV <- c` (40 R120). -/
def remember (c : Byte) (s : State) : State := { s with prev := c }

/-- One iteration of the sweep, at i = `RP` (40 R120). -/
def analyzeByte (s : State) : State :=
  (remember (s.cur .inp) (sweepPair (s.cur .inp) (markUsed (s.cur .inp) s))).advance 1

/-- The sweep over `n` bytes, one read of IN per index (40 R141). -/
def analyzeSweep : Nat → State → State
  | 0, s => s
  | n + 1, s => analyzeSweep n (analyzeByte s)

/-- The first pair of a list of bytes whose counter is `m`. -/
def firstPairWith (epoch : Nat) (h : Hist) (m : Word) : List Byte → Option Pair
  | a :: b :: rest =>
    if h.read epoch (pairIndex a b) = m then some { a := a, b := b } else firstPairWith epoch h m (b :: rest)
  | _ => none

/-- The pair of a pair index. -/
def pairOfIndex (k : Nat) : Pair := { a := BitVec.ofNat 8 (k / 256), b := BitVec.ofNat 8 k }

/-- Which of the most frequent pairs goes to `PAIR` (00 R10). The sweep's running maximum is FIRST_TO_REACH_MAX (40 R126);
the two others are those of 93 UB1, and only they change anything here (log 2). -/
def breakTie (s : State) : State :=
  match s.params.tie with
  | .firstToReachMax => s
  | .firstEncountered =>
    match firstPairWith s.epoch s.hist s.bestCount s.input with
    | some p => { s with pair := p }
    | none => s
  | .lowestIndex =>
    match s.hist.cells.find? (fun c => c.2 == s.bestCount) with
    | some c => { s with pair := pairOfIndex c.1 }
    | none => s

/-- The body of ANALYZE (40 R120). -/
def analyzeBody (s : State) : Ran :=
  (checkInLen s).andThen fun s =>
    .ok (setPairValid (breakTie (analyzeSweep s.inLen.toNat (analyzeClear s))))

/-- ANALYZE (40 R120). -/
def execAnalyze (s : State) : Host.Outcome State Fault Refusal := command analyzeBody s

/-- The candidates 128 to 254 in ascending order (00 R6, 40 R135). -/
def candidates : List Byte :=
  (List.range' Config.subLo (Config.subHi + 1 - Config.subLo)).map (BitVec.ofNat 8)

/-- The test of 40 R135 on a candidate. -/
def freeFor (s : State) (v : Byte) : Bool :=
  !s.used.read s.epoch v && v != s.pair.a && v != s.pair.b

/-- The scan of 40 R135: `SCAN` runs over the whole range, and the first candidate that passes is kept. -/
def selectScan : List Byte → Option Byte → State → Option Byte × State
  | [], found, s => (found, s)
  | v :: rest, found, s =>
    selectScan rest (if found = none ∧ freeFor s v = true then some v else found) { s with scan := v }

/-- The header fields of 40 R135, R136: the found value and the pair, or no substitution. -/
def writeChoice (found : Option Byte) (s : State) : State :=
  match found with
  | some v => { s with hdr := { s.hdr with sub := v, orig1 := s.pair.a, orig2 := s.pair.b } }
  | none => { s with hdr := { s.hdr with sub := Config.noSub, orig1 := 0x00#8, orig2 := 0x00#8 } }

/-- The body of SELECT (40 R135); without a pair the range is not searched (40 R139). -/
def selectBody (s : State) : Ran :=
  if s.status.pairValid then .ok (writeChoice (selectScan candidates none s).1 (selectScan candidates none s).2)
  else .ok (writeChoice none s)

/-- SELECT (40 R135). -/
def execSelect (s : State) : Host.Outcome State Fault Refusal := command selectBody s

end Sys2Proof.Machine
end

