-- ==== Sys2Proof/Machine/Framer.lean ====
section
/-!
DEFINITION. Unit U5, the header framer: FRAME (44 R210), PARSE (44 R213) and the header record HDR it loads (44 R216).
-/

namespace Sys2Proof.Machine

/-- Write bytes at rising indices of OUT, from `i` up. -/
def writeOut : Nat → List Byte → State → State
  | _, [], s => s
  | i, v :: rest, s => writeOut (i + 1) rest (s.writeByte .out i v)

/-- The record FRAME writes: byte 6 is the constant, not `HDR.MARKER` (44 R211). -/
def framedHeader (s : State) : Hdr := { s.hdr with marker := Config.rleMarker }

/-- The body of FRAME (44 R210): OUT[0 .. 6] and `OUT_LEN` = 7. `CAP_OUT` is at least 7 (00 R8), so nothing is tested. -/
def frameBody (s : State) : Ran :=
  .ok ((writeOut 0 (headerBytes (framedHeader s)) s).setLen .out (BitVec.ofNat 32 Config.hdrLen))

/-- FRAME (44 R210). -/
def execFrame (s : State) : Host.Outcome State Fault Refusal := command frameBody s

/-- Load the four header fields unchecked (44 R216). -/
def loadHeader (h : Hdr) (s : State) : State := { s with hdr := h }

/-- PARSE's tests in their order, up to the record (44 R213): `IN_LEN` above `CAP_IN`, wrong magic (info 0), short header
(info 1). -/
def parseTests (s : State) : Except (ErrorKind × Word) Hdr :=
  match checkInLen s with
  | .raised e info _ => .error (e, info)
  | .ok _ =>
    match decodeHeader (fetchHeader s) with
    | .ok (h, _) => .ok h
    | .error .shortHeader => .error (.invalidFormat, 1#32)
    | .error _ => .error (.invalidFormat, 0#32)

/-- The body of PARSE (44 R213). -/
def parseBody (s : State) : Ran :=
  match parseTests s with
  | .ok h => .ok (loadHeader h s)
  | .error (e, info) => .raised e info s

/-- PARSE (44 R213). -/
def execParse (s : State) : Host.Outcome State Fault Refusal := command parseBody s

/-- HDR as one step of a running PARSE: the header record's fields go to the register `HDR` (44 R216). -/
def execHdr (fields : Hdr) (s : State) : Host.Outcome State Fault Refusal := .next (loadHeader fields s)

end Sys2Proof.Machine
end

