-- ==== Sys2Proof/Machine/Rle.lean ====
section
/-!
DEFINITION. Unit U3, RLEENC (42 R170), and unit U4, RLEDEC (43 R190) with the payload forms RUN (43 R192) and LIT (43 R193)
it executes.
-/

namespace Sys2Proof.Machine

/-- The run may still grow: inside WORK, the same byte, below the cap (42 R170, R172). -/
def runGoesOn (s : State) : Bool :=
  decide (s.rp.toNat + s.runLen.toNat < s.workLen.toNat) &&
    decide (s.byteAt .work (s.rp.toNat + s.runLen.toNat) = s.curV) && decide (s.runLen.toNat < Config.runCap)

/-- Measure the run at `RP`: `CURV` and `RUNLEN`, 1 to 255 (42 R172, R173). -/
def measureRun (s : State) : Ran :=
  whileLoop runGoesOn (fun s => .ok { s with runLen := s.runLen + 1#8 }) Config.runCap
    { s with curV := s.cur .work, runLen := 1#8 }

/-- Append the measured run as a triplet or as literals (42 R174, R175). -/
def emitRun (s : State) : Ran :=
  if Config.litMax < s.runLen.toNat ∨ s.curV = Config.rleMarker then
    ((append .out Config.rleMarker s).andThen (append .out s.runLen)).andThen (append .out s.curV)
  else repeatTimes (append .out s.curV) s.runLen.toNat s

/-- One iteration of RLEENC's loop (42 R170). -/
def rleencIter (s : State) : Ran :=
  ((measureRun s).andThen emitRun).andThen fun s => .ok (s.advance s.runLen.toNat)

/-- The body of RLEENC (42 R170); it appends at `OUT_LEN` (42 R171). -/
def rleencBody (s : State) : Ran :=
  whileLoop (fun s => s.more .work) rleencIter s.workLen.toNat (s.seek 0)

/-- RLEENC (42 R170). -/
def execRleenc (s : State) : Host.Outcome State Fault Refusal := command rleencBody s

/-- Append `CURV` and count `RUNLEN` down (43 R200). -/
def expandOnce (s : State) : Ran :=
  (append .work s.curV s).andThen fun s => .ok { s with runLen := s.runLen - 1#8 }

/-- Form RUN: append value count times, advance 3 (43 R192, R195). -/
def runBody (count value : Byte) (s : State) : Ran :=
  (repeatTimes expandOnce count.toNat { s with runLen := count, curV := value }).andThen fun s => .ok (s.advance 3)

/-- Form LIT: append the byte, advance 1 (43 R193). -/
def litBody (b : Byte) (s : State) : Ran :=
  (append .work b s).andThen fun s => .ok (s.advance 1)

/-- What a payload form does. -/
def formBody : Form → State → Ran
  | .run count value => runBody count value
  | .lit b => litBody b

/-- RUN as one step of a running decoder: the command goes on unless an append raises. -/
def execRun (count value : Byte) (s : State) : Host.Outcome State Fault Refusal := .next (runBody count value s).settle

/-- LIT as one step of a running decoder: the command goes on unless the append raises. -/
def execLit (b : Byte) (s : State) : Host.Outcome State Fault Refusal := .next (litBody b s).settle

/-- RLEDEC up to its form loop (43 R190): the test of `IN_LEN`, an empty WORK, `RP` at the payload. -/
def rledecEnter (s : State) : Ran :=
  (checkInLen s).andThen fun s => .ok ({ s with workLen := 0#32 }.seek Config.hdrLen)

/-- One iteration of RLEDEC's loop (43 R190): a truncated triplet is CorruptedStream with `ERR_INFO` = `RP`, raised
before anything of it is appended (43 R194, R200). -/
def rledecIter (s : State) : Ran :=
  match decodeForm s.hdr.marker (fetchForm s) with
  | .error _ => .raised .corruptedStream s.rp s
  | .ok (f, _) => formBody f s

/-- The body of RLEDEC (43 R190). -/
def rledecBody (s : State) : Ran :=
  (rledecEnter s).andThen fun s => whileLoop (fun s => s.more .inp) rledecIter s.inLen.toNat s

/-- RLEDEC (43 R190). -/
def execRledec (s : State) : Host.Outcome State Fault Refusal := command rledecBody s

end Sys2Proof.Machine
end

