-- ==== Sys2Proof/Machine/Substitution.lean ====
section
/-!
DEFINITION. Unit U2, the byte substitution engine: SUBST (41 R150) and UNSUBST (41 R160).
-/

namespace Sys2Proof.Machine

/-- The two bytes at `RP` are the pair to replace, with substitution on (41 R150). -/
def atPair (s : State) : Bool :=
  decide (s.hdr.sub ≠ Config.noSub) && decide (s.rp.toNat + 1 < s.inLen.toNat) &&
    decide (s.byteAt .inp s.rp.toNat = s.hdr.orig1) && decide (s.byteAt .inp (s.rp.toNat + 1) = s.hdr.orig2)

/-- One iteration of SUBST's loop (41 R150). -/
def substIter (s : State) : Ran :=
  if atPair s then (append .work s.hdr.sub s).andThen fun s => .ok (s.advance 2)
  else (append .work (s.cur .inp) s).andThen fun s => .ok (s.advance 1)

/-- The body of SUBST (41 R150). -/
def substBody (s : State) : Ran :=
  (checkInLen s).andThen fun s =>
    whileLoop (fun s => s.more .inp) substIter s.inLen.toNat ({ s with workLen := 0#32 }.seek 0)

/-- SUBST (41 R150). -/
def execSubst (s : State) : Host.Outcome State Fault Refusal := command substBody s

/-- One iteration of UNSUBST's loop (41 R160). -/
def unsubstIter (s : State) : Ran :=
  let e := s.cur .work
  (if s.hdr.sub ≠ Config.noSub ∧ e = s.hdr.sub then
      (append .out s.hdr.orig1 s).andThen (append .out s.hdr.orig2)
    else append .out e s).andThen fun s => .ok (s.advance 1)

/-- The body of UNSUBST (41 R160). -/
def unsubstBody (s : State) : Ran :=
  whileLoop (fun s => s.more .work) unsubstIter s.workLen.toNat ({ s with outLen := 0#32 }.seek 0)

/-- UNSUBST (41 R160). -/
def execUnsubst (s : State) : Host.Outcome State Fault Refusal := command unsubstBody s

end Sys2Proof.Machine
end

