-- ==== Sys2Proof/Machine/Sequencer.lean ====
section
/-!
DEFINITION. The sequencer: COMPRESS (45 R230) and DECOMPRESS (45 R240), each its stages in order; a `raise` in a stage ends
the whole command.
-/

namespace Sys2Proof.Machine

/-- One stage: `PHASE <- p`, then the unit's rule (45 R230, R240). -/
def stage (p : BitVec 4) (body : State → Ran) (s : State) : Ran := body { s with phase := p }

/-- The body of COMPRESS (45 R230). -/
def compressBody (s : State) : Ran :=
  ((((stage 1#4 analyzeBody s).andThen (stage 2#4 selectBody)).andThen (stage 3#4 substBody)).andThen
    (stage 4#4 frameBody)).andThen (stage 5#4 rleencBody)

/-- COMPRESS (45 R230). -/
def execCompress (s : State) : Host.Outcome State Fault Refusal := command compressBody s

/-- The body of DECOMPRESS (45 R240). -/
def decompressBody (s : State) : Ran :=
  ((stage 1#4 parseBody s).andThen (stage 2#4 rledecBody)).andThen (stage 3#4 unsubstBody)

/-- DECOMPRESS (45 R240). -/
def execDecompress (s : State) : Host.Outcome State Fault Refusal := command decompressBody s

end Sys2Proof.Machine
end

