-- ==== Sys2Proof/Machine/Dispatch.lean ====
section
/-!
DEFINITION. One arm per row of spec/opcode_table.json: which meaning runs.
-/

namespace Sys2Proof.Machine

def exec (i : Instr) (s : State) : Host.Outcome State Fault Refusal :=
  match i with
  | .analyze => Sys2Proof.Machine.execAnalyze s
  | .select => Sys2Proof.Machine.execSelect s
  | .subst => Sys2Proof.Machine.execSubst s
  | .frame => Sys2Proof.Machine.execFrame s
  | .rleenc => Sys2Proof.Machine.execRleenc s
  | .parse => Sys2Proof.Machine.execParse s
  | .rledec => Sys2Proof.Machine.execRledec s
  | .unsubst => Sys2Proof.Machine.execUnsubst s
  | .compress => Sys2Proof.Machine.execCompress s
  | .decompress => Sys2Proof.Machine.execDecompress s
  | .hdr fields => Sys2Proof.Machine.execHdr fields s
  | .run count value => Sys2Proof.Machine.execRun count value s
  | .lit b => Sys2Proof.Machine.execLit b s

end Sys2Proof.Machine
end

