-- ==== Sys2Proof/Machine/HostAccess.lean ====
section
/-!
DEFINITION. What the host can do to PXLC (10 R21, R51; 20 R60 to R67; 60 R271; 70 R280, R281): read and write registers and
buffer bytes, start a command, assert reset.
-/

namespace Sys2Proof.Machine

/-- The registers of REG by name (10 R21). -/
inductive Reg where
  | cmd
  | status
  | inLen
  | workLen
  | outLen
  | hdr
  | pair
  | bestCount
  | errInfo
  | reserved
  deriving DecidableEq, Repr

/-- The register at a word index of REG (10 R21, R33). -/
def regAt (index : Nat) : Reg :=
  match index with
  | 0 => .cmd
  | 1 => .status
  | 2 => .inLen
  | 3 => .workLen
  | 4 => .outLen
  | 5 => .hdr
  | 6 => .pair
  | 7 => .bestCount
  | 8 => .errInfo
  | _ => .reserved

/-- What the host reads in a register while no command runs (10 R21 to R33). -/
def regValue (s : State) : Reg → Word
  | .cmd => 0#32
  | .status => s.status.word
  | .inLen => s.inLen
  | .workLen => s.workLen
  | .outLen => s.outLen
  | .hdr => hdrWord s.hdr
  | .pair => pairWord s.pair
  | .bestCount => s.bestCount
  | .errInfo => s.errInfo
  | .reserved => 0#32

/-- What a host write does while no command runs: `CMD` starts a command, `IN_LEN` and `HDR` are stored, every other
write is ignored (10 R21, R22, R33). -/
def regWrite (r : Reg) (w : Word) (s : State) : State :=
  match r with
  | .cmd => s.ring w
  | .status => s
  | .inLen => { s with inLen := w }
  | .workLen => s
  | .outLen => s
  | .hdr => { s with hdr := hdrOfWord w }
  | .pair => s
  | .bestCount => s
  | .errInfo => s
  | .reserved => s

/-- Return `w` to the host (log 15). -/
def deliver (w : Word) (s : State) : State := { s with readData := w }

/-- Return an unspecified value to the host, a new one each time (log 9, log 10). -/
def deliverFree (s : State) : State :=
  { s with readData := Config.freeWord s.freeCount, freeCount := s.freeCount + 1 }

/-- Return an unspecified byte to the host, a new one each time (20 R66; log 9, log 10). -/
def deliverFreeByte (s : State) : State :=
  { s with readData := ((Config.freeWord s.freeCount).setWidth 8).setWidth 32, freeCount := s.freeCount + 1 }

/-- Return `STATUS` while BUSY = 1: its PAIR_VALID is any value (10 R51). -/
def deliverBusyStatus (s : State) : State :=
  { s with
    readData := Status.busyWord ((Config.freeWord s.freeCount).getLsbD 0)
    freeCount := s.freeCount + 1 }

/-- A host read of a register (10 R21); while BUSY = 1 only `STATUS` has a specified value (10 R51; log 9). -/
def hostReadReg (r : Reg) (s : State) : State :=
  if s.status.busy then
    match r with
    | .status => deliverBusyStatus s
    | .cmd => deliverFree s
    | .inLen => deliverFree s
    | .workLen => deliverFree s
    | .outLen => deliverFree s
    | .hdr => deliverFree s
    | .pair => deliverFree s
    | .bestCount => deliverFree s
    | .errInfo => deliverFree s
    | .reserved => deliverFree s
  else deliver (regValue s r) s

/-- A host write of a register; while BUSY = 1 it is ignored (10 R22, R51). -/
def hostWriteReg (r : Reg) (w : Word) (s : State) : State :=
  if s.status.busy then s else regWrite r w s

/-- A host read of a buffer byte below the capacity: the byte below the length, and an unspecified value at or above it or
while BUSY = 1 (10 R41, R51; 70 R288; log 9, log 10). -/
def hostReadBuf (sp : Space) (i : Nat) (s : State) : State :=
  if s.status.busy = true ∨ (s.len sp).toNat ≤ i then deliverFreeByte s
  else deliver ((s.byteAt sp i).setWidth 32) s

/-- A host write of a buffer byte below the capacity: IN stores it while BUSY = 0; WORK and OUT ignore it (10 R40, R51;
20 R62). -/
def hostWriteBuf (sp : Space) (i : Nat) (v : Byte) (s : State) : State :=
  if s.status.busy then s
  else
    match sp with
    | .inp => s.writeByte .inp i v
    | .work => s
    | .out => s

/-- Reset, also while a command runs (70 R280, R281): the state of 10 R50 in a new epoch; the instance's parameters, the
host's schedule and what the host read before are not PXLC's to clear (log 16). -/
def hostReset (s : State) : State :=
  { State.reset with
    params := s.params
    schedule := s.schedule
    readData := s.readData
    freeCount := s.freeCount
    epoch := s.epoch + 1 }

/-- A register access: one at an offset of 0x40 or above, which does not exist (10 R33), is refused, and one that is not 32
bits wide at a multiple of 4 (20 R65, 93 UB7). The order of the two tests is log 11. -/
def regAccess (offset width : Nat) (act : Reg → State) : Host.Outcome State Fault Refusal :=
  if 0x40 ≤ offset then .refused (.noSuchRegister offset)
  else if offset % 4 ≠ 0 ∨ width ≠ 32 then .refused (.badRegisterAccess offset width)
  else .next (act (regAt (offset / 4)))

/-- A buffer access: one at an index at or above the capacity reaches nothing and is refused (20 R62). -/
def bufAccess (s : State) (sp : Space) (i : Nat) (after : State) : Host.Outcome State Fault Refusal :=
  if (s.cap sp).toNat ≤ i then .refused (.noSuchByte sp i) else .next after

/-- One move of the host (60 R271). -/
def hostMove (op : HostOp) (s : State) : Host.Outcome State Fault Refusal :=
  match op with
  | .readReg offset width => regAccess offset width fun r => hostReadReg r s
  | .writeReg offset width w => regAccess offset width fun r => hostWriteReg r w s
  | .readBuf sp i => bufAccess s sp i (hostReadBuf sp i s)
  | .writeBuf sp i v => bufAccess s sp i (hostWriteBuf sp i v s)
  | .reset => .next (hostReset s)

end Sys2Proof.Machine
end

