-- ==== Sys2Proof/Machine/Advance.lean ====
section
/-!
DEFINITION. One move of the core: fetch what it is to execute next, decode it and execute it. A started command is taken
whole (30 R103, 70 R290), or PARSE, RLEDEC and DECOMPRESS advance by one record or form (43 R200). Also the placing of one
instruction where the core fetches next.
-/

namespace Sys2Proof.Machine

/-- A command in progress. -/
def inProgress (a : Activity) (s : State) : State := { s.begin with activity := a }

/-- A stretch of a running command; `next` is what the core does after it if nothing raised. -/
def goOn (next : Activity) (r : Ran) : Host.Outcome State Fault Refusal :=
  .next (match r with
    | .ok s => { s with activity := next }
    | .raised e info s => s.errorComplete e info)

/-- Begin a command that is to be taken form by form; a command with no stream form in it is taken whole (log 12). -/
def enterByForm (i : Instr) (s : State) : Host.Outcome State Fault Refusal :=
  match i with
  | .parse => .next (inProgress (.header false) s)
  | .decompress => .next (inProgress (.header true) { s with phase := 1#4 })
  | .rledec => goOn (.stream false) (rledecEnter s.begin)
  | .analyze => exec .analyze s
  | .select => exec .select s
  | .subst => exec .subst s
  | .frame => exec .frame s
  | .rleenc => exec .rleenc s
  | .unsubst => exec .unsubst s
  | .compress => exec .compress s
  | .hdr fields => exec (.hdr fields) s
  | .run count value => exec (.run count value) s
  | .lit b => exec (.lit b) s

/-- The started command word is decoded (30 R103); a reserved word is IllegalCommand, whatever the grain (60 R254). -/
def moveStarted (grain : Grain) (w : Word) (s : State) : Host.Outcome State Fault Refusal :=
  match decodeCommand w with
  | .error _ => .next (s.begin.errorComplete .illegalCommand w)
  | .ok i =>
    match grain with
    | .whole => exec i s
    | .form => enterByForm i s

/-- PARSE's tests, then the header record as an instruction (44 R213). -/
def moveHeader (chained : Bool) (s : State) : Host.Outcome State Fault Refusal :=
  match parseTests s with
  | .error (e, info) => .next (s.errorComplete e info)
  | .ok h => exec (.hdr h) { s with activity := .loaded chained }

/-- PARSE is done: it completes, or DECOMPRESS goes on with its second stage (45 R240). -/
def moveLoaded (chained : Bool) (s : State) : Host.Outcome State Fault Refusal :=
  if chained then goOn (.stream true) (stage 2#4 rledecEnter s) else .next s.complete

/-- One payload form as an instruction. -/
def moveForm (s : State) : Host.Outcome State Fault Refusal :=
  match decodeForm s.hdr.marker (fetchForm s) with
  | .error _ => .next (s.errorComplete .corruptedStream s.rp)
  | .ok (f, _) => exec f.toInstr s

/-- The form loop of RLEDEC (43 R191); at its end RLEDEC completes, or DECOMPRESS runs its third stage (45 R240). -/
def moveStream (chained : Bool) (s : State) : Host.Outcome State Fault Refusal :=
  if s.more .inp then moveForm s
  else if chained then .next (stage 3#4 unsubstBody s).finish
  else .next s.complete

/-- One move of the core. Idle, it holds its state (60 R269). -/
def coreMove (grain : Grain) (s : State) : Host.Outcome State Fault Refusal :=
  match s.activity with
  | .idle => .next s
  | .started w => moveStarted grain w s
  | .header chained => moveHeader chained s
  | .loaded chained => moveLoaded chained s
  | .stream chained => moveStream chained s

/-- Write bytes at rising indices of IN, from `i` up. -/
def placeIn : Nat → List Byte → State → State
  | _, [], s => s
  | i, v :: rest, s => placeIn (i + 1) rest (s.writeByte .inp i v)

/-- Where the decoder's cursor stands: `RP` of a running decoder, else 7, where the payload starts (43 R191). -/
def formIndex (s : State) : Nat :=
  match s.activity with
  | .stream _ => s.rp.toNat
  | .idle => Config.hdrLen
  | .started _ => Config.hdrLen
  | .header _ => Config.hdrLen
  | .loaded _ => Config.hdrLen

/-- Whether a running decoder is a stage of DECOMPRESS. -/
def formChained (s : State) : Bool :=
  match s.activity with
  | .stream chained => chained
  | .idle => false
  | .started _ => false
  | .header _ => false
  | .loaded _ => false

/-- `IN_LEN` raised to `n` if it is below. -/
def coverIn (n : Nat) (s : State) : State := { s with inLen := BitVec.ofNat 32 (max s.inLen.toNat n) }

/-- A running decoder with the form's bytes at its cursor and the marker 0xFF, for which the table's rows are written
(30 R108). -/
def placeForm (bytes : List Byte) (s : State) : State :=
  loadHeader { s.hdr with marker := Config.rleMarker }
    (inProgress (.stream (formChained s))
      ((coverIn (formIndex s + bytes.length) (placeIn (formIndex s) bytes s)).seek (formIndex s)))

/-- A running PARSE with the record's bytes at IN[0 .. 6] (44 R213). -/
def placeHeader (bytes : List Byte) (s : State) : State :=
  inProgress (.header false) (coverIn bytes.length (placeIn 0 bytes s))

/-- Place a table row's bits where the core takes its next instruction: a command word at the doorbell, a form at the
decoder's cursor, the header record at the start of IN (log 14). -/
def placeWord (nbits w : Nat) (s : State) : State :=
  match tablePort nbits with
  | none => s
  | some .cmd => s.ring (BitVec.ofNat 32 w)
  | some .header => placeHeader (tableBytes nbits w) s
  | some (.stream _) => placeForm (tableBytes nbits w) s

end Sys2Proof.Machine
end

