-- ==== Sys2Proof/Machine/Step.lean ====
section
/-!
DEFINITION. One step: the agent the schedule names moves; with nothing scheduled the core does (00 R11, 70 R290; log 8).
-/

namespace Sys2Proof.Machine

/-- One step of PXLC and its host. -/
def step (s : State) : Host.Outcome State Fault Refusal :=
  match s.schedule with
  | [] => coreMove .whole s
  | .core grain :: rest => coreMove grain { s with schedule := rest }
  | .host op :: rest => hostMove op { s with schedule := rest }

/-- `s` with a table row's bits placed as the core's next instruction, and the core to move next (log 13, log 14). -/
def State.withFetchWord (s : State) (nbits w : Nat) : State :=
  { placeWord nbits w s with schedule := .core .whole :: s.schedule }

end Sys2Proof.Machine
end

