-- ==== Sys2Proof/Safety.lean ====
section
/-!
DEFINITION. The terms in which claims about PXLC are made: the document's transforms as functions on byte lists (00 R12),
what the analyzer's result means, and the invariants of the machine.
-/

namespace Sys2Proof.Codec

/-- The adjacent pairs of a buffer, one for every index (40 R120). -/
def pairs (l : List Byte) : List (Byte × Byte) := l.zip l.tail

/-- How often the pair `p` stands in a buffer, overlapping occurrences counted (40 R122). -/
def pairCount (l : List Byte) (p : Byte × Byte) : Nat := (pairs l).count p

/-- `p` is the pair whose running count reaches `m` first (40 R126): some index `j` holds `p` with running count `m`, and at
no lower index has the running count of that index's own pair reached `m`. -/
def FirstToReach (l : List Byte) (m : Nat) (p : Byte × Byte) : Prop :=
  ∃ j, (pairs l)[j]? = some p ∧ ((pairs l).take (j + 1)).count p = m ∧
    ∀ (i : Nat) (q : Byte × Byte), i < j → (pairs l)[i]? = some q → ((pairs l).take (i + 1)).count q < m

/-- `p` is the first of the pairs with count `m` to occur (93 UB1, FIRST_ENCOUNTERED). -/
def FirstEncountered (l : List Byte) (m : Nat) (p : Byte × Byte) : Prop :=
  ∃ j, (pairs l)[j]? = some p ∧ pairCount l p = m ∧
    ∀ (i : Nat) (q : Byte × Byte), i < j → (pairs l)[i]? = some q → pairCount l q ≠ m

/-- `p` is the pair of least pair index with count `m` (93 UB1, LOWEST_INDEX). -/
def LowestIndex (l : List Byte) (m : Nat) (p : Byte × Byte) : Prop :=
  p ∈ pairs l ∧ pairCount l p = m ∧
    ∀ q ∈ pairs l, pairCount l q = m → Machine.pairIndex p.1 p.2 ≤ Machine.pairIndex q.1 q.2

/-- The substitution transform (41 R150): every left-to-right, non-overlapping occurrence of `a b` becomes `s`; `s` = 0
switches it off. -/
def substituted (s a b : Byte) : List Byte → List Byte
  | [] => []
  | [x] => [x]
  | x :: y :: rest =>
    if s ≠ Config.noSub ∧ x = a ∧ y = b then s :: substituted s a b rest
    else x :: substituted s a b (y :: rest)

/-- The substitution reversal (41 R160). -/
def restored (s a b : Byte) (l : List Byte) : List Byte :=
  l.flatMap fun e => if s ≠ Config.noSub ∧ e = s then [a, b] else [e]

/-- The encoding of one run of `n` bytes `v` (42 R174). -/
def encodeRun (v : Byte) (n : Nat) : List Byte :=
  if Config.litMax < n ∨ v = Config.rleMarker then [Config.rleMarker, BitVec.ofNat 8 n, v] else List.replicate n v

/-- The encoding of what follows, `n` bytes of a run of `v` already measured (42 R172, R173). -/
def encodeFrom (v : Byte) (n : Nat) : List Byte → List Byte
  | [] => encodeRun v n
  | x :: rest =>
    if x = v ∧ n < Config.runCap then encodeFrom v (n + 1) rest
    else encodeRun v n ++ encodeFrom x 1 rest

/-- The run-length encoding of a buffer (42 R170). -/
def encoded : List Byte → List Byte
  | [] => []
  | x :: rest => encodeFrom x 1 rest

/-- Run-length decoding with marker `m` of the bytes that stand at index `pos` of the file (43 R190): what is appended, and
the index of the marker that lacks its two followers, if there is one (43 R194). -/
def expand (m : Byte) (pos : Nat) : List Byte → List Byte × Option Nat
  | [] => ([], none)
  | [x] => if x = m then ([], some pos) else ([x], none)
  | [x, y] =>
    if x = m then ([], some pos)
    else
      let r := expand m (pos + 1) [y]
      (x :: r.1, r.2)
  | x :: c :: v :: rest =>
    if x = m then
      let r := expand m (pos + 3) rest
      (List.replicate c.toNat v ++ r.1, r.2)
    else
      let r := expand m (pos + 1) (c :: v :: rest)
      (x :: r.1, r.2)

/-- The least value of 128 to 254 with property `free` (40 R135), if there is one. -/
def LeastFree (free : Byte → Bool) (r : Option Byte) : Prop :=
  match r with
  | some v => Config.subLo ≤ v.toNat ∧ v.toNat ≤ Config.subHi ∧ free v = true ∧
      ∀ w : Byte, Config.subLo ≤ w.toNat → w.toNat < v.toNat → free w = false
  | none => ∀ w : Byte, Config.subLo ≤ w.toNat → w.toNat ≤ Config.subHi → free w = false

end Sys2Proof.Codec

namespace Sys2Proof.Machine

/-- A buffer in canonical form whose indices lie below the capacity (10 R40). -/
abbrev BufferOk (m : Memory) (cap : Word) : Prop := m.wf ∧ ∀ c ∈ m, c.1 < cap.toNat

/-- `HIST` in canonical form with indices 0 to 65,535 (10 R42). -/
abbrev HistOk (h : Hist) : Prop := h.wf ∧ ∀ c ∈ h.cells, c.1 < 65536

/-- The storage is in canonical form. -/
structure StorageOk (s : State) : Prop where
  bufIn : BufferOk s.bufIn s.params.capIn
  bufWork : BufferOk s.bufWork s.params.capWork
  bufOut : BufferOk s.bufOut s.params.capOut
  hist : HistOk s.hist

/-- Lengths never pass their capacities, and every byte below a length was written (10 R25, R26, R41; 70 R282). -/
structure LengthsOk (s : State) : Prop where
  legal : s.params.Legal
  workLen : s.workLen.toNat ≤ s.params.capWork.toNat
  outLen : s.outLen.toNat ≤ s.params.capOut.toNat
  workWritten : ∀ i, i < s.workLen.toNat → (s.bufWork.read i).isSome = true
  outWritten : ∀ i, i < s.outLen.toNat → (s.bufOut.read i).isSome = true

/-- What always holds of `STATUS` and the error registers (10 R23, R31, R32; 60 R250, R256, R258). -/
structure StatusOk (s : State) : Prop where
  notBusyAndDone : ¬(s.status.busy = true ∧ s.status.done = true)
  errIsDone : s.status.err = true → s.status.done = true
  errIffCode : s.status.err = true ↔ s.status.errCode ≠ 0#4
  codeInTable : s.status.errCode.toNat ≤ 4
  infoOnlyOnError : s.status.err = false → s.errInfo = 0#32
  noOutputOnError : s.status.err = true → s.workLen = 0#32 ∧ s.outLen = 0#32
  pairValid : s.status.pairValid = decide (2 ≤ s.bestCount.toNat)

/-- What holds of a command in progress (10 R45; 43 R191; 45 R241). -/
structure ProgressOk (s : State) : Prop where
  busyIff : s.status.busy = true ↔ s.activity ≠ .idle
  headerPhase : s.activity = .header true → s.phase = 1#4
  loadedPhase : s.activity = .loaded true → s.phase = 1#4
  streamPhase : s.activity = .stream true → s.phase = 2#4
  loadedLen : ∀ c, s.activity = .loaded c → 7 ≤ s.inLen.toNat ∧ s.inLen.toNat ≤ s.params.capIn.toNat
  streamLen : ∀ c, s.activity = .stream c → s.inLen.toNat ≤ s.params.capIn.toNat
  streamCursor : ∀ c, s.activity = .stream c → 7 ≤ s.rp.toNat ∧ (s.rp.toNat ≤ s.inLen.toNat ∨ s.rp.toNat = 7)

/-- The machine's invariant. -/
structure Inv (s : State) : Prop where
  storage : StorageOk s
  lengths : LengthsOk s
  status : StatusOk s
  progress : ProgressOk s

/-- What no command and no form ever writes: IN and `IN_LEN` (10 R24, R40), the parameters, and what is the host's. -/
structure CoreLeavesAlone (s t : State) : Prop where
  inLen : t.inLen = s.inLen
  inBytes : ∀ i, t.byteAt .inp i = s.byteAt .inp i
  params : t.params = s.params
  schedule : t.schedule = s.schedule
  readData : t.readData = s.readData
  freeCount : t.freeCount = s.freeCount
  epoch : t.epoch = s.epoch

/-- The analyzer's result registers and tables, which only ANALYZE writes (10 R29 to R31, R42, R43). -/
structure SameAnalysis (s t : State) : Prop where
  pair : t.pair = s.pair
  bestCount : t.bestCount = s.bestCount
  pairValid : t.status.pairValid = s.status.pairValid
  hist : ∀ k, t.hist.read t.epoch k = s.hist.read s.epoch k
  used : ∀ v, t.used.read t.epoch v = s.used.read s.epoch v

/-- The working registers (10 R44) a command does not use. -/
def SameWorking (s t : State) (usesRun usesPrev usesScan usesPhase : Bool) : Prop :=
  (usesRun = false → t.runLen = s.runLen ∧ t.curV = s.curV) ∧ (usesPrev = false → t.prev = s.prev) ∧
    (usesScan = false → t.scan = s.scan) ∧ (usesPhase = false → t.phase = s.phase)

/-- Normal completion as the host sees it (30 R103): BUSY 0, DONE 1, no error, `ERR_INFO` 0. -/
def CompletedOk (t : State) : Prop :=
  t.status.busy = false ∧ t.status.done = true ∧ t.status.err = false ∧ t.status.errCode = 0#4 ∧
    t.errInfo = 0#32 ∧ t.activity = .idle

/-- Error completion (60 R258). -/
def CompletedWith (e : ErrorKind) (info : Word) (t : State) : Prop :=
  t.status.busy = false ∧ t.status.done = true ∧ t.status.err = true ∧ t.status.errCode = e.code ∧
    t.errInfo = info ∧ t.workLen = 0#32 ∧ t.outLen = 0#32 ∧ t.activity = .idle

/-- The buffer's bytes are as before, at every index from `n` up; of those at or above the length this is the core's own copy,
which the host does not see (log 10). -/
def SameBytesFrom (sp : Space) (n : Nat) (s t : State) : Prop := ∀ i, n ≤ i → t.byteAt sp i = s.byteAt sp i

/-- The file's header fields, `IN[3]` to `IN[6]` (30 R91). -/
def fileFields (s : State) : Hdr :=
  { sub := s.byteAt .inp 3, orig1 := s.byteAt .inp 4, orig2 := s.byteAt .inp 5, marker := s.byteAt .inp 6 }

/-- The test of SELECT on a candidate, as 40 R135 words it. -/
def unusedValue (s : State) (v : Byte) : Bool :=
  !s.used.read s.epoch v && decide (v ≠ s.pair.a) && decide (v ≠ s.pair.b)

/-- The host issues unit commands one after the other, each awaited, and stops at the first that ends in error
(45 R246). -/
def issueUnits : List Instr → State → Host.Outcome State Fault Refusal
  | [], s => .next s
  | i :: rest, s =>
    match exec i s with
    | .next t => if t.status.err then .next t else issueUnits rest t
    | .fault r => .fault r
    | .refused r => .refused r

end Sys2Proof.Machine
end

