-- ==== Sys2Proof/Certificates/Slice0/Obligations.lean ====
section
/-!
DEFINITION. The statements for the provers. Each docstring names the rules of spec/ it formalises; a clause that rests on a
choice of the model names the log entry.
-/

open Sys2Proof Sys2Proof.Machine

/-! ## Encodings -/

/-- 30 R91, R93 to R95, R102, R104: decoding what the encoder writes gives the instruction back, whatever follows it. -/
def Obligations.DecodeEncodeAgree : Prop :=
  ∀ (m : Byte) (i : Instr) (rest : List Byte), WellFormed m i = true →
    decode (i.port m) (encode m i ++ rest) = .ok (i, rest)

/-- 30 R91, R93 to R95, R102 to R105: every byte sequence a decoder accepts is the encoding of the well-formed instruction
it answers, followed by the rest; so no two encodings share an instruction and no bit of a word is ignored. -/
def Obligations.EncodeDecodeAgree : Prop :=
  ∀ (p : Port) (bytes : List Byte) (i : Instr) (rest : List Byte), decode p bytes = .ok (i, rest) →
    ∃ m, i.port m = p ∧ WellFormed m i = true ∧ bytes = encode m i ++ rest

/-- 30 R91, R94, R95, R104: sample words, written out from the tables of the spec. -/
def Obligations.SampleWordsDecode : Prop :=
  decode .cmd [0x01#8, 0x00#8, 0x00#8, 0x00#8] = .ok (.analyze, []) ∧
  decode .cmd [0x05#8, 0x00#8, 0x00#8, 0x00#8] = .ok (.rleenc, []) ∧
  decode .cmd [0x0A#8, 0x00#8, 0x00#8, 0x00#8] = .ok (.decompress, []) ∧
  decode .header [0x50#8, 0x58#8, 0x4C#8, 0x80#8, 0x41#8, 0x42#8, 0xFF#8] =
    .ok (.hdr { sub := 0x80#8, orig1 := 0x41#8, orig2 := 0x42#8, marker := 0xFF#8 }, []) ∧
  decode (.stream 0xFF#8) [0xFF#8, 0x05#8, 0x80#8] = .ok (.run 0x05#8 0x80#8, []) ∧
  decode (.stream 0xFF#8) [0x61#8] = .ok (.lit 0x61#8, []) ∧
  decode (.stream 0x41#8) [0xFF#8] = .ok (.lit 0xFF#8, [])

/-- 30 R99, with 44 R214, R215 and 43 R194: a header record is rejected exactly when the magic is wrong or the file is
shorter than 7 bytes, and a payload form exactly when there is no byte or a marker with fewer than two bytes after it. -/
def Obligations.IllegalFormsExact : Prop :=
  (∀ bytes : List Byte, bytes.take 3 ≠ [0x50#8, 0x58#8, 0x4C#8] → decode .header bytes = .error .badMagic) ∧
  (∀ bytes : List Byte, bytes.take 3 = [0x50#8, 0x58#8, 0x4C#8] → bytes.length < 7 →
    decode .header bytes = .error .shortHeader) ∧
  (∀ bytes : List Byte, bytes.take 3 = [0x50#8, 0x58#8, 0x4C#8] → 7 ≤ bytes.length →
    ∃ h, decode .header bytes = .ok (.hdr h, bytes.drop 7)) ∧
  (∀ (m : Byte) (bytes : List Byte), bytes.head? = some m → bytes.length < 3 →
    decode (.stream m) bytes = .error .truncatedRun) ∧
  (∀ (m : Byte) (bytes : List Byte), bytes.head? = some m → 3 ≤ bytes.length →
    ∃ c v, decode (.stream m) bytes = .ok (.run c v, bytes.drop 3)) ∧
  (∀ (m b : Byte) (rest : List Byte), b ≠ m → decode (.stream m) (b :: rest) = .ok (.lit b, rest))

/-- 30 R105, 60 R254: a reserved word written to `CMD` with BUSY = 0 ends in IllegalCommand with `ERR_INFO` = the word, no
unit runs, and everything else is kept; the same write with BUSY = 1 is ignored. The model's choices: that the error takes two
steps, the host's write and the core's move (logs 7, 8), and that the core's own copy of the bytes of WORK and OUT is kept,
which the spec leaves unspecified after an error (log 10). -/
def Obligations.IllegalCommandWrite : Prop :=
  ∀ (s : State) (w : Word) (rest : List Move), (w.toNat = 0 ∨ 11 ≤ w.toNat) →
    (s.status.busy = false → s.schedule = .host (.writeReg 0x00 32 w) :: .core .whole :: rest →
      ∃ t, Host.Core.run core 2 s = .next t ∧ CompletedWith .illegalCommand w t ∧
        CoreLeavesAlone { s with schedule := rest } t ∧ SameAnalysis s t ∧ t.hdr = s.hdr ∧
        SameBytesFrom .work 0 s t ∧ SameBytesFrom .out 0 s t ∧ SameWorking s t false false false false ∧ t.rp = s.rp) ∧
    (s.status.busy = true → s.schedule = .host (.writeReg 0x00 32 w) :: .core .whole :: rest →
      step s = .next { s with schedule := .core .whole :: rest })

/-! ## Reset -/

/-- 10 R50: the values the spec gives for reset. Of what it leaves unspecified (buffers, tables, working registers) nothing is
said. -/
def Obligations.ResetState : Prop :=
  State.reset.status = { busy := false, done := false, err := false, pairValid := false, errCode := 0#4 } ∧
  State.reset.inLen = 0#32 ∧ State.reset.workLen = 0#32 ∧ State.reset.outLen = 0#32 ∧
  State.reset.hdr = { sub := 0x00#8, orig1 := 0x00#8, orig2 := 0x00#8, marker := 0xFF#8 } ∧
  State.reset.pair = { a := 0#8, b := 0#8 } ∧ State.reset.bestCount = 0#32 ∧ State.reset.errInfo = 0#32

/-- 70 R280, R281: reset, also while a command runs, abandons it and leaves the registers at their reset values; the core
is idle. The model's choices: a buffer byte is the free value of the new epoch (log 3), and the instance's parameters and the
schedule stay (log 16). -/
def Obligations.ResetAbandons : Prop :=
  ∀ (s : State) (rest : List Move), s.schedule = .host .reset :: rest →
    ∃ t, step s = .next t ∧ t.activity = .idle ∧ t.status = State.reset.status ∧ t.inLen = 0#32 ∧ t.workLen = 0#32 ∧
      t.outLen = 0#32 ∧ t.hdr = State.reset.hdr ∧ t.pair = State.reset.pair ∧ t.bestCount = 0#32 ∧ t.errInfo = 0#32 ∧
      (∀ sp i, t.byteAt sp i = Config.powerUpByte (s.epoch + 1) sp i) ∧ t.params = s.params ∧ t.schedule = rest

/-! ## A step runs the decoded instruction -/

/-- 30 R103: with a command word written and the core to move, the step is `exec` of the instruction the word's bytes decode
to; the schedule (log 8) loses the move. -/
def Obligations.StepRunsCommandWord : Prop :=
  ∀ (s : State) (w : Word) (i : Instr), s.activity = .started w → decode .cmd (bytesOfWord w) = .ok (i, []) →
    (s.schedule = [] → step s = exec i s) ∧
    (∀ rest, s.schedule = .core .whole :: rest → step s = exec i { s with schedule := rest })

/-- 44 R213, R216: a running PARSE that finds a header record at the start of IN runs it as the instruction HDR; what the
core does next is to go on after PARSE (log 12). -/
def Obligations.StepRunsHeaderRecord : Prop :=
  ∀ (s : State) (c : Bool) (i : Instr) (more : List Byte), s.activity = .header c →
    s.inLen.toNat ≤ s.params.capIn.toNat → decode .header (fetchHeader s) = .ok (i, more) →
    (s.schedule = [] → step s = exec i { s with activity := .loaded c }) ∧
    (∀ g rest, s.schedule = .core g :: rest → step s = exec i { s with activity := .loaded c, schedule := rest })

/-- 43 R191, R196: a running RLEDEC whose cursor has not reached `IN_LEN` runs the payload form at the cursor, decoded with
the marker in `HDR.MARKER` (log 12). -/
def Obligations.StepRunsPayloadForm : Prop :=
  ∀ (s : State) (c : Bool) (i : Instr) (more : List Byte), s.activity = .stream c →
    s.rp.toNat < s.inLen.toNat → decode (.stream s.hdr.marker) (fetchForm s) = .ok (i, more) →
    (s.schedule = [] → step s = exec i s) ∧
    (∀ g rest, s.schedule = .core g :: rest → step s = exec i { s with schedule := rest })

/-! ## The host's accesses -/

/-- 10 R22, 30 R103: a write to `CMD` with BUSY = 0 sets BUSY, clears DONE, ERR, ERRCODE and `ERR_INFO`, leaves PAIR_VALID
and everything else alone, and starts the command (log 7). -/
def Obligations.CommandStart : Prop :=
  ∀ (s : State) (w : Word) (rest : List Move), s.status.busy = false →
    s.schedule = .host (.writeReg 0x00 32 w) :: rest →
    step s = .next
      { s with
        schedule := rest
        status := { busy := true, done := false, err := false, pairValid := s.status.pairValid, errCode := 0#4 }
        errInfo := 0#32
        activity := .started w }

/-- 10 R51, 20 R66: while BUSY = 1 a host write to a register or to a buffer changes nothing; a read of `STATUS` returns BUSY 1,
DONE, ERR and ERRCODE 0 and some PAIR_VALID; a read of any other register returns some word and a read of a buffer some byte;
and no read changes anything but `readData` and `freeCount`, the model's own fields (logs 9, 15). -/
def Obligations.BusyAccess : Prop :=
  ∀ (s : State) (rest : List Move), s.status.busy = true →
    (∀ (k : Nat) (w : Word), k < 16 → s.schedule = .host (.writeReg (4 * k) 32 w) :: rest →
      step s = .next { s with schedule := rest }) ∧
    (∀ (sp : Space) (i : Nat) (v : Byte), i < (s.cap sp).toNat → s.schedule = .host (.writeBuf sp i v) :: rest →
      step s = .next { s with schedule := rest }) ∧
    (s.schedule = .host (.readReg 0x04 32) :: rest →
      ∃ pv : BitVec 1, step s = .next
        { s with schedule := rest, readData := 0#28 ++ pv ++ 0b001#3, freeCount := s.freeCount + 1 }) ∧
    (∀ k, k < 16 → k ≠ 1 → s.schedule = .host (.readReg (4 * k) 32) :: rest →
      ∃ v, step s = .next { s with schedule := rest, readData := v, freeCount := s.freeCount + 1 }) ∧
    (∀ sp i, i < (s.cap sp).toNat → s.schedule = .host (.readBuf sp i) :: rest →
      ∃ b : Byte, step s = .next
        { s with schedule := rest, readData := b.setWidth 32, freeCount := s.freeCount + 1 })

/-- 10 R21 to R33: what a read of each register returns with BUSY = 0; a read changes nothing but what the host holds
(20 R66, log 15). -/
def Obligations.RegisterReads : Prop :=
  ∀ (s : State) (k : Nat) (rest : List Move), s.status.busy = false → k < 16 →
    s.schedule = .host (.readReg (4 * k) 32) :: rest →
    ∃ v, step s = .next { s with schedule := rest, readData := v } ∧
      (k = 0 → v = 0#32) ∧
      (k = 1 → v.extractLsb' 0 1 = BitVec.ofBool s.status.busy ∧ v.extractLsb' 1 1 = BitVec.ofBool s.status.done ∧
        v.extractLsb' 2 1 = BitVec.ofBool s.status.err ∧ v.extractLsb' 3 1 = BitVec.ofBool s.status.pairValid ∧
        v.extractLsb' 4 4 = s.status.errCode ∧ v.extractLsb' 8 24 = 0#24) ∧
      (k = 2 → v = s.inLen) ∧ (k = 3 → v = s.workLen) ∧ (k = 4 → v = s.outLen) ∧
      (k = 5 → v.toNat = s.hdr.marker.toNat * 2 ^ 24 + s.hdr.orig2.toNat * 2 ^ 16 + s.hdr.orig1.toNat * 2 ^ 8 +
        s.hdr.sub.toNat) ∧
      (k = 6 → v.toNat = s.pair.b.toNat * 2 ^ 8 + s.pair.a.toNat) ∧
      (k = 7 → v = s.bestCount) ∧ (k = 8 → v = s.errInfo) ∧ (9 ≤ k → v = 0#32)

/-- 10 R21, R24, R27, R33: with BUSY = 0 a write to `IN_LEN` or `HDR` stores all 32 bits, and a write to a read-only or
reserved offset is ignored. -/
def Obligations.RegisterWrites : Prop :=
  ∀ (s : State) (k : Nat) (w : Word) (rest : List Move), s.status.busy = false → 1 ≤ k → k < 16 →
    s.schedule = .host (.writeReg (4 * k) 32 w) :: rest →
    step s = .next
      (if k = 2 then { s with schedule := rest, inLen := w }
       else if k = 5 then
        { s with
          schedule := rest
          hdr :=
            { sub := w.extractLsb' 0 8
              orig1 := w.extractLsb' 8 8
              orig2 := w.extractLsb' 16 8
              marker := w.extractLsb' 24 8 } }
       else { s with schedule := rest })

/-- 10 R40, R41; 20 R62, R66, R67: with BUSY = 0 the host reads a buffer byte below the length, and some byte at or above it
(log 10), and no read changes anything but `readData` and `freeCount` (log 15); it writes a byte of IN below the capacity and
nothing else; and writes to WORK and OUT are ignored. -/
def Obligations.BufferAccess : Prop :=
  ∀ (s : State) (i : Nat) (v : Byte) (rest : List Move), s.status.busy = false →
    (∀ sp, i < (s.len sp).toNat → i < (s.cap sp).toNat → s.schedule = .host (.readBuf sp i) :: rest →
      step s = .next { s with schedule := rest, readData := (s.byteAt sp i).setWidth 32 }) ∧
    (∀ sp, (s.len sp).toNat ≤ i → i < (s.cap sp).toNat → s.schedule = .host (.readBuf sp i) :: rest →
      ∃ b : Byte, step s = .next
        { s with schedule := rest, readData := b.setWidth 32, freeCount := s.freeCount + 1 }) ∧
    (i < s.params.capIn.toNat → s.schedule = .host (.writeBuf .inp i v) :: rest →
      ∃ m, step s = .next { s with schedule := rest, bufIn := m } ∧
        ∀ j, State.byteAt { s with schedule := rest, bufIn := m } .inp j = if j = i then v else s.byteAt .inp j) ∧
    (∀ sp, sp ≠ .inp → i < (s.cap sp).toNat → s.schedule = .host (.writeBuf sp i v) :: rest →
      step s = .next { s with schedule := rest })

/-- 10 R33; 20 R62, R65: the model refuses an access to an offset of 0x40 or above, a misaligned or odd-sized register access,
and a buffer access at or above the capacity. That it does so also while BUSY = 1, and names the offset first, is log 11. -/
def Obligations.BadAccessStops : Prop :=
  ∀ (s : State) (rest : List Move) (w : Word) (v : Byte),
    (∀ offset width, 0x40 ≤ offset →
      (s.schedule = .host (.readReg offset width) :: rest → step s = .refused (.noSuchRegister offset)) ∧
      (s.schedule = .host (.writeReg offset width w) :: rest → step s = .refused (.noSuchRegister offset))) ∧
    (∀ offset width, offset < 0x40 → (offset % 4 ≠ 0 ∨ width ≠ 32) →
      (s.schedule = .host (.readReg offset width) :: rest → step s = .refused (.badRegisterAccess offset width)) ∧
      (s.schedule = .host (.writeReg offset width w) :: rest → step s = .refused (.badRegisterAccess offset width))) ∧
    (∀ sp i, (s.cap sp).toNat ≤ i →
      (s.schedule = .host (.readBuf sp i) :: rest → step s = .refused (.noSuchByte sp i)) ∧
      (s.schedule = .host (.writeBuf sp i v) :: rest → step s = .refused (.noSuchByte sp i)))

/-! ## ANALYZE -/

/-- 40 R122: every counter holds the number of indices at which its pair stands; the counters sum to n - 1, or to 0 when
n = 0. -/
def Obligations.AnalyzeCounts : Prop :=
  ∀ s : State, s.inLen.toNat ≤ s.params.capIn.toNat →
    ∃ t, exec .analyze s = .next t ∧ CompletedOk t ∧
      (∀ a b, (t.hist.read t.epoch (pairIndex a b)).toNat = Codec.pairCount s.input (a, b)) ∧
      ((List.range 65536).map fun k => (t.hist.read t.epoch k).toNat).sum = s.inLen.toNat - 1

/-- 40 R123: `USED[v]` = 1 exactly when v occurs in the input. -/
def Obligations.AnalyzeUsedBytes : Prop :=
  ∀ s : State, s.inLen.toNat ≤ s.params.capIn.toNat →
    ∃ t, exec .analyze s = .next t ∧ CompletedOk t ∧
      ∀ v, t.used.read t.epoch v = true ↔ ∃ i, i < s.inLen.toNat ∧ s.byteAt .inp i = v

/-- 40 R124, R125; 10 R29 to R31: `BEST_COUNT` is the greatest count of any pair, `PAIR` a pair with that count, both zero
without a pair; PAIR_VALID says that some pair occurs more than once. -/
def Obligations.AnalyzeBest : Prop :=
  ∀ s : State, s.inLen.toNat ≤ s.params.capIn.toNat →
    ∃ t, exec .analyze s = .next t ∧ CompletedOk t ∧
      (∀ q, Codec.pairCount s.input q ≤ t.bestCount.toNat) ∧
      (2 ≤ s.inLen.toNat → 1 ≤ t.bestCount.toNat ∧
        Codec.pairCount s.input (t.pair.a, t.pair.b) = t.bestCount.toNat) ∧
      (s.inLen.toNat < 2 → t.bestCount = 0#32 ∧ t.pair = { a := 0#8, b := 0#8 }) ∧
      (t.status.pairValid = true ↔ 2 ≤ t.bestCount.toNat) ∧
      (t.status.pairValid = true ↔ ∃ q, 2 ≤ Codec.pairCount s.input q)

/-- 40 R126: under FIRST_TO_REACH_MAX the winner is the pair whose running count reaches `BEST_COUNT` at the least index. -/
def Obligations.AnalyzeTieBreak : Prop :=
  ∀ s : State, s.inLen.toNat ≤ s.params.capIn.toNat → 2 ≤ s.inLen.toNat → s.params.tie = .firstToReachMax →
    ∃ t, exec .analyze s = .next t ∧ CompletedOk t ∧
      Codec.FirstToReach s.input t.bestCount.toNat (t.pair.a, t.pair.b)

/-- 00 R10 with UB1 of 93_implementation_defined.md: the two other tie rules a model may offer (log 2). -/
def Obligations.AnalyzeOtherTieRules : Prop :=
  ∀ s : State, s.inLen.toNat ≤ s.params.capIn.toNat → 2 ≤ s.inLen.toNat →
    ∃ t, exec .analyze s = .next t ∧ CompletedOk t ∧
      (s.params.tie = .firstEncountered →
        Codec.FirstEncountered s.input t.bestCount.toNat (t.pair.a, t.pair.b)) ∧
      (s.params.tie = .lowestIndex → Codec.LowestIndex s.input t.bestCount.toNat (t.pair.a, t.pair.b))

/-- 40 R120, 20 R76: what ANALYZE leaves unchanged: IN, WORK, OUT and their lengths, `HDR`, and every working register but
`RP` and `PREV`. That the core's own copy of the bytes at or above the lengths is kept is log 10. -/
def Obligations.AnalyzeFrame : Prop :=
  ∀ s : State, s.inLen.toNat ≤ s.params.capIn.toNat →
    ∃ t, exec .analyze s = .next t ∧ CompletedOk t ∧ CoreLeavesAlone s t ∧ t.hdr = s.hdr ∧
      t.workLen = s.workLen ∧ t.outLen = s.outLen ∧ SameBytesFrom .work 0 s t ∧ SameBytesFrom .out 0 s t ∧
      SameWorking s t false true false false

/-- 40 R127: the result of ANALYZE is a function of the input and its length (and of the instance's tie rule): whatever else
two states differ in, it is the same. -/
def Obligations.AnalyzeDeterministic : Prop :=
  ∀ s s' : State, s.inLen.toNat ≤ s.params.capIn.toNat → s'.inLen.toNat ≤ s'.params.capIn.toNat →
    s.input = s'.input → s.params.tie = s'.params.tie →
    ∃ t t', exec .analyze s = .next t ∧ exec .analyze s' = .next t' ∧
      t.hist = t'.hist ∧ t.used = t'.used ∧ t.bestCount = t'.bestCount ∧ t.pair = t'.pair ∧
      t.status.pairValid = t'.status.pairValid

/-- 40 R129: the corner cases by length. -/
def Obligations.AnalyzeCornerCases : Prop :=
  ∀ s : State, s.inLen.toNat ≤ s.params.capIn.toNat →
    ∃ t, exec .analyze s = .next t ∧ CompletedOk t ∧
      (s.input = [] → t.bestCount = 0#32 ∧ t.pair = { a := 0#8, b := 0#8 } ∧ t.status.pairValid = false ∧
        ∀ v, t.used.read t.epoch v = false) ∧
      (∀ x, s.input = [x] → t.bestCount = 0#32 ∧ t.pair = { a := 0#8, b := 0#8 } ∧ t.status.pairValid = false ∧
        ∀ v, t.used.read t.epoch v = decide (v = x)) ∧
      (∀ x y, s.input = [x, y] → t.bestCount = 1#32 ∧ t.pair = { a := x, b := y } ∧ t.status.pairValid = false ∧
        ∀ v, t.used.read t.epoch v = decide (v = x ∨ v = y)) ∧
      (∀ x, s.input = [x, x, x] → t.bestCount = 2#32 ∧ t.pair = { a := x, b := x } ∧ t.status.pairValid = true ∧
        ∀ v, t.used.read t.epoch v = decide (v = x)) ∧
      (s.params.tie = .firstToReachMax → 2 ≤ s.inLen.toNat → (Codec.pairs s.input).Nodup →
        t.bestCount = 1#32 ∧ t.pair = { a := s.byteAt .inp 0, b := s.byteAt .inp 1 } ∧ t.status.pairValid = false)

/-! ## SELECT -/

/-- 40 R135, R136, R138, R139: with a pair the header takes the least free value of 128 to 254 and the pair, or zeros if there
is none; without a pair it takes zeros. `HDR.MARKER`, the buffers, the lengths and the analyzer's results stay. That `RP`
stays is the model's reading (log 6), as SELECT reads no buffer. That the core's own copy of the bytes at or above the lengths
is kept is log 10. -/
def Obligations.SelectRule : Prop :=
  ∀ s : State, ∃ t, exec .select s = .next t ∧ CompletedOk t ∧
    (s.status.pairValid = true →
      (∃ v, Codec.LeastFree (unusedValue s) (some v) ∧
        t.hdr = { sub := v, orig1 := s.pair.a, orig2 := s.pair.b, marker := s.hdr.marker }) ∨
      (Codec.LeastFree (unusedValue s) none ∧
        t.hdr = { sub := 0x00#8, orig1 := 0x00#8, orig2 := 0x00#8, marker := s.hdr.marker })) ∧
    (s.status.pairValid = false →
      t.hdr = { sub := 0x00#8, orig1 := 0x00#8, orig2 := 0x00#8, marker := s.hdr.marker }) ∧
    CoreLeavesAlone s t ∧ SameAnalysis s t ∧ t.workLen = s.workLen ∧ t.outLen = s.outLen ∧
    SameBytesFrom .work 0 s t ∧ SameBytesFrom .out 0 s t ∧ t.rp = s.rp ∧ SameWorking s t false false true false

/-- 40 R137, R140: after ANALYZE and SELECT on the same input, a substitute byte occurs nowhere in the input and is neither
0x00, nor 0xFF, nor a byte of the pair, and the pair is one of the input that occurs at least twice. -/
def Obligations.SelectFreshness : Prop :=
  ∀ s : State, s.inLen.toNat ≤ s.params.capIn.toNat →
    ∃ t u, exec .analyze s = .next t ∧ exec .select t = .next u ∧ CompletedOk u ∧
      (u.hdr.sub ≠ 0x00#8 →
        u.hdr.sub ∉ s.input ∧ u.hdr.sub ≠ 0xFF#8 ∧ u.hdr.sub ≠ u.hdr.orig1 ∧ u.hdr.sub ≠ u.hdr.orig2 ∧
        2 ≤ Codec.pairCount s.input (u.hdr.orig1, u.hdr.orig2)) ∧
      (u.hdr.sub = 0x00#8 → u.hdr.orig1 = 0x00#8 ∧ u.hdr.orig2 = 0x00#8 ∧
        (t.status.pairValid = false ∨
          ∀ v : Byte, 128 ≤ v.toNat → v.toNat ≤ 254 → v ∈ s.input))

/-! ## SUBST and UNSUBST -/

/-- 41 R150 to R154: SUBST leaves in WORK the input with every left-to-right, non-overlapping occurrence of the pair replaced,
the input itself when `HDR.SUB` = 0, and changes nothing else the host can see. That the core's own copy of the bytes at or
above the lengths is kept is log 10. -/
def Obligations.SubstResult : Prop :=
  ∀ s : State, s.inLen.toNat ≤ s.params.capIn.toNat →
    (Codec.substituted s.hdr.sub s.hdr.orig1 s.hdr.orig2 s.input).length ≤ s.params.capWork.toNat →
    ∃ t, exec .subst s = .next t ∧ CompletedOk t ∧
      t.workBytes = Codec.substituted s.hdr.sub s.hdr.orig1 s.hdr.orig2 s.input ∧
      (s.hdr.sub = 0x00#8 → t.workBytes = s.input) ∧
      CoreLeavesAlone s t ∧ SameAnalysis s t ∧ t.hdr = s.hdr ∧ t.outLen = s.outLen ∧
      SameBytesFrom .work t.workLen.toNat s t ∧ SameBytesFrom .out 0 s t ∧ SameWorking s t false false false false

/-- 41 R156: the processed buffer is no longer than the input and at least half as long; with as much room as input SUBST
completes. -/
def Obligations.SubstLength : Prop :=
  ∀ s : State, s.inLen.toNat ≤ s.params.capIn.toNat → s.inLen.toNat ≤ s.params.capWork.toNat →
    ∃ t, exec .subst s = .next t ∧ CompletedOk t ∧
      t.workLen.toNat ≤ s.inLen.toNat ∧ s.inLen.toNat ≤ 2 * t.workLen.toNat

/-- 41 R160 to R163: UNSUBST leaves in OUT the bytes of WORK with every byte equal to a nonzero `HDR.SUB` replaced by the
pair, in one pass, and changes nothing else the host can see. That the core's own copy of the bytes at or above the lengths is
kept is log 10. -/
def Obligations.UnsubstResult : Prop :=
  ∀ s : State, (Codec.restored s.hdr.sub s.hdr.orig1 s.hdr.orig2 s.workBytes).length ≤ s.params.capOut.toNat →
    ∃ t, exec .unsubst s = .next t ∧ CompletedOk t ∧
      t.output = Codec.restored s.hdr.sub s.hdr.orig1 s.hdr.orig2 s.workBytes ∧
      (s.hdr.sub = 0x00#8 → t.output = s.workBytes) ∧
      (s.hdr.sub ≠ 0x00#8 → t.outLen.toNat = s.workLen.toNat + s.workBytes.count s.hdr.sub) ∧
      CoreLeavesAlone s t ∧ SameAnalysis s t ∧ t.hdr = s.hdr ∧ t.workLen = s.workLen ∧
      SameBytesFrom .out t.outLen.toNat s t ∧ SameBytesFrom .work 0 s t ∧ SameWorking s t false false false false

/-- 41 R164: if the substitute byte does not occur in the input (or substitution is off), UNSUBST undoes SUBST. -/
def Obligations.UnsubstUndoesSubst : Prop :=
  ∀ s : State, s.inLen.toNat ≤ s.params.capIn.toNat → s.inLen.toNat ≤ s.params.capWork.toNat →
    s.inLen.toNat ≤ s.params.capOut.toNat → (s.hdr.sub = 0x00#8 ∨ s.hdr.sub ∉ s.input) →
    ∃ t u, exec .subst s = .next t ∧ CompletedOk t ∧ exec .unsubst t = .next u ∧ CompletedOk u ∧ u.output = s.input

/-! ## RLEENC and RLEDEC -/

/-- 42 R170 to R176: RLEENC appends the run-length encoding of WORK at `OUT_LEN` and changes nothing else the host can see;
`HDR.MARKER` plays no part. That the core's own copy of the bytes at or above the lengths is kept is log 10. -/
def Obligations.RleencResult : Prop :=
  ∀ s : State, s.outLen.toNat + (Codec.encoded s.workBytes).length ≤ s.params.capOut.toNat →
    ∃ t, exec .rleenc s = .next t ∧ CompletedOk t ∧
      t.output = s.output ++ Codec.encoded s.workBytes ∧
      CoreLeavesAlone s t ∧ SameAnalysis s t ∧ t.hdr = s.hdr ∧ t.workLen = s.workLen ∧
      SameBytesFrom .out t.outLen.toNat s t ∧ SameBytesFrom .work 0 s t ∧ SameWorking s t true false false false

/-- 42 R178: RLEENC appends at most 2w + 1 bytes for a WORK of w bytes, and at most w if WORK holds no 0xFF. -/
def Obligations.RleencSize : Prop :=
  ∀ s : State, s.outLen.toNat + (2 * s.workLen.toNat + 1) ≤ s.params.capOut.toNat →
    ∃ t, exec .rleenc s = .next t ∧ CompletedOk t ∧
      t.outLen.toNat ≤ s.outLen.toNat + (2 * s.workLen.toNat + 1) ∧
      (0xFF#8 ∉ s.workBytes → t.outLen.toNat ≤ s.outLen.toNat + s.workLen.toNat)

/-- 43 R190 to R193, R195, R196, R199: RLEDEC expands the payload with the marker in `HDR.MARKER` into WORK and changes
nothing else the host can see. That the core's own copy of the bytes at or above the lengths is kept is log 10. -/
def Obligations.RledecResult : Prop :=
  ∀ (s : State) (ys : List Byte), s.inLen.toNat ≤ s.params.capIn.toNat →
    Codec.expand s.hdr.marker 7 (s.input.drop 7) = (ys, none) → ys.length ≤ s.params.capWork.toNat →
    ∃ t, exec .rledec s = .next t ∧ CompletedOk t ∧ t.workBytes = ys ∧
      t.workLen.toNat ≤ 255 * ((s.inLen.toNat - 7) / 3) + (s.inLen.toNat - 7) % 3 ∧
      CoreLeavesAlone s t ∧ SameAnalysis s t ∧ t.hdr = s.hdr ∧ t.outLen = s.outLen ∧
      SameBytesFrom .work t.workLen.toNat s t ∧ SameBytesFrom .out 0 s t ∧ SameWorking s t true false false false

/-- 43 R194, 60 R252: a marker at the start of a form with fewer than two bytes after it ends RLEDEC in CorruptedStream with
`ERR_INFO` = its index in IN. That the core's own copy of the bytes of OUT is kept after the error is log 10. -/
def Obligations.RledecTruncated : Prop :=
  ∀ (s : State) (ys : List Byte) (p : Nat), s.inLen.toNat ≤ s.params.capIn.toNat →
    Codec.expand s.hdr.marker 7 (s.input.drop 7) = (ys, some p) → ys.length ≤ s.params.capWork.toNat →
    7 ≤ p ∧ p < s.inLen.toNat ∧ s.inLen.toNat ≤ p + 2 ∧ s.byteAt .inp p = s.hdr.marker ∧
    ∃ t, exec .rledec s = .next t ∧ CompletedWith .corruptedStream (BitVec.ofNat 32 p) t ∧
      CoreLeavesAlone s t ∧ SameAnalysis s t ∧ t.hdr = s.hdr ∧ SameBytesFrom .out 0 s t ∧
      SameWorking s t true false false false

/-- 42 R179, 43 R198: if the payload in IN is what RLEENC appended for a buffer W, and `HDR.MARKER` is 0xFF, RLEDEC gives
back W. -/
def Obligations.RledecUndoesRleenc : Prop :=
  ∀ s t u : State, s.outLen.toNat + (Codec.encoded s.workBytes).length ≤ s.params.capOut.toNat →
    exec .rleenc s = .next t → u.inLen.toNat ≤ u.params.capIn.toNat → s.workLen.toNat ≤ u.params.capWork.toNat →
    u.hdr.marker = 0xFF#8 → u.input.drop 7 = t.output.drop s.outLen.toNat →
    ∃ v, exec .rledec u = .next v ∧ CompletedOk v ∧ v.workBytes = s.workBytes

/-! ## FRAME and PARSE -/

/-- 44 R210 to R212: FRAME writes the seven bytes of the header record, byte 6 the constant, sets `OUT_LEN` to 7 and changes
nothing else. That `RP` stays is the model's reading (log 6), as FRAME reads no buffer. That the core's own copy of the bytes
of OUT from index 7 up, and of WORK at or above its length, is kept is log 10. -/
def Obligations.FrameResult : Prop :=
  ∀ s : State, ∃ t, exec .frame s = .next t ∧ CompletedOk t ∧ t.outLen = 7#32 ∧
    t.output = [0x50#8, 0x58#8, 0x4C#8, s.hdr.sub, s.hdr.orig1, s.hdr.orig2, 0xFF#8] ∧
    CoreLeavesAlone s t ∧ SameAnalysis s t ∧ t.hdr = s.hdr ∧ t.workLen = s.workLen ∧
    SameBytesFrom .out 7 s t ∧ SameBytesFrom .work 0 s t ∧ t.rp = s.rp ∧ SameWorking s t false false false false

/-- 44 R213 to R216: PARSE's tests in their order, and on success the load of the four fields, unchecked, and nothing else.
That `RP` stays, on an error too, is the model's reading (log 6): 44 R213 does not write it. That the core's own copy of the
bytes at or above the lengths is kept is log 10. -/
def Obligations.ParseOutcome : Prop :=
  ∀ s : State, ∃ t, exec .parse s = .next t ∧ CoreLeavesAlone s t ∧ SameAnalysis s t ∧
    SameWorking s t false false false false ∧ t.rp = s.rp ∧
    if s.params.capIn.toNat < s.inLen.toNat then CompletedWith .capacityExceeded 0#32 t ∧ t.hdr = s.hdr
    else if s.input.take 3 ≠ [0x50#8, 0x58#8, 0x4C#8] then CompletedWith .invalidFormat 0#32 t ∧ t.hdr = s.hdr
    else if s.inLen.toNat < 7 then CompletedWith .invalidFormat 1#32 t ∧ t.hdr = s.hdr
    else CompletedOk t ∧ t.hdr = fileFields s ∧ t.workLen = s.workLen ∧ t.outLen = s.outLen ∧
      SameBytesFrom .work 0 s t ∧ SameBytesFrom .out 0 s t

/-- 44 R213, R216: PARSE of a file with the magic and seven bytes completes normally, whatever its four fields are; nothing
but `HDR` and the status changes. That `RP` stays is the model's reading (log 6). That the core's own copy of the bytes at or
above the lengths is kept is log 10. -/
def Obligations.ParseLoads : Prop :=
  ∀ s : State, s.inLen.toNat ≤ s.params.capIn.toNat → 7 ≤ s.inLen.toNat →
    s.byteAt .inp 0 = 0x50#8 → s.byteAt .inp 1 = 0x58#8 → s.byteAt .inp 2 = 0x4C#8 →
    ∃ t, exec .parse s = .next t ∧ CompletedOk t ∧
      (hdrWord t.hdr).toNat = (s.byteAt .inp 6).toNat * 2 ^ 24 + (s.byteAt .inp 5).toNat * 2 ^ 16 +
        (s.byteAt .inp 4).toNat * 2 ^ 8 + (s.byteAt .inp 3).toNat ∧
      CoreLeavesAlone s t ∧ SameAnalysis s t ∧ t.workLen = s.workLen ∧ t.outLen = s.outLen ∧
      SameBytesFrom .work 0 s t ∧ SameBytesFrom .out 0 s t ∧ SameWorking s t false false false false ∧ t.rp = s.rp

/-- 44 R218: PARSE of the record FRAME wrote loads the three fields FRAME read, and the marker 0xFF. -/
def Obligations.ParseUndoesFrame : Prop :=
  ∀ s t u : State, exec .frame s = .next t → 7 ≤ u.inLen.toNat → u.inLen.toNat ≤ u.params.capIn.toNat →
    u.input.take 7 = t.output →
    ∃ v, exec .parse u = .next v ∧ CompletedOk v ∧
      v.hdr = { sub := s.hdr.sub, orig1 := s.hdr.orig1, orig2 := s.hdr.orig2, marker := 0xFF#8 }

/-! ## The forms of a file as instructions -/

/-- 44 R216: the header record's four bytes go to `HDR` unchanged and unchecked, and nothing else changes. -/
def Obligations.HdrLoads : Prop :=
  ∀ (s : State) (f : Hdr), exec (.hdr f) s = .next { s with hdr := f }

/-- 43 R192, R195: RUN appends value count times, none for count 0, moves `RP` by 3 and changes nothing else but `RUNLEN` and
`CURV`. That the form is an instruction of its own, with this effect in every state, is the model's choice (log 12). That the
core's own copy of the bytes at or above the lengths is kept is log 10. -/
def Obligations.RunExpands : Prop :=
  ∀ (s : State) (c v : Byte), s.workLen.toNat + c.toNat ≤ s.params.capWork.toNat →
    ∃ t, exec (.run c v) s = .next t ∧ t.workLen.toNat = s.workLen.toNat + c.toNat ∧ t.rp = s.rp + 3#32 ∧
      (∀ i, t.byteAt .work i =
        if s.workLen.toNat ≤ i ∧ i < s.workLen.toNat + c.toNat then v else s.byteAt .work i) ∧
      CoreLeavesAlone s t ∧ SameAnalysis s t ∧ t.status = s.status ∧ t.errInfo = s.errInfo ∧ t.hdr = s.hdr ∧
      t.outLen = s.outLen ∧ SameBytesFrom .out 0 s t ∧ t.activity = s.activity ∧ SameWorking s t true false false false

/-- 43 R193: LIT appends its byte, moves `RP` by 1 and changes nothing else. That the form is an instruction of its own, with
this effect in every state and for every byte, the marker too, is the model's choice (log 12). That the core's own copy of the
bytes at or above the lengths is kept is log 10. -/
def Obligations.LitCopies : Prop :=
  ∀ (s : State) (b : Byte), s.workLen.toNat < s.params.capWork.toNat →
    ∃ t, exec (.lit b) s = .next t ∧ t.workLen.toNat = s.workLen.toNat + 1 ∧ t.rp = s.rp + 1#32 ∧
      (∀ i, t.byteAt .work i = if i = s.workLen.toNat then b else s.byteAt .work i) ∧
      CoreLeavesAlone s t ∧ SameAnalysis s t ∧ t.status = s.status ∧ t.errInfo = s.errInfo ∧ t.hdr = s.hdr ∧
      t.outLen = s.outLen ∧ SameBytesFrom .out 0 s t ∧ t.activity = s.activity ∧
      SameWorking s t false false false false

/-! ## Errors -/

/-- 60 R255, R257 item 2, R258: every command that reads IN ends in CapacityExceeded when `IN_LEN` is above `CAP_IN`, before
anything but the lengths, the error registers and `PHASE` is written. That `RP` is not written before the test is log 6; that
the core's own copy of the bytes of WORK and OUT is kept is log 10. -/
def Obligations.InputTooLong : Prop :=
  ∀ (s : State) (i : Instr), i ∈ [Instr.analyze, .subst, .parse, .rledec, .compress, .decompress] →
    s.params.capIn.toNat < s.inLen.toNat →
    ∃ t, exec i s = .next t ∧ CompletedWith .capacityExceeded 0#32 t ∧ CoreLeavesAlone s t ∧ SameAnalysis s t ∧
      t.hdr = s.hdr ∧ SameBytesFrom .work 0 s t ∧ SameBytesFrom .out 0 s t ∧ t.rp = s.rp ∧
      SameWorking s t false false false true

/-- 60 R255, R257, R258: a command or form whose append finds its buffer full ends in CapacityExceeded, and keeps what 60 R258
keeps, and the buffer it does not write; RLEDEC also where a truncated triplet stands later in the stream (60 R257, item 4).
That RUN and LIT are instructions of their own, which raise the error in every state, is the model's choice (log 12),
and that the core's own copy of the bytes of that buffer is kept after the error is log 10. -/
def Obligations.AppendOverflow : Prop :=
  ∀ s : State,
    (s.inLen.toNat ≤ s.params.capIn.toNat →
      s.params.capWork.toNat < (Codec.substituted s.hdr.sub s.hdr.orig1 s.hdr.orig2 s.input).length →
      ∃ t, exec .subst s = .next t ∧ CompletedWith .capacityExceeded 0#32 t ∧ CoreLeavesAlone s t ∧
        SameAnalysis s t ∧ t.hdr = s.hdr ∧ SameBytesFrom .out 0 s t ∧ SameWorking s t false false false false) ∧
    (s.params.capOut.toNat < (Codec.restored s.hdr.sub s.hdr.orig1 s.hdr.orig2 s.workBytes).length →
      ∃ t, exec .unsubst s = .next t ∧ CompletedWith .capacityExceeded 0#32 t ∧ CoreLeavesAlone s t ∧
        SameAnalysis s t ∧ t.hdr = s.hdr ∧ SameBytesFrom .work 0 s t ∧ SameWorking s t false false false false) ∧
    (s.outLen.toNat ≤ s.params.capOut.toNat →
      s.params.capOut.toNat < s.outLen.toNat + (Codec.encoded s.workBytes).length →
      ∃ t, exec .rleenc s = .next t ∧ CompletedWith .capacityExceeded 0#32 t ∧ CoreLeavesAlone s t ∧
        SameAnalysis s t ∧ t.hdr = s.hdr ∧ SameBytesFrom .work 0 s t ∧ SameWorking s t true false false false) ∧
    (s.inLen.toNat ≤ s.params.capIn.toNat →
      s.params.capWork.toNat < (Codec.expand s.hdr.marker 7 (s.input.drop 7)).1.length →
      ∃ t, exec .rledec s = .next t ∧ CompletedWith .capacityExceeded 0#32 t ∧ CoreLeavesAlone s t ∧
        SameAnalysis s t ∧ t.hdr = s.hdr ∧ SameBytesFrom .out 0 s t ∧ SameWorking s t true false false false) ∧
    (∀ c v, s.workLen.toNat ≤ s.params.capWork.toNat → s.params.capWork.toNat < s.workLen.toNat + c.toNat →
      ∃ t, exec (.run c v) s = .next t ∧ CompletedWith .capacityExceeded 0#32 t ∧ CoreLeavesAlone s t ∧
        SameAnalysis s t ∧ t.hdr = s.hdr ∧ SameBytesFrom .out 0 s t ∧ SameWorking s t true false false false) ∧
    (∀ b, s.workLen = s.params.capWork →
      ∃ t, exec (.lit b) s = .next t ∧ CompletedWith .capacityExceeded 0#32 t ∧ CoreLeavesAlone s t ∧
        SameAnalysis s t ∧ t.hdr = s.hdr ∧ SameBytesFrom .out 0 s t ∧ SameWorking s t false false false false)

/-! ## COMPRESS and DECOMPRESS -/

/-- 45 R230, R235, with 00 R9 and 45 R234: given room, COMPRESS completes; WORK is the processed buffer, OUT the header and
the encoding of WORK, the header fields a fresh substitute byte with a most frequent pair, or zeros when no pair repeats or no
value is free. That the core's own copy of the bytes at or above the lengths is kept is log 10. -/
def Obligations.CompressResult : Prop :=
  ∀ s : State, s.inLen.toNat ≤ s.params.capIn.toNat → s.inLen.toNat ≤ s.params.capWork.toNat →
    2 * s.inLen.toNat + 8 ≤ s.params.capOut.toNat →
    ∃ t, exec .compress s = .next t ∧ CompletedOk t ∧
      t.workBytes = Codec.substituted t.hdr.sub t.hdr.orig1 t.hdr.orig2 s.input ∧
      t.output = [0x50#8, 0x58#8, 0x4C#8, t.hdr.sub, t.hdr.orig1, t.hdr.orig2, 0xFF#8] ++ Codec.encoded t.workBytes ∧
      t.outLen.toNat ≤ 2 * s.inLen.toNat + 8 ∧ t.hdr.marker = s.hdr.marker ∧
      (t.hdr.sub ≠ 0x00#8 → 128 ≤ t.hdr.sub.toNat ∧ t.hdr.sub.toNat ≤ 254 ∧ t.hdr.sub ∉ s.input ∧
        2 ≤ Codec.pairCount s.input (t.hdr.orig1, t.hdr.orig2) ∧
        ∀ q, Codec.pairCount s.input q ≤ Codec.pairCount s.input (t.hdr.orig1, t.hdr.orig2)) ∧
      (t.hdr.sub = 0x00#8 → t.hdr.orig1 = 0x00#8 ∧ t.hdr.orig2 = 0x00#8 ∧
        ((∀ q, Codec.pairCount s.input q ≤ 1) ∨ ∀ v : Byte, 128 ≤ v.toNat → v.toNat ≤ 254 → v ∈ s.input)) ∧
      CoreLeavesAlone s t ∧ SameBytesFrom .work t.workLen.toNat s t ∧ SameBytesFrom .out t.outLen.toNat s t

/-- 45 R231: COMPRESS of the empty input gives the header-only file. -/
def Obligations.CompressEmpty : Prop :=
  ∀ s : State, s.params.Legal → s.inLen = 0#32 →
    ∃ t, exec .compress s = .next t ∧ CompletedOk t ∧
      t.output = [0x50#8, 0x58#8, 0x4C#8, 0x00#8, 0x00#8, 0x00#8, 0xFF#8] ∧ t.workLen = 0#32 ∧
      t.hdr.sub = 0x00#8 ∧ t.hdr.orig1 = 0x00#8 ∧ t.hdr.orig2 = 0x00#8 ∧ t.bestCount = 0#32 ∧
      t.status.pairValid = false

/-- 45 R234: COMPRESS ends normally or in CapacityExceeded, never in another error, and normally when the capacities satisfy
00 R9 and `IN_LEN` is at most `CAP_IN`. -/
def Obligations.CompressOnlyCapacity : Prop :=
  ∀ s : State, s.params.Legal →
    ∃ t, exec .compress s = .next t ∧ (CompletedOk t ∨ CompletedWith .capacityExceeded 0#32 t) ∧
      (s.params.Roomy → s.inLen.toNat ≤ s.params.capIn.toNat → CompletedOk t)

/-- 45 R246, 30 R107: COMPRESS leaves the same state as its five unit commands one after the other, up to `PHASE`, which
only a composite command writes. -/
def Obligations.CompressIsItsUnits : Prop :=
  ∀ s t : State, issueUnits [.analyze, .select, .subst, .frame, .rleenc] s = .next t →
    ∃ p, exec .compress s = .next { t with phase := p }

/-- 45 R240 to R242, 60 R257: what DECOMPRESS does, in the order of its stages: PARSE's errors with `HDR` unchanged, then the
decoder's with `HDR` loaded, then the reversal's, else the restored bytes in OUT. That the core's own copy of the bytes at or
above the lengths is kept is log 10. -/
def Obligations.DecompressOutcome : Prop :=
  ∀ s : State, ∃ t, exec .decompress s = .next t ∧ CoreLeavesAlone s t ∧ SameAnalysis s t ∧
    SameWorking s t true false false true ∧
    if s.params.capIn.toNat < s.inLen.toNat then CompletedWith .capacityExceeded 0#32 t ∧ t.hdr = s.hdr
    else if s.input.take 3 ≠ [0x50#8, 0x58#8, 0x4C#8] then CompletedWith .invalidFormat 0#32 t ∧ t.hdr = s.hdr
    else if s.inLen.toNat < 7 then CompletedWith .invalidFormat 1#32 t ∧ t.hdr = s.hdr
    else t.hdr = fileFields s ∧
      ∃ ys e, Codec.expand t.hdr.marker 7 (s.input.drop 7) = (ys, e) ∧
        if s.params.capWork.toNat < ys.length then CompletedWith .capacityExceeded 0#32 t
        else match e with
          | some p => CompletedWith .corruptedStream (BitVec.ofNat 32 p) t
          | none =>
            if s.params.capOut.toNat < (Codec.restored t.hdr.sub t.hdr.orig1 t.hdr.orig2 ys).length then
              CompletedWith .capacityExceeded 0#32 t
            else CompletedOk t ∧ t.workBytes = ys ∧
              t.output = Codec.restored t.hdr.sub t.hdr.orig1 t.hdr.orig2 ys ∧
              SameBytesFrom .work t.workLen.toNat s t ∧ SameBytesFrom .out t.outLen.toNat s t

/-- 45 R240, R245: DECOMPRESS of any file with the magic, whatever its header fields, completes normally if its payload has no
truncated triplet and the results fit, and gives the reversal of the expanded payload. -/
def Obligations.DecompressResult : Prop :=
  ∀ (s : State) (ys : List Byte), s.inLen.toNat ≤ s.params.capIn.toNat → 7 ≤ s.inLen.toNat →
    s.input.take 3 = [0x50#8, 0x58#8, 0x4C#8] →
    Codec.expand (fileFields s).marker 7 (s.input.drop 7) = (ys, none) → ys.length ≤ s.params.capWork.toNat →
    (Codec.restored (fileFields s).sub (fileFields s).orig1 (fileFields s).orig2 ys).length ≤ s.params.capOut.toNat →
    ∃ t, exec .decompress s = .next t ∧ CompletedOk t ∧ t.hdr = fileFields s ∧ t.workBytes = ys ∧
      t.output = Codec.restored (fileFields s).sub (fileFields s).orig1 (fileFields s).orig2 ys

/-- 45 R244: DECOMPRESS of the header-only file completes normally with an empty output and no error. -/
def Obligations.DecompressEmptyFile : Prop :=
  ∀ s : State, s.inLen.toNat ≤ s.params.capIn.toNat →
    s.input = [0x50#8, 0x58#8, 0x4C#8, 0x00#8, 0x00#8, 0x00#8, 0xFF#8] →
    ∃ t, exec .decompress s = .next t ∧ CompletedOk t ∧ t.outLen = 0#32 ∧ t.workLen = 0#32 ∧
      t.hdr = { sub := 0x00#8, orig1 := 0x00#8, orig2 := 0x00#8, marker := 0xFF#8 }

/-- 45 R246, 30 R107: DECOMPRESS leaves the same state as PARSE, RLEDEC and UNSUBST one after the other, stopping at the
first error, up to `PHASE`. -/
def Obligations.DecompressIsItsUnits : Prop :=
  ∀ s t : State, issueUnits [.parse, .rledec, .unsubst] s = .next t →
    ∃ p, exec .decompress s = .next { t with phase := p }

/-- 43 R200, 45 R240: taken one record or form at a time, a started PARSE, RLEDEC or DECOMPRESS reaches the same state as
taken whole (log 12). -/
def Obligations.FormByFormAgrees : Prop :=
  ∀ (s : State) (w : Word) (i : Instr), i ∈ [Instr.parse, .rledec, .decompress] → s.activity = .started w →
    decode .cmd (bytesOfWord w) = .ok (i, []) → s.schedule = [] →
    ∃ n t, exec i s = .next t ∧
      Host.Core.run core n { s with schedule := List.replicate n (Move.core .form) } = .next t

/-- 45 R243: for every input that COMPRESS has room for, and any instance with room to decompress, DECOMPRESS of the file
COMPRESS wrote gives the input back; under every tie rule. -/
def Obligations.RoundTrip : Prop :=
  ∀ s : State, s.params.Roomy → s.inLen.toNat ≤ s.params.capIn.toNat →
    ∃ t, exec .compress s = .next t ∧ CompletedOk t ∧ t.outLen.toNat ≤ 2 * s.inLen.toNat + 8 ∧
      ∀ u : State, u.input = t.output → t.outLen.toNat ≤ u.params.capIn.toNat →
        s.inLen.toNat ≤ u.params.capWork.toNat → s.inLen.toNat ≤ u.params.capOut.toNat →
        ∃ v, exec .decompress u = .next v ∧ CompletedOk v ∧ v.output = s.input

/-! ## The whole machine -/

/-- The invariant of Safety.lean (10 R23, R25, R26, R31, R32, R40 to R42, R45; 60 R250, R258) holds after reset. -/
def Obligations.ResetInvariant : Prop := Inv State.reset

/-- Every step, of the core or of the host, keeps the invariant, from every state that has it (10 R23, R25, R26, R31, R32,
R40 to R42, R45; 60 R250, R258). -/
def Obligations.StepKeepsInvariant : Prop :=
  ∀ s t : State, Inv s → step s = .next t → Inv t

/-- 10 R40, 20 R73, 00 R8: the core never writes IN or `IN_LEN`, whatever it executes, and no step of any agent changes the
instance's parameters (log 1). -/
def Obligations.CoreNeverWritesInput : Prop :=
  ∀ s t : State, step s = .next t → t.params = s.params ∧
    ((s.schedule = [] ∨ ∃ g rest, s.schedule = .core g :: rest) →
      t.inLen = s.inLen ∧ ∀ i, t.byteAt .inp i = s.byteAt .inp i)

/-- 10 R29 to R31, R42, R43: `PAIR`, `BEST_COUNT`, PAIR_VALID, `HIST` and `USED` change only where the core moves and runs
ANALYZE or COMPRESS, or at reset; no other move of the host changes them, whatever command is started (log 8). -/
def Obligations.AnalysisWriters : Prop :=
  ∀ s t : State, step s = .next t → SameAnalysis s t ∨ (∃ rest, s.schedule = .host .reset :: rest) ∨
    (s.schedule = [] ∨ ∃ g rest, s.schedule = .core g :: rest) ∧
      ∃ w i, s.activity = .started w ∧ decode .cmd (bytesOfWord w) = .ok (i, []) ∧ (i = .analyze ∨ i = .compress)

/-- 00 R15, 70 R290, 60 R269: left to the core, every command in progress completes, with BUSY 0 and DONE 1, and an idle core
holds its state. -/
def Obligations.CommandsComplete : Prop :=
  ∀ s : State, s.schedule = [] →
    (s.activity = .idle → step s = .next s) ∧
    (s.activity ≠ .idle →
      ∃ n t, Host.Core.run core n s = .next t ∧ t.activity = .idle ∧ t.status.busy = false ∧ t.status.done = true)

/-- 00 R15: no instruction ends in a fault or a refusal of the model, in any state. -/
def Obligations.EveryInstructionRuns : Prop :=
  ∀ (i : Instr) (s : State), ∃ t, exec i s = .next t
end

