-- ==== Sys2Proof/Laws/Memory.lean ====
section
/-!
SUPPORT. The laws of cells, buffers and the analyzer's tables: a read after a write, and that every operation keeps the
canonical form.
-/

namespace Sys2Proof.Machine

/-! ## Cells -/

section
variable {α : Type}

@[simp] theorem cellRead_write_same (l : Cells α) (i : Nat) (v : α) : cellRead (cellWrite l i v) i = some v := by
  induction l with
  | nil => simp [cellWrite, cellRead]
  | cons c rest ih =>
    obtain ⟨j, u⟩ := c
    simp only [cellWrite]
    split
    · simp [cellRead]
    · split
      · simp [cellRead]
      · rename_i h h'
        simp [cellRead, Ne.symm h', ih]

theorem cellRead_write_ne (l : Cells α) {i k : Nat} (v : α) (h : k ≠ i) :
    cellRead (cellWrite l i v) k = cellRead l k := by
  induction l with
  | nil => simp [cellWrite, cellRead, Ne.symm h]
  | cons c rest ih =>
    obtain ⟨j, u⟩ := c
    simp only [cellWrite]
    split
    · simp [cellRead, Ne.symm h]
    · split
      · rename_i _ h'
        subst h'
        simp [cellRead, Ne.symm h]
      · simp [cellRead, ih]

/-- A read after a write, in one line. -/
theorem cellRead_write (l : Cells α) (i k : Nat) (v : α) :
    cellRead (cellWrite l i v) k = if k = i then some v else cellRead l k := by
  split
  · rename_i h; subst h; exact cellRead_write_same l k v
  · rename_i h; exact cellRead_write_ne l v h

theorem mem_cellWrite {l : Cells α} {i : Nat} {v : α} {c : Nat × α} (h : c ∈ cellWrite l i v) : c = (i, v) ∨ c ∈ l := by
  induction l with
  | nil => simpa [cellWrite] using h
  | cons d rest ih =>
    obtain ⟨j, u⟩ := d
    simp only [cellWrite] at h
    split at h
    · simpa using h
    · split at h
      · rcases List.mem_cons.1 h with h | h
        · exact .inl h
        · exact .inr (List.mem_cons_of_mem _ h)
      · rcases List.mem_cons.1 h with h | h
        · exact .inr (by simp [h])
        · rcases ih h with h | h
          · exact .inl h
          · exact .inr (List.mem_cons_of_mem _ h)

theorem rising_cellWrite {l : Cells α} (h : Rising l) (i : Nat) (v : α) : Rising (cellWrite l i v) := by
  induction l with
  | nil => simp [cellWrite]
  | cons d rest ih =>
    obtain ⟨j, u⟩ := d
    obtain ⟨hj, hr⟩ := List.pairwise_cons.1 h
    simp only [cellWrite]
    split
    · rename_i hij
      refine List.pairwise_cons.2 ⟨fun c hc => ?_, h⟩
      rcases List.mem_cons.1 hc with rfl | hc
      · exact hij
      · exact lt_trans hij (hj c hc)
    · split
      · rename_i _ hij
        subst hij
        exact List.pairwise_cons.2 ⟨hj, hr⟩
      · rename_i h1 h2
        refine List.pairwise_cons.2 ⟨fun c hc => ?_, ih hr⟩
        rcases mem_cellWrite hc with rfl | hc
        · simp only; omega
        · exact hj c hc

theorem mem_cellErase {l : Cells α} {i : Nat} {c : Nat × α} (h : c ∈ cellErase l i) : c ∈ l := by
  induction l with
  | nil => simp [cellErase] at h
  | cons d rest ih =>
    obtain ⟨j, u⟩ := d
    simp only [cellErase] at h
    split at h
    · exact List.mem_cons_of_mem _ h
    · rcases List.mem_cons.1 h with h | h
      · simp [h]
      · exact List.mem_cons_of_mem _ (ih h)

theorem rising_cellErase {l : Cells α} (h : Rising l) (i : Nat) : Rising (cellErase l i) := by
  induction l with
  | nil => simp [cellErase]
  | cons d rest ih =>
    obtain ⟨j, u⟩ := d
    obtain ⟨hj, hr⟩ := List.pairwise_cons.1 h
    simp only [cellErase]
    split
    · exact hr
    · exact List.pairwise_cons.2 ⟨fun c hc => hj c (mem_cellErase hc), ih hr⟩

theorem cellRead_of_lt {l : Cells α} {i : Nat} (h : ∀ c ∈ l, i < c.1) : cellRead l i = none := by
  induction l with
  | nil => rfl
  | cons d rest ih =>
    obtain ⟨j, u⟩ := d
    have hj : i < j := h (j, u) (by simp)
    simp [cellRead, Nat.ne_of_gt hj, ih fun c hc => h c (by simp [hc])]

theorem cellRead_erase {l : Cells α} (h : Rising l) (i k : Nat) :
    cellRead (cellErase l i) k = if k = i then none else cellRead l k := by
  induction l with
  | nil => simp [cellErase, cellRead]
  | cons d rest ih =>
    obtain ⟨j, u⟩ := d
    obtain ⟨hj, hr⟩ := List.pairwise_cons.1 h
    simp only [cellErase]
    split
    · rename_i hji
      subst hji
      split
      · rename_i hk; subst hk
        exact cellRead_of_lt hj
      · rename_i hk
        simp [cellRead, Ne.symm hk]
    · rename_i hji
      simp only [cellRead]
      rw [ih hr]
      by_cases hk : k = i
      · subst hk; simp [hji]
      · simp [hk]

/-- In canonical form a listed cell is what its index reads as. -/
theorem cellRead_of_mem {l : Cells α} (h : Rising l) {i : Nat} {v : α} (hm : (i, v) ∈ l) : cellRead l i = some v := by
  induction l with
  | nil => simp at hm
  | cons d rest ih =>
    obtain ⟨j, u⟩ := d
    obtain ⟨hj, hr⟩ := List.pairwise_cons.1 h
    rcases List.mem_cons.1 hm with hm | hm
    · obtain ⟨rfl, rfl⟩ := Prod.mk.inj hm
      simp [cellRead]
    · have := hj _ hm
      simp only at this
      simp [cellRead, Nat.ne_of_lt this, ih hr hm]

theorem mem_of_cellRead {l : Cells α} {i : Nat} {v : α} (h : cellRead l i = some v) : (i, v) ∈ l := by
  induction l with
  | nil => simp [cellRead] at h
  | cons d rest ih =>
    obtain ⟨j, u⟩ := d
    simp only [cellRead] at h
    split at h
    · rename_i hji; subst hji; simp at h; simp [h]
    · exact List.mem_cons_of_mem _ (ih h)

end

/-! ## Buffers -/

@[simp] theorem Memory.read_write_same (m : Memory) (i : Nat) (v : Byte) : (m.write i v).read i = some v :=
  cellRead_write_same m i v

/-- The canonical form is unique: cells that read alike are the same list. -/
theorem rising_ext : ∀ {l l' : Cells α}, Rising l → Rising l' → (∀ i, cellRead l i = cellRead l' i) → l = l'
  | [], [], _, _, _ => rfl
  | [], (j, u) :: _, _, _, h => by have := h j; simp [cellRead] at this
  | (j, u) :: _, [], _, _, h => by have := h j; simp [cellRead] at this
  | (j, u) :: l, (k, v) :: l', hl, hl', h => by
    rw [Rising, List.pairwise_cons] at hl hl'
    have hjk : j = k := by
      by_contra hne
      rcases Nat.lt_or_gt_of_ne hne with hlt | hlt
      · have hj := h j
        simp only [cellRead, if_true, if_neg (Ne.symm hne)] at hj
        rw [cellRead_of_lt fun c hc => Nat.lt_trans hlt (hl'.1 c hc)] at hj
        simp at hj
      · have hk := h k
        simp only [cellRead, if_true, if_neg hne] at hk
        rw [cellRead_of_lt fun c hc => Nat.lt_trans hlt (hl.1 c hc)] at hk
        simp at hk
    subst hjk
    have hu : u = v := by simpa [cellRead] using h j
    subst hu
    rw [rising_ext hl.2 hl'.2 fun i => ?_]
    by_cases hi : j = i
    · subst hi
      rw [cellRead_of_lt hl.1, cellRead_of_lt hl'.1]
    · have := h i
      simpa [cellRead, hi] using this

theorem Memory.read_write_ne (m : Memory) {i k : Nat} (v : Byte) (h : k ≠ i) : (m.write i v).read k = m.read k :=
  cellRead_write_ne m v h

theorem Memory.wf_write {m : Memory} (h : m.wf) (i : Nat) (v : Byte) : (m.write i v).wf := rising_cellWrite h i v

theorem Memory.mem_write {m : Memory} {i : Nat} {v : Byte} {c : Host.Cell} (h : c ∈ m.write i v) : c = (i, v) ∨ c ∈ m :=
  mem_cellWrite h

theorem Memory.wf_nil : Memory.wf [] := List.Pairwise.nil

/-- The buffers after reset are in canonical form. -/
theorem reset_memory_wf :
    State.reset.bufIn.wf ∧ State.reset.bufWork.wf ∧ State.reset.bufOut.wf ∧ State.reset.hist.wf :=
  ⟨Memory.wf_nil, Memory.wf_nil, Memory.wf_nil, List.Pairwise.nil, fun h _ _ => by simp [State.reset] at h⟩

/-! ## `HIST` -/

theorem Hist.wf_clear : Hist.clear.wf := ⟨List.Pairwise.nil, fun _ _ h => by simp [Hist.clear] at h⟩

@[simp] theorem Hist.read_clear (e k : Nat) : Hist.clear.read e k = 0#32 := rfl

@[simp] theorem Hist.fill_write (h : Hist) (k : Nat) (v : Word) : (h.write k v).fill = h.fill := by
  unfold Hist.write; split <;> rfl

theorem Hist.wf_write {h : Hist} (hw : h.wf) (k : Nat) (v : Word) : (h.write k v).wf := by
  unfold Hist.write
  split
  · exact ⟨rising_cellErase hw.1 k, fun hf c hc => hw.2 hf c (mem_cellErase hc)⟩
  · rename_i hn
    refine ⟨rising_cellWrite hw.1 k v, fun hf c hc => ?_⟩
    rcases mem_cellWrite hc with rfl | hc
    · exact fun hv => hn ⟨hf, hv⟩
    · exact hw.2 hf c hc

theorem Hist.read_write {h : Hist} (hw : h.wf) (e k j : Nat) (v : Word) :
    (h.write k v).read e j = if j = k then v else h.read e j := by
  unfold Hist.write
  by_cases hj : j = k <;> split
  · rename_i hv
    simp [Hist.read, cellRead_erase hw.1, hj, hv.1, hv.2]
  · simp [Hist.read, hj]
  · simp [Hist.read, cellRead_erase hw.1, hj]
  · simp [Hist.read, cellRead_write, hj]

/-! ## `USED` -/

@[simp] theorem Used.read_clear (e : Nat) (v : Byte) : Used.clear.read e v = false := by
  simp [Used.clear, Used.read]

theorem Used.read_mark (e : Nat) (u : Used) (v w : Byte) : (u.mark w).read e v = (u.read e v || decide (v = w)) := by
  have hv : v.toNat < 256 := v.isLt
  by_cases h : v = w
  · subst h
    simp [Used.mark, Used.read, hv]
  · have hne : w.toNat ≠ v.toNat := fun he => h (BitVec.eq_of_toNat_eq he.symm)
    simp [Used.mark, Used.read, BitVec.getLsbD_twoPow, h, hne]

@[simp] theorem Used.fill_mark (u : Used) (v : Byte) : (u.mark v).fill = u.fill := rfl

/-- Different pairs have different pair indices (00 R12). -/
theorem pairIndex_inj {a b c d : Byte} : pairIndex a b = pairIndex c d ↔ a = c ∧ b = d := by
  constructor
  · intro h
    have hb := b.isLt
    have hd := d.isLt
    simp only [pairIndex] at h
    exact ⟨BitVec.eq_of_toNat_eq (by omega), BitVec.eq_of_toNat_eq (by omega)⟩
  · rintro ⟨rfl, rfl⟩; rfl

theorem pairIndex_lt (a b : Byte) : pairIndex a b < 65536 := by
  have ha := a.isLt
  have hb := b.isLt
  simp only [pairIndex]
  omega

end Sys2Proof.Machine
end

