-- ==== Sys2Proof/Laws/State.lean ====
section
/-!
SUPPORT. What each named update of State does to each field: one lemma per field per update, so that no later proof unfolds
a record update.
-/

namespace Sys2Proof.Machine

section
variable (s : State)

@[simp] theorem State.begin_status : (s.begin).status = { s.status with busy := true, done := false, err := false, errCode := 0#4 } := rfl
@[simp] theorem State.begin_inLen : (s.begin).inLen = s.inLen := rfl
@[simp] theorem State.begin_workLen : (s.begin).workLen = s.workLen := rfl
@[simp] theorem State.begin_outLen : (s.begin).outLen = s.outLen := rfl
@[simp] theorem State.begin_hdr : (s.begin).hdr = s.hdr := rfl
@[simp] theorem State.begin_pair : (s.begin).pair = s.pair := rfl
@[simp] theorem State.begin_bestCount : (s.begin).bestCount = s.bestCount := rfl
@[simp] theorem State.begin_errInfo : (s.begin).errInfo = 0#32 := rfl
@[simp] theorem State.begin_bufIn : (s.begin).bufIn = s.bufIn := rfl
@[simp] theorem State.begin_bufWork : (s.begin).bufWork = s.bufWork := rfl
@[simp] theorem State.begin_bufOut : (s.begin).bufOut = s.bufOut := rfl
@[simp] theorem State.begin_hist : (s.begin).hist = s.hist := rfl
@[simp] theorem State.begin_used : (s.begin).used = s.used := rfl
@[simp] theorem State.begin_rp : (s.begin).rp = s.rp := rfl
@[simp] theorem State.begin_runLen : (s.begin).runLen = s.runLen := rfl
@[simp] theorem State.begin_curV : (s.begin).curV = s.curV := rfl
@[simp] theorem State.begin_prev : (s.begin).prev = s.prev := rfl
@[simp] theorem State.begin_scan : (s.begin).scan = s.scan := rfl
@[simp] theorem State.begin_phase : (s.begin).phase = s.phase := rfl
@[simp] theorem State.begin_params : (s.begin).params = s.params := rfl
@[simp] theorem State.begin_activity : (s.begin).activity = s.activity := rfl
@[simp] theorem State.begin_schedule : (s.begin).schedule = s.schedule := rfl
@[simp] theorem State.begin_readData : (s.begin).readData = s.readData := rfl
@[simp] theorem State.begin_freeCount : (s.begin).freeCount = s.freeCount := rfl
@[simp] theorem State.begin_epoch : (s.begin).epoch = s.epoch := rfl

end

section
variable (s : State) (w : Word)

@[simp] theorem State.ring_status : (s.ring w).status = { s.status with busy := true, done := false, err := false, errCode := 0#4 } := rfl
@[simp] theorem State.ring_inLen : (s.ring w).inLen = s.inLen := rfl
@[simp] theorem State.ring_workLen : (s.ring w).workLen = s.workLen := rfl
@[simp] theorem State.ring_outLen : (s.ring w).outLen = s.outLen := rfl
@[simp] theorem State.ring_hdr : (s.ring w).hdr = s.hdr := rfl
@[simp] theorem State.ring_pair : (s.ring w).pair = s.pair := rfl
@[simp] theorem State.ring_bestCount : (s.ring w).bestCount = s.bestCount := rfl
@[simp] theorem State.ring_errInfo : (s.ring w).errInfo = 0#32 := rfl
@[simp] theorem State.ring_bufIn : (s.ring w).bufIn = s.bufIn := rfl
@[simp] theorem State.ring_bufWork : (s.ring w).bufWork = s.bufWork := rfl
@[simp] theorem State.ring_bufOut : (s.ring w).bufOut = s.bufOut := rfl
@[simp] theorem State.ring_hist : (s.ring w).hist = s.hist := rfl
@[simp] theorem State.ring_used : (s.ring w).used = s.used := rfl
@[simp] theorem State.ring_rp : (s.ring w).rp = s.rp := rfl
@[simp] theorem State.ring_runLen : (s.ring w).runLen = s.runLen := rfl
@[simp] theorem State.ring_curV : (s.ring w).curV = s.curV := rfl
@[simp] theorem State.ring_prev : (s.ring w).prev = s.prev := rfl
@[simp] theorem State.ring_scan : (s.ring w).scan = s.scan := rfl
@[simp] theorem State.ring_phase : (s.ring w).phase = s.phase := rfl
@[simp] theorem State.ring_params : (s.ring w).params = s.params := rfl
@[simp] theorem State.ring_activity : (s.ring w).activity = .started w := rfl
@[simp] theorem State.ring_schedule : (s.ring w).schedule = s.schedule := rfl
@[simp] theorem State.ring_readData : (s.ring w).readData = s.readData := rfl
@[simp] theorem State.ring_freeCount : (s.ring w).freeCount = s.freeCount := rfl
@[simp] theorem State.ring_epoch : (s.ring w).epoch = s.epoch := rfl

end

section
variable (s : State)

@[simp] theorem State.complete_status : (s.complete).status = { s.status with busy := false, done := true } := rfl
@[simp] theorem State.complete_inLen : (s.complete).inLen = s.inLen := rfl
@[simp] theorem State.complete_workLen : (s.complete).workLen = s.workLen := rfl
@[simp] theorem State.complete_outLen : (s.complete).outLen = s.outLen := rfl
@[simp] theorem State.complete_hdr : (s.complete).hdr = s.hdr := rfl
@[simp] theorem State.complete_pair : (s.complete).pair = s.pair := rfl
@[simp] theorem State.complete_bestCount : (s.complete).bestCount = s.bestCount := rfl
@[simp] theorem State.complete_errInfo : (s.complete).errInfo = s.errInfo := rfl
@[simp] theorem State.complete_bufIn : (s.complete).bufIn = s.bufIn := rfl
@[simp] theorem State.complete_bufWork : (s.complete).bufWork = s.bufWork := rfl
@[simp] theorem State.complete_bufOut : (s.complete).bufOut = s.bufOut := rfl
@[simp] theorem State.complete_hist : (s.complete).hist = s.hist := rfl
@[simp] theorem State.complete_used : (s.complete).used = s.used := rfl
@[simp] theorem State.complete_rp : (s.complete).rp = s.rp := rfl
@[simp] theorem State.complete_runLen : (s.complete).runLen = s.runLen := rfl
@[simp] theorem State.complete_curV : (s.complete).curV = s.curV := rfl
@[simp] theorem State.complete_prev : (s.complete).prev = s.prev := rfl
@[simp] theorem State.complete_scan : (s.complete).scan = s.scan := rfl
@[simp] theorem State.complete_phase : (s.complete).phase = s.phase := rfl
@[simp] theorem State.complete_params : (s.complete).params = s.params := rfl
@[simp] theorem State.complete_activity : (s.complete).activity = .idle := rfl
@[simp] theorem State.complete_schedule : (s.complete).schedule = s.schedule := rfl
@[simp] theorem State.complete_readData : (s.complete).readData = s.readData := rfl
@[simp] theorem State.complete_freeCount : (s.complete).freeCount = s.freeCount := rfl
@[simp] theorem State.complete_epoch : (s.complete).epoch = s.epoch := rfl

end

section
variable (s : State) (e : ErrorKind) (info : Word)

@[simp] theorem State.errorComplete_status : (s.errorComplete e info).status = { s.status with errCode := e.code, err := true, busy := false, done := true } := rfl
@[simp] theorem State.errorComplete_inLen : (s.errorComplete e info).inLen = s.inLen := rfl
@[simp] theorem State.errorComplete_workLen : (s.errorComplete e info).workLen = 0#32 := rfl
@[simp] theorem State.errorComplete_outLen : (s.errorComplete e info).outLen = 0#32 := rfl
@[simp] theorem State.errorComplete_hdr : (s.errorComplete e info).hdr = s.hdr := rfl
@[simp] theorem State.errorComplete_pair : (s.errorComplete e info).pair = s.pair := rfl
@[simp] theorem State.errorComplete_bestCount : (s.errorComplete e info).bestCount = s.bestCount := rfl
@[simp] theorem State.errorComplete_errInfo : (s.errorComplete e info).errInfo = info := rfl
@[simp] theorem State.errorComplete_bufIn : (s.errorComplete e info).bufIn = s.bufIn := rfl
@[simp] theorem State.errorComplete_bufWork : (s.errorComplete e info).bufWork = s.bufWork := rfl
@[simp] theorem State.errorComplete_bufOut : (s.errorComplete e info).bufOut = s.bufOut := rfl
@[simp] theorem State.errorComplete_hist : (s.errorComplete e info).hist = s.hist := rfl
@[simp] theorem State.errorComplete_used : (s.errorComplete e info).used = s.used := rfl
@[simp] theorem State.errorComplete_rp : (s.errorComplete e info).rp = s.rp := rfl
@[simp] theorem State.errorComplete_runLen : (s.errorComplete e info).runLen = s.runLen := rfl
@[simp] theorem State.errorComplete_curV : (s.errorComplete e info).curV = s.curV := rfl
@[simp] theorem State.errorComplete_prev : (s.errorComplete e info).prev = s.prev := rfl
@[simp] theorem State.errorComplete_scan : (s.errorComplete e info).scan = s.scan := rfl
@[simp] theorem State.errorComplete_phase : (s.errorComplete e info).phase = s.phase := rfl
@[simp] theorem State.errorComplete_params : (s.errorComplete e info).params = s.params := rfl
@[simp] theorem State.errorComplete_activity : (s.errorComplete e info).activity = .idle := rfl
@[simp] theorem State.errorComplete_schedule : (s.errorComplete e info).schedule = s.schedule := rfl
@[simp] theorem State.errorComplete_readData : (s.errorComplete e info).readData = s.readData := rfl
@[simp] theorem State.errorComplete_freeCount : (s.errorComplete e info).freeCount = s.freeCount := rfl
@[simp] theorem State.errorComplete_epoch : (s.errorComplete e info).epoch = s.epoch := rfl

end

section
variable (s : State) (n : Nat)

@[simp] theorem State.advance_status : (s.advance n).status = s.status := rfl
@[simp] theorem State.advance_inLen : (s.advance n).inLen = s.inLen := rfl
@[simp] theorem State.advance_workLen : (s.advance n).workLen = s.workLen := rfl
@[simp] theorem State.advance_outLen : (s.advance n).outLen = s.outLen := rfl
@[simp] theorem State.advance_hdr : (s.advance n).hdr = s.hdr := rfl
@[simp] theorem State.advance_pair : (s.advance n).pair = s.pair := rfl
@[simp] theorem State.advance_bestCount : (s.advance n).bestCount = s.bestCount := rfl
@[simp] theorem State.advance_errInfo : (s.advance n).errInfo = s.errInfo := rfl
@[simp] theorem State.advance_bufIn : (s.advance n).bufIn = s.bufIn := rfl
@[simp] theorem State.advance_bufWork : (s.advance n).bufWork = s.bufWork := rfl
@[simp] theorem State.advance_bufOut : (s.advance n).bufOut = s.bufOut := rfl
@[simp] theorem State.advance_hist : (s.advance n).hist = s.hist := rfl
@[simp] theorem State.advance_used : (s.advance n).used = s.used := rfl
@[simp] theorem State.advance_rp : (s.advance n).rp = s.rp + BitVec.ofNat 32 n := rfl
@[simp] theorem State.advance_runLen : (s.advance n).runLen = s.runLen := rfl
@[simp] theorem State.advance_curV : (s.advance n).curV = s.curV := rfl
@[simp] theorem State.advance_prev : (s.advance n).prev = s.prev := rfl
@[simp] theorem State.advance_scan : (s.advance n).scan = s.scan := rfl
@[simp] theorem State.advance_phase : (s.advance n).phase = s.phase := rfl
@[simp] theorem State.advance_params : (s.advance n).params = s.params := rfl
@[simp] theorem State.advance_activity : (s.advance n).activity = s.activity := rfl
@[simp] theorem State.advance_schedule : (s.advance n).schedule = s.schedule := rfl
@[simp] theorem State.advance_readData : (s.advance n).readData = s.readData := rfl
@[simp] theorem State.advance_freeCount : (s.advance n).freeCount = s.freeCount := rfl
@[simp] theorem State.advance_epoch : (s.advance n).epoch = s.epoch := rfl

end

section
variable (s : State) (n : Nat)

@[simp] theorem State.seek_status : (s.seek n).status = s.status := rfl
@[simp] theorem State.seek_inLen : (s.seek n).inLen = s.inLen := rfl
@[simp] theorem State.seek_workLen : (s.seek n).workLen = s.workLen := rfl
@[simp] theorem State.seek_outLen : (s.seek n).outLen = s.outLen := rfl
@[simp] theorem State.seek_hdr : (s.seek n).hdr = s.hdr := rfl
@[simp] theorem State.seek_pair : (s.seek n).pair = s.pair := rfl
@[simp] theorem State.seek_bestCount : (s.seek n).bestCount = s.bestCount := rfl
@[simp] theorem State.seek_errInfo : (s.seek n).errInfo = s.errInfo := rfl
@[simp] theorem State.seek_bufIn : (s.seek n).bufIn = s.bufIn := rfl
@[simp] theorem State.seek_bufWork : (s.seek n).bufWork = s.bufWork := rfl
@[simp] theorem State.seek_bufOut : (s.seek n).bufOut = s.bufOut := rfl
@[simp] theorem State.seek_hist : (s.seek n).hist = s.hist := rfl
@[simp] theorem State.seek_used : (s.seek n).used = s.used := rfl
@[simp] theorem State.seek_rp : (s.seek n).rp = BitVec.ofNat 32 n := rfl
@[simp] theorem State.seek_runLen : (s.seek n).runLen = s.runLen := rfl
@[simp] theorem State.seek_curV : (s.seek n).curV = s.curV := rfl
@[simp] theorem State.seek_prev : (s.seek n).prev = s.prev := rfl
@[simp] theorem State.seek_scan : (s.seek n).scan = s.scan := rfl
@[simp] theorem State.seek_phase : (s.seek n).phase = s.phase := rfl
@[simp] theorem State.seek_params : (s.seek n).params = s.params := rfl
@[simp] theorem State.seek_activity : (s.seek n).activity = s.activity := rfl
@[simp] theorem State.seek_schedule : (s.seek n).schedule = s.schedule := rfl
@[simp] theorem State.seek_readData : (s.seek n).readData = s.readData := rfl
@[simp] theorem State.seek_freeCount : (s.seek n).freeCount = s.freeCount := rfl
@[simp] theorem State.seek_epoch : (s.seek n).epoch = s.epoch := rfl

end

section
variable (s : State) (h : Hdr)

@[simp] theorem loadHeader_status : (loadHeader h s).status = s.status := rfl
@[simp] theorem loadHeader_inLen : (loadHeader h s).inLen = s.inLen := rfl
@[simp] theorem loadHeader_workLen : (loadHeader h s).workLen = s.workLen := rfl
@[simp] theorem loadHeader_outLen : (loadHeader h s).outLen = s.outLen := rfl
@[simp] theorem loadHeader_hdr : (loadHeader h s).hdr = h := rfl
@[simp] theorem loadHeader_pair : (loadHeader h s).pair = s.pair := rfl
@[simp] theorem loadHeader_bestCount : (loadHeader h s).bestCount = s.bestCount := rfl
@[simp] theorem loadHeader_errInfo : (loadHeader h s).errInfo = s.errInfo := rfl
@[simp] theorem loadHeader_bufIn : (loadHeader h s).bufIn = s.bufIn := rfl
@[simp] theorem loadHeader_bufWork : (loadHeader h s).bufWork = s.bufWork := rfl
@[simp] theorem loadHeader_bufOut : (loadHeader h s).bufOut = s.bufOut := rfl
@[simp] theorem loadHeader_hist : (loadHeader h s).hist = s.hist := rfl
@[simp] theorem loadHeader_used : (loadHeader h s).used = s.used := rfl
@[simp] theorem loadHeader_rp : (loadHeader h s).rp = s.rp := rfl
@[simp] theorem loadHeader_runLen : (loadHeader h s).runLen = s.runLen := rfl
@[simp] theorem loadHeader_curV : (loadHeader h s).curV = s.curV := rfl
@[simp] theorem loadHeader_prev : (loadHeader h s).prev = s.prev := rfl
@[simp] theorem loadHeader_scan : (loadHeader h s).scan = s.scan := rfl
@[simp] theorem loadHeader_phase : (loadHeader h s).phase = s.phase := rfl
@[simp] theorem loadHeader_params : (loadHeader h s).params = s.params := rfl
@[simp] theorem loadHeader_activity : (loadHeader h s).activity = s.activity := rfl
@[simp] theorem loadHeader_schedule : (loadHeader h s).schedule = s.schedule := rfl
@[simp] theorem loadHeader_readData : (loadHeader h s).readData = s.readData := rfl
@[simp] theorem loadHeader_freeCount : (loadHeader h s).freeCount = s.freeCount := rfl
@[simp] theorem loadHeader_epoch : (loadHeader h s).epoch = s.epoch := rfl

end

section
variable (s : State)

@[simp] theorem setPairValid_status : (setPairValid s).status = { s.status with pairValid := pairValidOf s.bestCount } := rfl
@[simp] theorem setPairValid_inLen : (setPairValid s).inLen = s.inLen := rfl
@[simp] theorem setPairValid_workLen : (setPairValid s).workLen = s.workLen := rfl
@[simp] theorem setPairValid_outLen : (setPairValid s).outLen = s.outLen := rfl
@[simp] theorem setPairValid_hdr : (setPairValid s).hdr = s.hdr := rfl
@[simp] theorem setPairValid_pair : (setPairValid s).pair = s.pair := rfl
@[simp] theorem setPairValid_bestCount : (setPairValid s).bestCount = s.bestCount := rfl
@[simp] theorem setPairValid_errInfo : (setPairValid s).errInfo = s.errInfo := rfl
@[simp] theorem setPairValid_bufIn : (setPairValid s).bufIn = s.bufIn := rfl
@[simp] theorem setPairValid_bufWork : (setPairValid s).bufWork = s.bufWork := rfl
@[simp] theorem setPairValid_bufOut : (setPairValid s).bufOut = s.bufOut := rfl
@[simp] theorem setPairValid_hist : (setPairValid s).hist = s.hist := rfl
@[simp] theorem setPairValid_used : (setPairValid s).used = s.used := rfl
@[simp] theorem setPairValid_rp : (setPairValid s).rp = s.rp := rfl
@[simp] theorem setPairValid_runLen : (setPairValid s).runLen = s.runLen := rfl
@[simp] theorem setPairValid_curV : (setPairValid s).curV = s.curV := rfl
@[simp] theorem setPairValid_prev : (setPairValid s).prev = s.prev := rfl
@[simp] theorem setPairValid_scan : (setPairValid s).scan = s.scan := rfl
@[simp] theorem setPairValid_phase : (setPairValid s).phase = s.phase := rfl
@[simp] theorem setPairValid_params : (setPairValid s).params = s.params := rfl
@[simp] theorem setPairValid_activity : (setPairValid s).activity = s.activity := rfl
@[simp] theorem setPairValid_schedule : (setPairValid s).schedule = s.schedule := rfl
@[simp] theorem setPairValid_readData : (setPairValid s).readData = s.readData := rfl
@[simp] theorem setPairValid_freeCount : (setPairValid s).freeCount = s.freeCount := rfl
@[simp] theorem setPairValid_epoch : (setPairValid s).epoch = s.epoch := rfl

end

section
variable (s : State) (w : Word)

@[simp] theorem deliver_status : (deliver w s).status = s.status := rfl
@[simp] theorem deliver_inLen : (deliver w s).inLen = s.inLen := rfl
@[simp] theorem deliver_workLen : (deliver w s).workLen = s.workLen := rfl
@[simp] theorem deliver_outLen : (deliver w s).outLen = s.outLen := rfl
@[simp] theorem deliver_hdr : (deliver w s).hdr = s.hdr := rfl
@[simp] theorem deliver_pair : (deliver w s).pair = s.pair := rfl
@[simp] theorem deliver_bestCount : (deliver w s).bestCount = s.bestCount := rfl
@[simp] theorem deliver_errInfo : (deliver w s).errInfo = s.errInfo := rfl
@[simp] theorem deliver_bufIn : (deliver w s).bufIn = s.bufIn := rfl
@[simp] theorem deliver_bufWork : (deliver w s).bufWork = s.bufWork := rfl
@[simp] theorem deliver_bufOut : (deliver w s).bufOut = s.bufOut := rfl
@[simp] theorem deliver_hist : (deliver w s).hist = s.hist := rfl
@[simp] theorem deliver_used : (deliver w s).used = s.used := rfl
@[simp] theorem deliver_rp : (deliver w s).rp = s.rp := rfl
@[simp] theorem deliver_runLen : (deliver w s).runLen = s.runLen := rfl
@[simp] theorem deliver_curV : (deliver w s).curV = s.curV := rfl
@[simp] theorem deliver_prev : (deliver w s).prev = s.prev := rfl
@[simp] theorem deliver_scan : (deliver w s).scan = s.scan := rfl
@[simp] theorem deliver_phase : (deliver w s).phase = s.phase := rfl
@[simp] theorem deliver_params : (deliver w s).params = s.params := rfl
@[simp] theorem deliver_activity : (deliver w s).activity = s.activity := rfl
@[simp] theorem deliver_schedule : (deliver w s).schedule = s.schedule := rfl
@[simp] theorem deliver_readData : (deliver w s).readData = w := rfl
@[simp] theorem deliver_freeCount : (deliver w s).freeCount = s.freeCount := rfl
@[simp] theorem deliver_epoch : (deliver w s).epoch = s.epoch := rfl

end

section
variable (s : State)

@[simp] theorem deliverFree_status : (deliverFree s).status = s.status := rfl
@[simp] theorem deliverFree_inLen : (deliverFree s).inLen = s.inLen := rfl
@[simp] theorem deliverFree_workLen : (deliverFree s).workLen = s.workLen := rfl
@[simp] theorem deliverFree_outLen : (deliverFree s).outLen = s.outLen := rfl
@[simp] theorem deliverFree_hdr : (deliverFree s).hdr = s.hdr := rfl
@[simp] theorem deliverFree_pair : (deliverFree s).pair = s.pair := rfl
@[simp] theorem deliverFree_bestCount : (deliverFree s).bestCount = s.bestCount := rfl
@[simp] theorem deliverFree_errInfo : (deliverFree s).errInfo = s.errInfo := rfl
@[simp] theorem deliverFree_bufIn : (deliverFree s).bufIn = s.bufIn := rfl
@[simp] theorem deliverFree_bufWork : (deliverFree s).bufWork = s.bufWork := rfl
@[simp] theorem deliverFree_bufOut : (deliverFree s).bufOut = s.bufOut := rfl
@[simp] theorem deliverFree_hist : (deliverFree s).hist = s.hist := rfl
@[simp] theorem deliverFree_used : (deliverFree s).used = s.used := rfl
@[simp] theorem deliverFree_rp : (deliverFree s).rp = s.rp := rfl
@[simp] theorem deliverFree_runLen : (deliverFree s).runLen = s.runLen := rfl
@[simp] theorem deliverFree_curV : (deliverFree s).curV = s.curV := rfl
@[simp] theorem deliverFree_prev : (deliverFree s).prev = s.prev := rfl
@[simp] theorem deliverFree_scan : (deliverFree s).scan = s.scan := rfl
@[simp] theorem deliverFree_phase : (deliverFree s).phase = s.phase := rfl
@[simp] theorem deliverFree_params : (deliverFree s).params = s.params := rfl
@[simp] theorem deliverFree_activity : (deliverFree s).activity = s.activity := rfl
@[simp] theorem deliverFree_schedule : (deliverFree s).schedule = s.schedule := rfl
@[simp] theorem deliverFree_readData : (deliverFree s).readData = Config.freeWord s.freeCount := rfl
@[simp] theorem deliverFree_freeCount : (deliverFree s).freeCount = s.freeCount + 1 := rfl
@[simp] theorem deliverFree_epoch : (deliverFree s).epoch = s.epoch := rfl

end

section
variable (s : State)

@[simp] theorem deliverFreeByte_status : (deliverFreeByte s).status = s.status := rfl
@[simp] theorem deliverFreeByte_inLen : (deliverFreeByte s).inLen = s.inLen := rfl
@[simp] theorem deliverFreeByte_workLen : (deliverFreeByte s).workLen = s.workLen := rfl
@[simp] theorem deliverFreeByte_outLen : (deliverFreeByte s).outLen = s.outLen := rfl
@[simp] theorem deliverFreeByte_hdr : (deliverFreeByte s).hdr = s.hdr := rfl
@[simp] theorem deliverFreeByte_pair : (deliverFreeByte s).pair = s.pair := rfl
@[simp] theorem deliverFreeByte_bestCount : (deliverFreeByte s).bestCount = s.bestCount := rfl
@[simp] theorem deliverFreeByte_errInfo : (deliverFreeByte s).errInfo = s.errInfo := rfl
@[simp] theorem deliverFreeByte_bufIn : (deliverFreeByte s).bufIn = s.bufIn := rfl
@[simp] theorem deliverFreeByte_bufWork : (deliverFreeByte s).bufWork = s.bufWork := rfl
@[simp] theorem deliverFreeByte_bufOut : (deliverFreeByte s).bufOut = s.bufOut := rfl
@[simp] theorem deliverFreeByte_hist : (deliverFreeByte s).hist = s.hist := rfl
@[simp] theorem deliverFreeByte_used : (deliverFreeByte s).used = s.used := rfl
@[simp] theorem deliverFreeByte_rp : (deliverFreeByte s).rp = s.rp := rfl
@[simp] theorem deliverFreeByte_runLen : (deliverFreeByte s).runLen = s.runLen := rfl
@[simp] theorem deliverFreeByte_curV : (deliverFreeByte s).curV = s.curV := rfl
@[simp] theorem deliverFreeByte_prev : (deliverFreeByte s).prev = s.prev := rfl
@[simp] theorem deliverFreeByte_scan : (deliverFreeByte s).scan = s.scan := rfl
@[simp] theorem deliverFreeByte_phase : (deliverFreeByte s).phase = s.phase := rfl
@[simp] theorem deliverFreeByte_params : (deliverFreeByte s).params = s.params := rfl
@[simp] theorem deliverFreeByte_activity : (deliverFreeByte s).activity = s.activity := rfl
@[simp] theorem deliverFreeByte_schedule : (deliverFreeByte s).schedule = s.schedule := rfl
@[simp] theorem deliverFreeByte_readData : (deliverFreeByte s).readData = ((Config.freeWord s.freeCount).setWidth 8).setWidth 32 := rfl
@[simp] theorem deliverFreeByte_freeCount : (deliverFreeByte s).freeCount = s.freeCount + 1 := rfl
@[simp] theorem deliverFreeByte_epoch : (deliverFreeByte s).epoch = s.epoch := rfl

end

section
variable (s : State) (sp : Space) (m : Memory)

@[simp] theorem State.setBuf_status : (s.setBuf sp m).status = s.status := by cases sp <;> rfl
@[simp] theorem State.setBuf_inLen : (s.setBuf sp m).inLen = s.inLen := by cases sp <;> rfl
@[simp] theorem State.setBuf_workLen : (s.setBuf sp m).workLen = s.workLen := by cases sp <;> rfl
@[simp] theorem State.setBuf_outLen : (s.setBuf sp m).outLen = s.outLen := by cases sp <;> rfl
@[simp] theorem State.setBuf_hdr : (s.setBuf sp m).hdr = s.hdr := by cases sp <;> rfl
@[simp] theorem State.setBuf_pair : (s.setBuf sp m).pair = s.pair := by cases sp <;> rfl
@[simp] theorem State.setBuf_bestCount : (s.setBuf sp m).bestCount = s.bestCount := by cases sp <;> rfl
@[simp] theorem State.setBuf_errInfo : (s.setBuf sp m).errInfo = s.errInfo := by cases sp <;> rfl
@[simp] theorem State.setBuf_hist : (s.setBuf sp m).hist = s.hist := by cases sp <;> rfl
@[simp] theorem State.setBuf_used : (s.setBuf sp m).used = s.used := by cases sp <;> rfl
@[simp] theorem State.setBuf_rp : (s.setBuf sp m).rp = s.rp := by cases sp <;> rfl
@[simp] theorem State.setBuf_runLen : (s.setBuf sp m).runLen = s.runLen := by cases sp <;> rfl
@[simp] theorem State.setBuf_curV : (s.setBuf sp m).curV = s.curV := by cases sp <;> rfl
@[simp] theorem State.setBuf_prev : (s.setBuf sp m).prev = s.prev := by cases sp <;> rfl
@[simp] theorem State.setBuf_scan : (s.setBuf sp m).scan = s.scan := by cases sp <;> rfl
@[simp] theorem State.setBuf_phase : (s.setBuf sp m).phase = s.phase := by cases sp <;> rfl
@[simp] theorem State.setBuf_params : (s.setBuf sp m).params = s.params := by cases sp <;> rfl
@[simp] theorem State.setBuf_activity : (s.setBuf sp m).activity = s.activity := by cases sp <;> rfl
@[simp] theorem State.setBuf_schedule : (s.setBuf sp m).schedule = s.schedule := by cases sp <;> rfl
@[simp] theorem State.setBuf_readData : (s.setBuf sp m).readData = s.readData := by cases sp <;> rfl
@[simp] theorem State.setBuf_freeCount : (s.setBuf sp m).freeCount = s.freeCount := by cases sp <;> rfl
@[simp] theorem State.setBuf_epoch : (s.setBuf sp m).epoch = s.epoch := by cases sp <;> rfl

end

section
variable (s : State) (sp : Space) (n : Word)

@[simp] theorem State.setLen_status : (s.setLen sp n).status = s.status := by cases sp <;> rfl
@[simp] theorem State.setLen_hdr : (s.setLen sp n).hdr = s.hdr := by cases sp <;> rfl
@[simp] theorem State.setLen_pair : (s.setLen sp n).pair = s.pair := by cases sp <;> rfl
@[simp] theorem State.setLen_bestCount : (s.setLen sp n).bestCount = s.bestCount := by cases sp <;> rfl
@[simp] theorem State.setLen_errInfo : (s.setLen sp n).errInfo = s.errInfo := by cases sp <;> rfl
@[simp] theorem State.setLen_bufIn : (s.setLen sp n).bufIn = s.bufIn := by cases sp <;> rfl
@[simp] theorem State.setLen_bufWork : (s.setLen sp n).bufWork = s.bufWork := by cases sp <;> rfl
@[simp] theorem State.setLen_bufOut : (s.setLen sp n).bufOut = s.bufOut := by cases sp <;> rfl
@[simp] theorem State.setLen_hist : (s.setLen sp n).hist = s.hist := by cases sp <;> rfl
@[simp] theorem State.setLen_used : (s.setLen sp n).used = s.used := by cases sp <;> rfl
@[simp] theorem State.setLen_rp : (s.setLen sp n).rp = s.rp := by cases sp <;> rfl
@[simp] theorem State.setLen_runLen : (s.setLen sp n).runLen = s.runLen := by cases sp <;> rfl
@[simp] theorem State.setLen_curV : (s.setLen sp n).curV = s.curV := by cases sp <;> rfl
@[simp] theorem State.setLen_prev : (s.setLen sp n).prev = s.prev := by cases sp <;> rfl
@[simp] theorem State.setLen_scan : (s.setLen sp n).scan = s.scan := by cases sp <;> rfl
@[simp] theorem State.setLen_phase : (s.setLen sp n).phase = s.phase := by cases sp <;> rfl
@[simp] theorem State.setLen_params : (s.setLen sp n).params = s.params := by cases sp <;> rfl
@[simp] theorem State.setLen_activity : (s.setLen sp n).activity = s.activity := by cases sp <;> rfl
@[simp] theorem State.setLen_schedule : (s.setLen sp n).schedule = s.schedule := by cases sp <;> rfl
@[simp] theorem State.setLen_readData : (s.setLen sp n).readData = s.readData := by cases sp <;> rfl
@[simp] theorem State.setLen_freeCount : (s.setLen sp n).freeCount = s.freeCount := by cases sp <;> rfl
@[simp] theorem State.setLen_epoch : (s.setLen sp n).epoch = s.epoch := by cases sp <;> rfl

end

section
variable (s : State) (sp : Space) (i : Nat) (v : Byte)

@[simp] theorem State.writeByte_status : (s.writeByte sp i v).status = s.status := by cases sp <;> rfl
@[simp] theorem State.writeByte_inLen : (s.writeByte sp i v).inLen = s.inLen := by cases sp <;> rfl
@[simp] theorem State.writeByte_workLen : (s.writeByte sp i v).workLen = s.workLen := by cases sp <;> rfl
@[simp] theorem State.writeByte_outLen : (s.writeByte sp i v).outLen = s.outLen := by cases sp <;> rfl
@[simp] theorem State.writeByte_hdr : (s.writeByte sp i v).hdr = s.hdr := by cases sp <;> rfl
@[simp] theorem State.writeByte_pair : (s.writeByte sp i v).pair = s.pair := by cases sp <;> rfl
@[simp] theorem State.writeByte_bestCount : (s.writeByte sp i v).bestCount = s.bestCount := by cases sp <;> rfl
@[simp] theorem State.writeByte_errInfo : (s.writeByte sp i v).errInfo = s.errInfo := by cases sp <;> rfl
@[simp] theorem State.writeByte_hist : (s.writeByte sp i v).hist = s.hist := by cases sp <;> rfl
@[simp] theorem State.writeByte_used : (s.writeByte sp i v).used = s.used := by cases sp <;> rfl
@[simp] theorem State.writeByte_rp : (s.writeByte sp i v).rp = s.rp := by cases sp <;> rfl
@[simp] theorem State.writeByte_runLen : (s.writeByte sp i v).runLen = s.runLen := by cases sp <;> rfl
@[simp] theorem State.writeByte_curV : (s.writeByte sp i v).curV = s.curV := by cases sp <;> rfl
@[simp] theorem State.writeByte_prev : (s.writeByte sp i v).prev = s.prev := by cases sp <;> rfl
@[simp] theorem State.writeByte_scan : (s.writeByte sp i v).scan = s.scan := by cases sp <;> rfl
@[simp] theorem State.writeByte_phase : (s.writeByte sp i v).phase = s.phase := by cases sp <;> rfl
@[simp] theorem State.writeByte_params : (s.writeByte sp i v).params = s.params := by cases sp <;> rfl
@[simp] theorem State.writeByte_activity : (s.writeByte sp i v).activity = s.activity := by cases sp <;> rfl
@[simp] theorem State.writeByte_schedule : (s.writeByte sp i v).schedule = s.schedule := by cases sp <;> rfl
@[simp] theorem State.writeByte_readData : (s.writeByte sp i v).readData = s.readData := by cases sp <;> rfl
@[simp] theorem State.writeByte_freeCount : (s.writeByte sp i v).freeCount = s.freeCount := by cases sp <;> rfl
@[simp] theorem State.writeByte_epoch : (s.writeByte sp i v).epoch = s.epoch := by cases sp <;> rfl

end

/-! ## The views `buf`, `len` and `cap` of a space -/

section
variable (s : State) (sp sp' : Space) (m : Memory) (n : Word) (k : Nat)

@[simp] theorem State.buf_setBuf_same : (s.setBuf sp m).buf sp = m := by cases sp <;> rfl

theorem State.buf_setBuf_ne (h : sp' ≠ sp) : (s.setBuf sp m).buf sp' = s.buf sp' := by
  cases sp <;> cases sp' <;> first | rfl | exact absurd rfl h

@[simp] theorem State.len_setLen_same : (s.setLen sp n).len sp = n := by cases sp <;> rfl

theorem State.len_setLen_ne (h : sp' ≠ sp) : (s.setLen sp n).len sp' = s.len sp' := by
  cases sp <;> cases sp' <;> first | rfl | exact absurd rfl h

@[simp] theorem State.len_setBuf : (s.setBuf sp m).len sp' = s.len sp' := by cases sp <;> cases sp' <;> rfl
@[simp] theorem State.buf_setLen : (s.setLen sp n).buf sp' = s.buf sp' := by cases sp <;> cases sp' <;> rfl
@[simp] theorem State.cap_setBuf : (s.setBuf sp m).cap sp' = s.cap sp' := by cases sp <;> cases sp' <;> rfl
@[simp] theorem State.cap_setLen : (s.setLen sp n).cap sp' = s.cap sp' := by cases sp <;> cases sp' <;> rfl

@[simp] theorem State.buf_begin : s.begin.buf sp = s.buf sp := by cases sp <;> rfl
@[simp] theorem State.len_begin : s.begin.len sp = s.len sp := by cases sp <;> rfl
@[simp] theorem State.cap_begin : s.begin.cap sp = s.cap sp := by cases sp <;> rfl
@[simp] theorem State.buf_complete : s.complete.buf sp = s.buf sp := by cases sp <;> rfl
@[simp] theorem State.len_complete : s.complete.len sp = s.len sp := by cases sp <;> rfl
@[simp] theorem State.cap_complete : s.complete.cap sp = s.cap sp := by cases sp <;> rfl
@[simp] theorem State.buf_advance : (s.advance k).buf sp = s.buf sp := by cases sp <;> rfl
@[simp] theorem State.len_advance : (s.advance k).len sp = s.len sp := by cases sp <;> rfl
@[simp] theorem State.cap_advance : (s.advance k).cap sp = s.cap sp := by cases sp <;> rfl
@[simp] theorem State.buf_seek : (s.seek k).buf sp = s.buf sp := by cases sp <;> rfl
@[simp] theorem State.len_seek : (s.seek k).len sp = s.len sp := by cases sp <;> rfl
@[simp] theorem State.cap_seek : (s.seek k).cap sp = s.cap sp := by cases sp <;> rfl
@[simp] theorem State.buf_errorComplete (e : ErrorKind) (info : Word) :
    (s.errorComplete e info).buf sp = s.buf sp := by cases sp <;> rfl
@[simp] theorem State.cap_errorComplete (e : ErrorKind) (info : Word) :
    (s.errorComplete e info).cap sp = s.cap sp := by cases sp <;> rfl

end

/-- The start of a command may be repeated: the second time it changes nothing. -/
@[simp] theorem State.begin_begin (s : State) : s.begin.begin = s.begin := rfl

end Sys2Proof.Machine
end

