-- ==== Sys2Proof/Laws/Ops.lean ====
section
/-!
SUPPORT. Everything the shared operations can do, said once: `append`, sequencing, loops, and the bytes a view shows after
them.
-/

namespace Sys2Proof.Machine

/-! ## Sequencing -/

@[simp] theorem Ran.ok_andThen (s : State) (f : State → Ran) : (Ran.ok s).andThen f = f s := rfl

@[simp] theorem Ran.raised_andThen (e : ErrorKind) (w : Word) (s : State) (f : State → Ran) :
    (Ran.raised e w s).andThen f = .raised e w s := rfl

theorem Ran.andThen_assoc (r : Ran) (f g : State → Ran) :
    (r.andThen f).andThen g = r.andThen fun s => (f s).andThen g := by cases r <;> rfl

@[simp] theorem Ran.finish_ok (s : State) : (Ran.ok s).finish = s.complete := rfl
@[simp] theorem Ran.finish_raised (e : ErrorKind) (w : Word) (s : State) :
    (Ran.raised e w s).finish = s.errorComplete e w := rfl
@[simp] theorem Ran.settle_ok (s : State) : (Ran.ok s).settle = s := rfl
@[simp] theorem Ran.settle_raised (e : ErrorKind) (w : Word) (s : State) :
    (Ran.raised e w s).settle = s.errorComplete e w := rfl

@[simp] theorem whileLoop_zero (c : State → Bool) (b : State → Ran) (s : State) : whileLoop c b 0 s = .ok s := rfl

theorem whileLoop_false {c : State → Bool} {s : State} (b : State → Ran) (h : c s = false) (n : Nat) :
    whileLoop c b n s = .ok s := by cases n <;> simp [whileLoop, h]

theorem whileLoop_true {c : State → Bool} {s : State} (b : State → Ran) (h : c s = true) (n : Nat) :
    whileLoop c b (n + 1) s = (b s).andThen (whileLoop c b n) := by simp [whileLoop, h]

/-- `P` holds wherever a stretch ends, normally or at a raise. -/
def Ran.Ends (P : State → Prop) : Ran → Prop
  | .ok s => P s
  | .raised _ _ s => P s

theorem Ran.Ends.andThen {P Q : State → Prop} {r : Ran} {f : State → Ran} (hr : r.Ends P)
    (hf : ∀ s, P s → (f s).Ends Q) (hPQ : ∀ s, P s → Q s) : (r.andThen f).Ends Q := by
  cases r with
  | ok s => exact hf s hr
  | raised e w s => exact hPQ s hr

theorem whileLoop_ends {P : State → Prop} {c : State → Bool} {b : State → Ran}
    (hb : ∀ s, c s = true → P s → (b s).Ends P) : ∀ n s, P s → (whileLoop c b n s).Ends P
  | 0, _, h => h
  | n + 1, s, h => by
    unfold whileLoop
    split
    · rename_i hc
      exact (hb s hc h).andThen (whileLoop_ends hb n) fun _ h => h
    · exact h

theorem repeatTimes_ends {P : State → Prop} {b : State → Ran} (hb : ∀ s, P s → (b s).Ends P) :
    ∀ n s, P s → (repeatTimes b n s).Ends P
  | 0, _, h => h
  | n + 1, s, h => (hb s h).andThen (repeatTimes_ends hb n) fun _ h => h

/-! ## Bytes of a buffer -/

theorem State.byteAt_congr {s t : State} {sp : Space} (hb : t.buf sp = s.buf sp) (he : t.epoch = s.epoch) (i : Nat) :
    t.byteAt sp i = s.byteAt sp i := by
  unfold State.byteAt; rw [hb, he]

theorem State.bytes_congr {s t : State} {sp : Space} {a n : Nat}
    (h : ∀ i, a ≤ i → i < a + n → t.byteAt sp i = s.byteAt sp i) : t.bytes sp a n = s.bytes sp a n := by
  unfold State.bytes
  refine List.map_congr_left fun i hi => ?_
  have := List.mem_range'_1.1 hi
  exact h i this.1 this.2

@[simp] theorem State.length_bytes (s : State) (sp : Space) (a n : Nat) : (s.bytes sp a n).length = n := by
  simp [State.bytes]

@[simp] theorem State.bytes_zero (s : State) (sp : Space) (a : Nat) : s.bytes sp a 0 = [] := rfl

theorem State.bytes_succ (s : State) (sp : Space) (a n : Nat) :
    s.bytes sp a (n + 1) = s.byteAt sp a :: s.bytes sp (a + 1) n := by
  simp [State.bytes, List.range'_succ]

theorem State.bytes_succ_last (s : State) (sp : Space) (a n : Nat) :
    s.bytes sp a (n + 1) = s.bytes sp a n ++ [s.byteAt sp (a + n)] := by
  simp [State.bytes, List.range'_concat]

theorem State.bytes_add (s : State) (sp : Space) (a m n : Nat) :
    s.bytes sp a (m + n) = s.bytes sp a m ++ s.bytes sp (a + m) n := by
  simp only [State.bytes]
  rw [← List.map_append, ← List.range'_append_1]

theorem State.getElem?_bytes (s : State) (sp : Space) (a n i : Nat) :
    (s.bytes sp a n)[i]? = if i < n then some (s.byteAt sp (a + i)) else none := by
  split
  · rename_i h
    rw [List.getElem?_eq_getElem (by simpa using h)]
    simp [State.bytes]
  · rename_i h
    exact List.getElem?_eq_none (by simpa using h)

theorem State.getElem_bytes (s : State) (sp : Space) (a n i : Nat) (h : i < (s.bytes sp a n).length) :
    (s.bytes sp a n)[i] = s.byteAt sp (a + i) := by
  simp [State.bytes]

theorem State.drop_bytes (s : State) (sp : Space) (a n k : Nat) :
    (s.bytes sp a n).drop k = s.bytes sp (a + k) (n - k) := by
  refine List.ext_getElem (by simp) fun i h1 h2 => ?_
  rw [List.getElem_drop, State.getElem_bytes, State.getElem_bytes, Nat.add_assoc]

theorem State.take_bytes (s : State) (sp : Space) (a n k : Nat) :
    (s.bytes sp a n).take k = s.bytes sp a (min k n) := by
  refine List.ext_getElem (by simp) fun i h1 h2 => ?_
  rw [List.getElem_take, State.getElem_bytes, State.getElem_bytes]

theorem State.buf_writeByte_ne {sp sp' : Space} (s : State) (i : Nat) (v : Byte) (h : sp' ≠ sp) :
    (s.writeByte sp i v).buf sp' = s.buf sp' := State.buf_setBuf_ne s sp sp' _ h

@[simp] theorem State.len_writeByte (s : State) (sp sp' : Space) (i : Nat) (v : Byte) :
    (s.writeByte sp i v).len sp' = s.len sp' := State.len_setBuf s sp sp' _

@[simp] theorem State.cap_writeByte (s : State) (sp sp' : Space) (i : Nat) (v : Byte) :
    (s.writeByte sp i v).cap sp' = s.cap sp' := State.cap_setBuf s sp sp' _

/-- What a byte reads as after one write. -/
theorem State.byteAt_writeByte (s : State) (sp : Space) (i k : Nat) (v : Byte) :
    (s.writeByte sp i v).byteAt sp k = if k = i then v else s.byteAt sp k := by
  unfold State.byteAt State.writeByte
  rw [State.buf_setBuf_same, State.setBuf_epoch]
  by_cases h : k = i
  · subst h; simp
  · rw [Memory.read_write_ne _ _ h, if_neg h]

/-! ## Appending a list -/

/-- `ys` written at rising indices from `i`. -/
def writeAll (m : Memory) : Nat → List Byte → Memory
  | _, [] => m
  | i, v :: rest => writeAll (m.write i v) (i + 1) rest

theorem writeAll_append (m : Memory) (i : Nat) (xs ys : List Byte) :
    writeAll m i (xs ++ ys) = writeAll (writeAll m i xs) (i + xs.length) ys := by
  induction xs generalizing m i with
  | nil => rfl
  | cons x xs ih =>
    have : i + (x :: xs).length = i + 1 + xs.length := by simp; omega
    rw [this]
    exact ih _ _

theorem read_writeAll (m : Memory) (i : Nat) (ys : List Byte) (k : Nat) :
    (writeAll m i ys).read k = if i ≤ k ∧ k < i + ys.length then ys[k - i]? else m.read k := by
  induction ys generalizing m i with
  | nil =>
    have : ¬(i ≤ k ∧ k < i + ([] : List Byte).length) := by simp
    rw [if_neg this]; rfl
  | cons y ys ih =>
    rw [writeAll, ih]
    by_cases h : i = k
    · subst h
      have h1 : ¬(i + 1 ≤ i ∧ i < i + 1 + ys.length) := by omega
      have h2 : i ≤ i ∧ i < i + (y :: ys).length := by simp
      rw [if_neg h1, if_pos h2]
      simp
    · by_cases h2 : i + 1 ≤ k ∧ k < i + 1 + ys.length
      · have h3 : i ≤ k ∧ k < i + (y :: ys).length := by simp; omega
        rw [if_pos h2, if_pos h3]
        have : k - i = k - (i + 1) + 1 := by omega
        simp [this]
      · have h3 : ¬(i ≤ k ∧ k < i + (y :: ys).length) := by simp; omega
        rw [if_neg h2, if_neg h3, Memory.read_write_ne _ _ (Ne.symm h)]

theorem wf_writeAll {m : Memory} (h : m.wf) (i : Nat) (ys : List Byte) : (writeAll m i ys).wf := by
  induction ys generalizing m i with
  | nil => exact h
  | cons y ys ih => exact ih (Memory.wf_write h i y) (i + 1)

/-- The state after `ys` has been appended to `sp`. -/
def stored (sp : Space) (ys : List Byte) (s : State) : State :=
  (s.setBuf sp (writeAll (s.buf sp) (s.len sp).toNat ys)).setLen sp (s.len sp + BitVec.ofNat 32 ys.length)

/-- The state with other working registers `RP`, `RUNLEN`, `CURV`. -/
def State.cursors (s : State) (r : Word) (n v : Byte) : State := { s with rp := r, runLen := n, curV := v }

section
variable (s : State) (sp sp' : Space) (ys : List Byte) (r : Word) (n v : Byte)

@[simp] theorem stored_nil : stored sp [] s = s := by
  cases sp <;> simp [stored, writeAll, State.setBuf, State.setLen, State.buf, State.len]

@[simp] theorem cap_stored : (stored sp ys s).cap sp' = s.cap sp' := by simp [stored]
@[simp] theorem len_stored_same : (stored sp ys s).len sp = s.len sp + BitVec.ofNat 32 ys.length := by simp [stored]
theorem len_stored_ne (h : sp' ≠ sp) : (stored sp ys s).len sp' = s.len sp' := by
  simp [stored, State.len_setLen_ne _ _ _ _ h]
theorem buf_stored_ne (h : sp' ≠ sp) : (stored sp ys s).buf sp' = s.buf sp' := by
  simp [stored, State.buf_setBuf_ne _ _ _ _ h]
@[simp] theorem buf_stored_same : (stored sp ys s).buf sp = writeAll (s.buf sp) (s.len sp).toNat ys := by simp [stored]

@[simp] theorem cap_cursors : (s.cursors r n v).cap sp = s.cap sp := by cases sp <;> rfl
@[simp] theorem len_cursors : (s.cursors r n v).len sp = s.len sp := by cases sp <;> rfl
@[simp] theorem buf_cursors : (s.cursors r n v).buf sp = s.buf sp := by cases sp <;> rfl
@[simp] theorem cursors_rp : (s.cursors r n v).rp = r := rfl
@[simp] theorem cursors_runLen : (s.cursors r n v).runLen = n := rfl
@[simp] theorem cursors_curV : (s.cursors r n v).curV = v := rfl
@[simp] theorem cursors_hdr : (s.cursors r n v).hdr = s.hdr := rfl
@[simp] theorem cursors_epoch : (s.cursors r n v).epoch = s.epoch := rfl
@[simp] theorem cursors_params : (s.cursors r n v).params = s.params := rfl
@[simp] theorem cursors_inLen : (s.cursors r n v).inLen = s.inLen := rfl
@[simp] theorem cursors_workLen : (s.cursors r n v).workLen = s.workLen := rfl
@[simp] theorem cursors_self : s.cursors s.rp s.runLen s.curV = s := rfl
@[simp] theorem cursors_cursors (r' : Word) (n' v' : Byte) : (s.cursors r n v).cursors r' n' v' = s.cursors r' n' v' := rfl
theorem stored_cursors : stored sp ys (s.cursors r n v) = (stored sp ys s).cursors r n v := by cases sp <;> rfl

@[simp] theorem stored_rp : (stored sp ys s).rp = s.rp := by simp [stored]
@[simp] theorem stored_runLen : (stored sp ys s).runLen = s.runLen := by simp [stored]
@[simp] theorem stored_curV : (stored sp ys s).curV = s.curV := by simp [stored]
@[simp] theorem stored_hdr : (stored sp ys s).hdr = s.hdr := by simp [stored]
@[simp] theorem stored_epoch : (stored sp ys s).epoch = s.epoch := by simp [stored]
@[simp] theorem stored_params : (stored sp ys s).params = s.params := by simp [stored]
@[simp] theorem stored_status : (stored sp ys s).status = s.status := by simp [stored]

theorem stored_append (xs : List Byte) (h : (s.len sp).toNat + xs.length < 2 ^ 32) :
    stored sp (xs ++ ys) s = stored sp ys (stored sp xs s) := by
  have hlen : (s.len sp + BitVec.ofNat 32 xs.length).toNat = (s.len sp).toNat + xs.length := by
    simp only [BitVec.toNat_add, BitVec.toNat_ofNat]; omega
  have hadd : BitVec.ofNat 32 (xs.length + ys.length) = BitVec.ofNat 32 xs.length + BitVec.ofNat 32 ys.length :=
    BitVec.ofNat_add ..
  unfold stored
  rw [writeAll_append, List.length_append, hadd, ← BitVec.add_assoc]
  simp only [State.buf_setLen, State.buf_setBuf_same, State.len_setLen_same, hlen]
  cases sp <;> rfl

/-- A byte of the buffer appended to. -/
theorem byteAt_stored_same (i : Nat) : (stored sp ys s).byteAt sp i =
    if (s.len sp).toNat ≤ i ∧ i < (s.len sp).toNat + ys.length then ys.getD (i - (s.len sp).toNat) 0#8
    else s.byteAt sp i := by
  unfold State.byteAt
  rw [buf_stored_same, stored_epoch, read_writeAll]
  by_cases h : (s.len sp).toNat ≤ i ∧ i < (s.len sp).toNat + ys.length
  · have hi : i - (s.len sp).toNat < ys.length := by omega
    rw [if_pos h, if_pos h, List.getElem?_eq_getElem hi, List.getD_eq_getElem _ _ hi, Option.getD_some]
  · rw [if_neg h, if_neg h]

theorem byteAt_stored_ne (h : sp' ≠ sp) (i : Nat) : (stored sp ys s).byteAt sp' i = s.byteAt sp' i :=
  State.byteAt_congr (buf_stored_ne s sp sp' ys h) (stored_epoch s sp ys) i

@[simp] theorem byteAt_cursors (i : Nat) : (s.cursors r n v).byteAt sp i = s.byteAt sp i :=
  State.byteAt_congr (buf_cursors s sp r n v) rfl i

@[simp] theorem bytes_cursors (a k : Nat) : (s.cursors r n v).bytes sp a k = s.bytes sp a k :=
  State.bytes_congr fun i _ _ => byteAt_cursors s sp r n v i

theorem bytes_stored_ne (h : sp' ≠ sp) (a k : Nat) : (stored sp ys s).bytes sp' a k = s.bytes sp' a k :=
  State.bytes_congr fun i _ _ => byteAt_stored_ne s sp sp' ys h i

/-- The bytes appended are the bytes read back. -/
theorem bytes_stored_same : (stored sp ys s).bytes sp (s.len sp).toNat ys.length = ys := by
  refine List.ext_getElem (by simp) fun i h1 h2 => ?_
  rw [State.getElem_bytes, byteAt_stored_same]
  have h3 : (s.len sp).toNat ≤ (s.len sp).toNat + i ∧ (s.len sp).toNat + i < (s.len sp).toNat + ys.length := by omega
  rw [if_pos h3]
  simp [h2]

/-- Appending leaves the bytes below the old length alone. -/
theorem bytes_stored_below {a k : Nat} (h : a + k ≤ (s.len sp).toNat) :
    (stored sp ys s).bytes sp a k = s.bytes sp a k :=
  State.bytes_congr fun i h1 h2 => by
    rw [byteAt_stored_same, if_neg (by omega)]

end

/-- How the state may have moved when an append to `sp` found it full: only the buffer, its length and the working
registers `RP`, `RUNLEN`, `CURV` differ, and no byte at or above the capacity. -/
def Drift (sp : Space) (s t : State) : Prop :=
  ∃ m l r n v, t = ((s.setBuf sp m).setLen sp l).cursors r n v ∧
    ∀ i, (s.cap sp).toNat ≤ i → m.read i = (s.buf sp).read i

theorem Drift.refl (sp : Space) (s : State) : Drift sp s s :=
  ⟨s.buf sp, s.len sp, s.rp, s.runLen, s.curV, by cases sp <;> rfl, fun _ _ => rfl⟩

theorem Drift.trans {sp : Space} {s t u : State} (h1 : Drift sp s t) (h2 : Drift sp t u) : Drift sp s u := by
  obtain ⟨m, l, r, n, v, rfl, hm⟩ := h1
  obtain ⟨m', l', r', n', v', rfl, hm'⟩ := h2
  refine ⟨m', l', r', n', v', by cases sp <;> rfl, fun i hi => ?_⟩
  rw [hm' i (by simpa using hi)]
  simpa using hm i hi

theorem Drift.stored {sp : Space} {s : State} {ys : List Byte} (h : (s.len sp).toNat + ys.length ≤ (s.cap sp).toNat)
    (r : Word) (n v : Byte) : Drift sp s ((stored sp ys s).cursors r n v) := by
  refine ⟨_, _, r, n, v, rfl, fun i hi => ?_⟩
  rw [read_writeAll, if_neg (by omega)]

/-- Everything a stretch that appends `ys` to `sp` can do: if `ys` fits it ends normally with `ys` appended and `RP`,
`RUNLEN`, `CURV` at `r`, `n`, `v`; if not it raises CapacityExceeded. -/
def Delivers (sp : Space) (ys : List Byte) (r : Word) (n v : Byte) (s : State) (res : Ran) : Prop :=
  ((s.len sp).toNat + ys.length ≤ (s.cap sp).toNat → res = .ok ((stored sp ys s).cursors r n v)) ∧
  ((s.len sp).toNat ≤ (s.cap sp).toNat → (s.cap sp).toNat < (s.len sp).toNat + ys.length →
    ∃ t, res = .raised .capacityExceeded 0#32 t ∧ Drift sp s t)

theorem Delivers.nothing (sp : Space) (r : Word) (n v : Byte) (s : State) :
    Delivers sp [] r n v s (.ok (s.cursors r n v)) :=
  ⟨fun _ => by simp, fun h1 h2 => by simp at h2; omega⟩

theorem Delivers.append (sp : Space) (b : Byte) (s : State) :
    Delivers sp [b] s.rp s.runLen s.curV s (append sp b s) := by
  constructor
  · intro h
    have hne : s.len sp ≠ s.cap sp := fun he => by simp [he] at h
    unfold Machine.append
    rw [if_neg hne]
    cases sp <;> rfl
  · intro h1 h2
    have he : s.len sp = s.cap sp := BitVec.eq_of_toNat_eq (by simp at h2; omega)
    exact ⟨s, by simp [Machine.append, he], Drift.refl sp s⟩

theorem toNat_len_stored {sp : Space} {s : State} {ys : List Byte}
    (h : (s.len sp).toNat + ys.length ≤ (s.cap sp).toNat) :
    ((stored sp ys s).len sp).toNat = (s.len sp).toNat + ys.length := by
  have := (s.cap sp).isLt
  simp only [len_stored_same, BitVec.toNat_add, BitVec.toNat_ofNat]
  omega

theorem Delivers.andThen {sp : Space} {ys zs : List Byte} {r r' : Word} {n v n' v' : Byte} {s : State} {res : Ran}
    {f : State → Ran} (h1 : Delivers sp ys r n v s res)
    (h2 : Delivers sp zs r' n' v' ((stored sp ys s).cursors r n v) (f ((stored sp ys s).cursors r n v))) :
    Delivers sp (ys ++ zs) r' n' v' s (res.andThen f) := by
  have hcap := (s.cap sp).isLt
  constructor
  · intro h
    simp only [List.length_append] at h
    have hy : (s.len sp).toNat + ys.length ≤ (s.cap sp).toNat := by omega
    rw [h1.1 hy, Ran.ok_andThen, h2.1 (by
      rw [len_cursors, toNat_len_stored hy, cap_cursors, cap_stored]; omega), stored_cursors, cursors_cursors,
      ← stored_append s sp zs ys (by omega)]
  · intro hle h
    simp only [List.length_append] at h
    by_cases hy : (s.len sp).toNat + ys.length ≤ (s.cap sp).toNat
    · obtain ⟨t, ht, hd⟩ := h2.2 (by rw [len_cursors, toNat_len_stored hy, cap_cursors, cap_stored]; omega)
        (by rw [len_cursors, toNat_len_stored hy, cap_cursors, cap_stored]; omega)
      exact ⟨t, by rw [h1.1 hy, Ran.ok_andThen, ht], (Drift.stored hy r n v).trans hd⟩
    · obtain ⟨t, ht, hd⟩ := h1.2 hle (by omega)
      exact ⟨t, by rw [ht]; rfl, hd⟩

/-- A stretch that appends and then only moves the cursors. -/
theorem Delivers.thenMove {sp : Space} {ys : List Byte} {r r' : Word} {n v n' v' : Byte} {s : State} {res : Ran}
    {f : State → State} (h1 : Delivers sp ys r n v s res)
    (hf : f ((Machine.stored sp ys s).cursors r n v) = (Machine.stored sp ys s).cursors r' n' v') :
    Delivers sp ys r' n' v' s (res.andThen fun t => .ok (f t)) := by
  have h := h1.andThen (zs := []) (f := fun t => .ok (f t)) (r' := r') (n' := n') (v' := v') (by
    have := Delivers.nothing sp r' n' v' ((Machine.stored sp ys s).cursors r n v)
    rwa [cursors_cursors, ← hf] at this)
  rwa [List.append_nil] at h

/-- `n` times the same append. -/
theorem Delivers.replicate (sp : Space) (b : Byte) : ∀ (n : Nat) (s : State),
    Delivers sp (List.replicate n b) s.rp s.runLen s.curV s (repeatTimes (Machine.append sp b) n s)
  | 0, s => Delivers.nothing sp s.rp s.runLen s.curV s
  | n + 1, s => by
    have h := (Delivers.append sp b s).andThen (zs := List.replicate n b) (r' := s.rp) (n' := s.runLen) (v' := s.curV)
      (f := repeatTimes (Machine.append sp b) n) (by
        have := Delivers.replicate sp b n ((Machine.stored sp [b] s).cursors s.rp s.runLen s.curV)
        simpa only [cursors_rp, cursors_runLen, cursors_curV] using this)
    exact h

end Sys2Proof.Machine
end

