-- ==== Sys2Proof/Laws/Analyzer.lean ====
section
/-!
SUPPORT. What ANALYZE's sweep computes (40 R120 to R126) and what SELECT's scan finds (40 R135).
-/

namespace Sys2Proof.Codec

theorem pairs_nil : pairs [] = [] := rfl
theorem pairs_singleton (x : Byte) : pairs [x] = [] := rfl

theorem pairs_cons_cons (x y : Byte) (l : List Byte) : pairs (x :: y :: l) = (x, y) :: pairs (y :: l) := rfl

theorem pairs_concat (l : List Byte) (y x : Byte) : pairs (l ++ [y] ++ [x]) = pairs (l ++ [y]) ++ [(y, x)] := by
  induction l with
  | nil => rfl
  | cons a l ih =>
    cases l with
    | nil => rfl
    | cons b l =>
      simp only [List.cons_append] at ih ⊢
      rw [pairs_cons_cons, ih, pairs_cons_cons]
      rfl

theorem length_pairs (l : List Byte) : (pairs l).length = l.length - 1 := by
  simp [pairs]

theorem pairCount_le (l : List Byte) (p : Byte × Byte) : pairCount l p ≤ l.length - 1 := by
  rw [← length_pairs]; exact List.count_le_length

theorem pairCount_pos {l : List Byte} {p : Byte × Byte} : 0 < pairCount l p ↔ p ∈ pairs l := List.count_pos_iff

/-- The best pair of a buffer: the greatest count, and the pair that reaches it first (40 R124, R126). -/
structure BestIs (l : List Byte) (m : Nat) (p : Byte × Byte) : Prop where
  greatest : ∀ q, pairCount l q ≤ m
  none : pairs l = [] → m = 0 ∧ p = (0#8, 0#8)
  first : pairs l ≠ [] → FirstToReach l m p

theorem BestIs.pos {l : List Byte} {m : Nat} {p : Byte × Byte} (h : BestIs l m p) (hl : pairs l ≠ []) : 1 ≤ m := by
  obtain ⟨q, hq⟩ := List.exists_mem_of_ne_nil _ hl
  exact le_trans (pairCount_pos.2 hq) (h.greatest q)

theorem FirstToReach.count {l : List Byte} {m : Nat} {p : Byte × Byte} (h : FirstToReach l m p)
    (hm : ∀ q, pairCount l q ≤ m) : pairCount l p = m := by
  obtain ⟨j, _, hc, _⟩ := h
  refine le_antisymm (hm p) ?_
  rw [← hc]
  exact (List.take_sublist _ _).count_le _

/-- One more byte: the running maximum of 40 R120 stays the best pair. -/
theorem BestIs.concat {l : List Byte} {y x : Byte} {m : Nat} {p : Byte × Byte} (h : BestIs (l ++ [y]) m p) :
    BestIs (l ++ [y] ++ [x])
      (if m < pairCount (l ++ [y]) (y, x) + 1 then pairCount (l ++ [y]) (y, x) + 1 else m)
      (if m < pairCount (l ++ [y]) (y, x) + 1 then (y, x) else p) := by
  have hp := pairs_concat l y x
  have hcount : ∀ q, pairCount (l ++ [y] ++ [x]) q = pairCount (l ++ [y]) q + if q = (y, x) then 1 else 0 := by
    intro q
    rw [pairCount, hp, List.count_append, ← pairCount]
    by_cases hq : q = (y, x)
    · subst hq; simp
    · rw [if_neg hq, List.count_eq_zero_of_not_mem (by simpa using hq)]
  have hle := h.greatest (y, x)
  refine ⟨fun q => ?_, fun hn => by rw [hp] at hn; simp at hn, fun _ => ?_⟩
  · rw [hcount]
    have := h.greatest q
    by_cases hq : q = (y, x)
    · subst hq; rw [if_pos rfl]; split <;> omega
    · rw [if_neg hq]; split <;> omega
  · split
    · rename_i hlt
      refine ⟨(pairs (l ++ [y])).length, by rw [hp]; simp, ?_, fun i q hi hq => ?_⟩
      · rw [hp, List.take_of_length_le (by simp), ← hp, ← pairCount, hcount, if_pos rfl]
      · rw [hp, List.take_append_of_le_length (by omega)]
        have h1 : ((pairs (l ++ [y])).take (i + 1)).count q ≤ pairCount (l ++ [y]) q :=
          (List.take_sublist _ _).count_le _
        have := h.greatest q
        omega
    · rename_i hge
      have hne : pairs (l ++ [y]) ≠ [] := fun hn => by
        have h0 := h.none hn
        omega
      obtain ⟨j, hj, hc, hlow⟩ := h.first hne
      have hjlt : j < (pairs (l ++ [y])).length := by
        by_contra hcon
        rw [List.getElem?_eq_none (by omega)] at hj
        exact absurd hj (by simp)
      refine ⟨j, ?_, ?_, fun i q hi hq => ?_⟩
      · rw [hp, List.getElem?_append_left hjlt]; exact hj
      · rw [hp, List.take_append_of_le_length (by omega)]; exact hc
      · rw [hp, List.take_append_of_le_length (by omega)]
        rw [hp, List.getElem?_append_left (by omega)] at hq
        exact hlow i q hi hq

theorem bestIs_nil : BestIs [] 0 (0#8, 0#8) :=
  ⟨fun q => by simp [pairCount, pairs], fun _ => ⟨rfl, rfl⟩, fun h => absurd rfl h⟩

theorem bestIs_singleton (x : Byte) : BestIs [x] 0 (0#8, 0#8) :=
  ⟨fun q => by simp [pairCount, pairs], fun _ => ⟨rfl, rfl⟩, fun h => absurd rfl h⟩

end Sys2Proof.Codec

namespace Sys2Proof.Machine

/-- The state with other contents of what ANALYZE writes. -/
def State.analysis (s : State) (h : Hist) (u : Used) (m : Word) (p : Pair) (r : Word) (pv : Byte) : State :=
  { s with hist := h, used := u, bestCount := m, pair := p, rp := r, prev := pv }

theorem HistOk.write {h : Hist} (hh : HistOk h) {k : Nat} (hk : k < 65536) (v : Word) : HistOk (h.write k v) := by
  refine ⟨Hist.wf_write hh.1 k v, fun c hc => ?_⟩
  unfold Hist.write at hc
  split at hc
  · exact hh.2 c (mem_cellErase hc)
  · rcases mem_cellWrite hc with rfl | hc
    · exact hk
    · exact hh.2 c hc

/-- What the analyzer's state means after the sweep has read the bytes `l` (40 R122 to R124, R126). -/
structure Swept (s : State) (l : List Byte) (h : Hist) (u : Used) (m : Word) (p : Pair) : Prop where
  histOk : HistOk h
  histFill : h.fill = .cleared
  count : ∀ a b, (h.read s.epoch (pairIndex a b)).toNat = Codec.pairCount l (a, b)
  usedFill : u.fill = .cleared
  used : ∀ v, u.read s.epoch v = decide (v ∈ l)
  best : Codec.BestIs l m.toNat (p.a, p.b)

theorem swept_nil (s : State) : Swept s [] Hist.clear Used.clear 0#32 ⟨0#8, 0#8⟩ where
  histOk := ⟨Hist.wf_clear, fun _ h => by simp [Hist.clear] at h⟩
  histFill := rfl
  count := fun a b => by simp [Codec.pairCount, Codec.pairs]
  usedFill := rfl
  used := fun v => by simp
  best := Codec.bestIs_nil

/-- One byte of the sweep (40 R120). -/
theorem analyzeByte_swept {s : State} {k : Nat} {h : Hist} {u : Used} {m : Word} {p : Pair} {pv : Byte}
    (hk : k + 1 < 2 ^ 32) (hprev : 1 ≤ k → pv = s.byteAt .inp (k - 1))
    (hs : Swept s (s.bytes .inp 0 k) h u m p) :
    ∃ h' u' m' p', analyzeByte (s.analysis h u m p (BitVec.ofNat 32 k) pv) =
        s.analysis h' u' m' p' (BitVec.ofNat 32 (k + 1)) (s.byteAt .inp k) ∧
      Swept s (s.bytes .inp 0 (k + 1)) h' u' m' p' := by
  have hkn : (BitVec.ofNat 32 k).toNat = k := by rw [BitVec.toNat_ofNat]; omega
  have hadd : BitVec.ofNat 32 k + BitVec.ofNat 32 1 = BitVec.ofNat 32 (k + 1) := (BitVec.ofNat_add ..).symm
  have hcur : (s.analysis h u m p (BitVec.ofNat 32 k) pv).cur .inp = s.byteAt .inp k := by
    show (s.analysis h u m p (BitVec.ofNat 32 k) pv).byteAt .inp (BitVec.ofNat 32 k).toNat = _
    rw [hkn]; rfl
  have hbytes := State.bytes_succ_last s .inp 0 k
  rw [Nat.zero_add] at hbytes
  have hused : ∀ v, (u.mark (s.byteAt .inp k)).read s.epoch v = decide (v ∈ s.bytes .inp 0 (k + 1)) := by
    intro v
    rw [Used.read_mark, hs.used, hbytes]
    have he : v = s.byteAt .inp k ↔ s.byteAt .inp k = v := eq_comm
    simp [he]
  cases k with
  | zero =>
    refine ⟨h, u.mark (s.byteAt .inp 0), m, p, ?_, ?_⟩
    · have hno : sweepPair (s.byteAt .inp 0) (markUsed (s.byteAt .inp 0) (s.analysis h u m p (BitVec.ofNat 32 0) pv)) =
          markUsed (s.byteAt .inp 0) (s.analysis h u m p (BitVec.ofNat 32 0) pv) :=
        if_neg (show ¬1 ≤ (BitVec.ofNat 32 0).toNat by simp)
      unfold analyzeByte
      rw [hcur, hno]
      rfl
    · have hl : s.bytes .inp 0 (0 + 1) = [s.byteAt .inp 0] := hbytes
      refine ⟨hs.histOk, hs.histFill, fun a b => ?_, hs.usedFill, hused, ?_⟩
      · rw [hs.count, hl]; rfl
      · have h0 := hs.best.none rfl
        rw [hl, h0.1, h0.2]
        exact Codec.bestIs_singleton _
  | succ j =>
    have hpv : pv = s.byteAt .inp j := hprev (by omega)
    subst hpv
    have hj := State.bytes_succ_last s .inp 0 j
    rw [Nat.zero_add] at hj
    generalize hy : s.byteAt .inp j = y at *
    generalize hx : s.byteAt .inp (j + 1) = x at *
    generalize hL : s.bytes .inp 0 j = L at *
    have hlen : L.length = j := by rw [← hL, State.length_bytes]
    have hcnt := hs.count y x
    have hbound : Codec.pairCount (s.bytes .inp 0 (j + 1)) (y, x) ≤ j := by
      have := Codec.pairCount_le (s.bytes .inp 0 (j + 1)) (y, x)
      rwa [State.length_bytes] at this
    have hn : (h.read s.epoch (pairIndex y x) + 1#32).toNat = Codec.pairCount (s.bytes .inp 0 (j + 1)) (y, x) + 1 := by
      rw [BitVec.toNat_add, hcnt]
      have : (1#32).toNat = 1 := rfl
      omega
    refine ⟨h.write (pairIndex y x) (h.read s.epoch (pairIndex y x) + 1#32), u.mark x,
      if m.toNat < (h.read s.epoch (pairIndex y x) + 1#32).toNat then h.read s.epoch (pairIndex y x) + 1#32 else m,
      if m.toNat < (h.read s.epoch (pairIndex y x) + 1#32).toNat then ⟨y, x⟩ else p, ?_, ?_⟩
    · have hyes : sweepPair x (markUsed x (s.analysis h u m p (BitVec.ofNat 32 (j + 1)) y)) =
          countPair x (markUsed x (s.analysis h u m p (BitVec.ofNat 32 (j + 1)) y)) :=
        if_pos (show 1 ≤ (BitVec.ofNat 32 (j + 1)).toNat by omega)
      unfold analyzeByte
      rw [hcur, hyes, ← hadd]
      unfold countPair keepBest
      by_cases hlt : m.toNat < (h.read s.epoch (pairIndex y x) + 1#32).toNat
      · rw [if_pos hlt, if_pos hlt]
        erw [if_pos hlt]
        rfl
      · rw [if_neg hlt, if_neg hlt]
        erw [if_neg hlt]
        rfl
    · refine ⟨HistOk.write hs.histOk (pairIndex_lt y x) _, by rw [Hist.fill_write]; exact hs.histFill, fun a b => ?_,
        hs.usedFill, hused, ?_⟩
      · rw [Hist.read_write hs.histOk.1]
        have hc : Codec.pairCount (s.bytes .inp 0 (j + 1 + 1)) (a, b) =
            Codec.pairCount (s.bytes .inp 0 (j + 1)) (a, b) + if (a, b) = (y, x) then 1 else 0 := by
          rw [hbytes, hj, Codec.pairCount, Codec.pairs_concat, List.count_append, ← Codec.pairCount]
          by_cases hq : (a, b) = (y, x)
          · rw [hq]; simp
          · rw [if_neg hq, List.count_eq_zero_of_not_mem (by simpa using hq)]
        by_cases hab : (a, b) = (y, x)
        · obtain ⟨rfl, rfl⟩ := Prod.mk.inj hab
          rw [if_pos rfl, hn, hc, if_pos rfl]
        · rw [if_neg fun he => hab (by obtain ⟨rfl, rfl⟩ := pairIndex_inj.1 he; rfl), hs.count, hc, if_neg hab]; rfl
      · rw [hbytes, hj]
        rw [hj] at hn
        have hb := hs.best
        rw [hj] at hb
        have := Codec.BestIs.concat (x := x) hb
        rw [hn]
        split <;> rename_i hlt
        · rw [if_pos hlt, if_pos hlt] at this
          rw [hn]; exact this
        · rw [if_neg hlt, if_neg hlt] at this
          exact this

/-- The sweep from byte `k` on. -/
theorem analyzeSweep_swept {s : State} : ∀ (n k : Nat) (h : Hist) (u : Used) (m : Word) (p : Pair) (pv : Byte),
    k + n < 2 ^ 32 → (1 ≤ k → pv = s.byteAt .inp (k - 1)) → Swept s (s.bytes .inp 0 k) h u m p →
    ∃ h' u' m' p' pv', analyzeSweep n (s.analysis h u m p (BitVec.ofNat 32 k) pv) =
        s.analysis h' u' m' p' (BitVec.ofNat 32 (k + n)) pv' ∧ Swept s (s.bytes .inp 0 (k + n)) h' u' m' p'
  | 0, k, h, u, m, p, pv, _, _, hs => ⟨h, u, m, p, pv, rfl, hs⟩
  | n + 1, k, h, u, m, p, pv, hk, hprev, hs => by
    obtain ⟨h', u', m', p', he, hs'⟩ := analyzeByte_swept (by omega) hprev hs
    obtain ⟨h2, u2, m2, p2, pv2, he2, hs2⟩ := analyzeSweep_swept n (k + 1) h' u' m' p' (s.byteAt .inp k) (by omega)
      (fun _ => rfl) hs'
    have hkn : k + 1 + n = k + (n + 1) := by omega
    rw [hkn] at he2 hs2
    exact ⟨h2, u2, m2, p2, pv2, by rw [analyzeSweep, he]; exact he2, hs2⟩

/-- What the tie rule makes of a finished sweep: only the pair can differ, and it is the pair the rule names (93 UB1). -/
def TieOk (t : TieRule) (l : List Byte) (m : Nat) (p : Byte × Byte) : Prop :=
  match t with
  | .firstToReachMax => Codec.FirstToReach l m p
  | .firstEncountered => Codec.FirstEncountered l m p
  | .lowestIndex => Codec.LowestIndex l m p

theorem firstPairWith_spec {e : Nat} {h : Hist} {m : Word} {P : Byte × Byte → Prop}
    (hP : ∀ a b, h.read e (pairIndex a b) = m ↔ P (a, b)) : ∀ l : List Byte,
    match firstPairWith e h m l with
    | some q => ∃ j, (Codec.pairs l)[j]? = some (q.a, q.b) ∧ P (q.a, q.b) ∧
        ∀ (i : Nat) (r : Byte × Byte), i < j → (Codec.pairs l)[i]? = some r → ¬P r
    | none => ∀ r ∈ Codec.pairs l, ¬P r
  | [] => by simp [firstPairWith, Codec.pairs]
  | [x] => by simp [firstPairWith, Codec.pairs]
  | x :: y :: rest => by
    rw [firstPairWith]
    by_cases hxy : h.read e (pairIndex x y) = m
    · rw [if_pos hxy]
      exact ⟨0, rfl, (hP x y).1 hxy, fun i r hi => by omega⟩
    · rw [if_neg hxy]
      have ih := firstPairWith_spec hP (y :: rest)
      rw [Codec.pairs_cons_cons]
      cases hf : firstPairWith e h m (y :: rest) with
      | none =>
        rw [hf] at ih
        intro r hr
        rcases List.mem_cons.1 hr with rfl | hr
        · exact fun hp => hxy ((hP x y).2 hp)
        · exact ih r hr
      | some q =>
        rw [hf] at ih
        obtain ⟨j, hj, hq, hlow⟩ := ih
        refine ⟨j + 1, by simpa using hj, hq, fun i r hi hr => ?_⟩
        cases i with
        | zero =>
          simp at hr
          subst hr
          exact fun hp => hxy ((hP x y).2 hp)
        | succ i => exact hlow i r (by omega) (by simpa using hr)

theorem pairOfIndex_pairIndex {k : Nat} (hk : k < 65536) : pairIndex (pairOfIndex k).a (pairOfIndex k).b = k := by
  simp only [pairIndex, pairOfIndex, BitVec.toNat_ofNat]
  omega

/-- The pair that goes to `PAIR` (00 R10, 93 UB1). -/
theorem breakTie_spec {s : State} {h : Hist} {u : Used} {m : Word} {p : Pair} {r : Word} {pv : Byte}
    (hs : Swept s s.input h u m p) :
    ∃ p', breakTie (s.analysis h u m p r pv) = s.analysis h u m p' r pv ∧
      (Codec.pairs s.input = [] → p' = ⟨0#8, 0#8⟩) ∧
      (Codec.pairs s.input ≠ [] → TieOk s.params.tie s.input m.toNat (p'.a, p'.b)) := by
  have hPm : ∀ a b, h.read s.epoch (pairIndex a b) = m ↔ Codec.pairCount s.input (a, b) = m.toNat := by
    intro a b
    rw [← hs.count]
    exact ⟨fun he => by rw [he], fun he => BitVec.eq_of_toNat_eq he⟩
  have hempty : Codec.pairs s.input = [] → p = ⟨0#8, 0#8⟩ := fun hn => by
    have := (hs.best.none hn).2
    obtain ⟨pa, pb⟩ := p
    simp only [Prod.mk.injEq] at this
    rw [this.1, this.2]
  have hinput : (s.analysis h u m p r pv).input = s.input := rfl
  unfold breakTie
  show ∃ p', (match s.params.tie with
    | .firstToReachMax => s.analysis h u m p r pv
    | .firstEncountered =>
      match firstPairWith s.epoch h m (s.analysis h u m p r pv).input with
      | some q => { s.analysis h u m p r pv with pair := q }
      | none => s.analysis h u m p r pv
    | .lowestIndex =>
      match h.cells.find? (fun c : Nat × Word => c.2 == m) with
      | some c => { s.analysis h u m p r pv with pair := pairOfIndex c.1 }
      | none => s.analysis h u m p r pv) = _ ∧ _
  rw [hinput]
  cases ht : s.params.tie with
  | firstToReachMax => exact ⟨p, rfl, hempty, fun hne => hs.best.first hne⟩
  | firstEncountered =>
    have hf := firstPairWith_spec (P := fun q => Codec.pairCount s.input q = m.toNat) hPm s.input
    cases hfp : firstPairWith s.epoch h m s.input with
    | none =>
      rw [hfp] at hf
      refine ⟨p, rfl, hempty, fun hne => ?_⟩
      have hfirst := hs.best.first hne
      have hc := hfirst.count hs.best.greatest
      obtain ⟨j, hj, _⟩ := hfirst
      exact absurd hc (hf _ (List.mem_of_getElem? hj))
    | some q =>
      rw [hfp] at hf
      refine ⟨q, rfl, fun hn => ?_, fun _ => hf⟩
      obtain ⟨j, hj, _⟩ := hf
      rw [hn] at hj
      simp at hj
  | lowestIndex =>
    cases hfc : h.cells.find? (fun c : Nat × Word => c.2 == m) with
    | none =>
      refine ⟨p, rfl, hempty, fun hne => ?_⟩
      have hfirst := hs.best.first hne
      have hc := (hPm p.a p.b).2 (hfirst.count hs.best.greatest)
      have hpos := hs.best.pos hne
      exfalso
      cases hr : cellRead h.cells (pairIndex p.a p.b) with
      | none =>
        simp only [Hist.read, hr, hs.histFill] at hc
        rw [← hc] at hpos
        simp at hpos
      | some v =>
        simp only [Hist.read, hr] at hc
        have := List.find?_eq_none.1 hfc _ (mem_of_cellRead hr)
        simp [hc] at this
    | some c =>
      obtain ⟨k, v⟩ := c
      have hmem := List.mem_of_find?_eq_some hfc
      have hv : v = m := by
        have := List.find?_some hfc
        simpa using this
      subst hv
      have hk := hs.histOk.2 _ hmem
      have hread : h.read s.epoch k = v := by
        simp only [Hist.read, cellRead_of_mem hs.histOk.1.1 hmem]
      have hidx := pairOfIndex_pairIndex hk
      have hcount : Codec.pairCount s.input ((pairOfIndex k).a, (pairOfIndex k).b) = v.toNat :=
        (hPm _ _).1 (by rw [hidx]; exact hread)
      have hvpos : 0 < v.toNat := by
        have hne := hs.histOk.1.2 hs.histFill _ hmem
        simp only at hne
        rcases Nat.eq_zero_or_pos v.toNat with h0 | h0
        · exact absurd (BitVec.eq_of_toNat_eq h0) hne
        · exact h0
      have hin : ((pairOfIndex k).a, (pairOfIndex k).b) ∈ Codec.pairs s.input :=
        Codec.pairCount_pos.1 (by omega)
      refine ⟨pairOfIndex k, rfl, fun hn => by rw [hn] at hin; simp at hin, fun _ => ⟨hin, hcount, fun q hq hqc => ?_⟩⟩
      rw [hidx]
      have hqr := (hPm q.1 q.2).2 hqc
      cases hr : cellRead h.cells (pairIndex q.1 q.2) with
      | none =>
        simp only [Hist.read, hr, hs.histFill] at hqr
        rw [← hqr] at hvpos
        simp at hvpos
      | some w =>
        simp only [Hist.read, hr] at hqr
        subst hqr
        have hm := mem_of_cellRead hr
        by_contra hlt
        rw [Nat.not_le] at hlt
        obtain ⟨as, bs, hab, hnone⟩ := (List.find?_eq_some_iff_append.1 hfc).2
        have hsorted := hs.histOk.1.1
        rw [hab] at hm
        rcases List.mem_append.1 hm with hm | hm
        · have := hnone _ hm
          simp at this
        · rcases List.mem_cons.1 hm with hm | hm
          · simp only [Prod.mk.injEq] at hm; omega
          · rw [hab] at hsorted
            have := (List.pairwise_cons.1 (List.pairwise_append.1 hsorted).2.1).1 _ hm
            simp only at this
            omega

/-- Everything ANALYZE does once `IN_LEN` has passed its test (40 R120 to R126). -/
theorem analyzeBody_spec (s : State) (hcap : s.inLen.toNat ≤ s.params.capIn.toNat) :
    ∃ h u m p pv, analyzeBody s = .ok (setPairValid (s.analysis h u m p s.inLen pv)) ∧
      HistOk h ∧ h.fill = .cleared ∧
      (∀ a b, (h.read s.epoch (pairIndex a b)).toNat = Codec.pairCount s.input (a, b)) ∧
      u.fill = .cleared ∧ (∀ v, u.read s.epoch v = decide (v ∈ s.input)) ∧
      (∀ q, Codec.pairCount s.input q ≤ m.toNat) ∧
      (Codec.pairs s.input = [] → m = 0#32 ∧ p = ⟨0#8, 0#8⟩) ∧
      (Codec.pairs s.input ≠ [] → 1 ≤ m.toNat ∧ TieOk s.params.tie s.input m.toNat (p.a, p.b)) := by
  have hlt := s.inLen.isLt
  have hc : checkInLen s = .ok s := by unfold checkInLen; rw [if_neg (by omega)]
  obtain ⟨h, u, m, p, pv, he, hs⟩ := analyzeSweep_swept (s := s) s.inLen.toNat 0 Hist.clear Used.clear 0#32 ⟨0#8, 0#8⟩
    s.prev (by omega) (by omega) (swept_nil s)
  rw [Nat.zero_add] at he hs
  rw [BitVec.ofNat_toNat, BitVec.setWidth_eq] at he
  obtain ⟨p', hb, hz, ht⟩ := breakTie_spec (r := s.inLen) (pv := pv) hs
  refine ⟨h, u, m, p', pv, ?_, hs.histOk, hs.histFill, hs.count, hs.usedFill, hs.used, hs.best.greatest,
    fun hn => ⟨BitVec.eq_of_toNat_eq (hs.best.none hn).1, hz hn⟩, fun hne => ⟨hs.best.pos hne, ht hne⟩⟩
  unfold analyzeBody
  rw [hc, Ran.ok_andThen]
  show Ran.ok (setPairValid (breakTie (analyzeSweep s.inLen.toNat
    (s.analysis Hist.clear Used.clear 0#32 ⟨0#8, 0#8⟩ (BitVec.ofNat 32 0) s.prev)))) = _
  rw [he, hb]

/-! ## SELECT -/

theorem mem_candidates {v : Byte} : v ∈ candidates ↔ 128 ≤ v.toNat ∧ v.toNat ≤ 254 := by
  have hv := v.isLt
  simp only [candidates, Config.subLo, Config.subHi, List.mem_map, List.mem_range'_1]
  constructor
  · rintro ⟨n, hn, rfl⟩
    rw [BitVec.toNat_ofNat]; omega
  · rintro ⟨h1, h2⟩
    exact ⟨v.toNat, by omega, by simp⟩

theorem freeFor_scan (s : State) (v w : Byte) : freeFor { s with scan := w } v = freeFor s v := rfl

/-- The scan keeps the first candidate that passes; `SCAN` ends at the last one (40 R135). -/
theorem selectScan_eq : ∀ (l : List Byte) (found : Option Byte) (s : State),
    selectScan l found s = (found.or (l.find? (freeFor s)), { s with scan := l.getLastD s.scan })
  | [], found, s => by cases found <;> rfl
  | v :: rest, found, s => by
    have hfree : freeFor { s with scan := v } = freeFor s := rfl
    rw [selectScan, selectScan_eq rest, hfree, List.getLastD_cons]
    refine Prod.ext ?_ rfl
    cases found with
    | some w => simp
    | none =>
      by_cases hv : freeFor s v = true
      · simp [hv]
      · simp [hv]

theorem candidates_sorted : candidates.Pairwise fun a b => a.toNat < b.toNat := by decide +kernel

/-- The scan finds the least free value of 128 to 254 (40 R135, R138). -/
theorem find_candidates (s : State) : Codec.LeastFree (freeFor s) (candidates.find? (freeFor s)) := by
  unfold Codec.LeastFree
  cases hf : candidates.find? (freeFor s) with
  | none =>
    intro w h1 h2
    have := List.find?_eq_none.1 hf w (mem_candidates.2 ⟨h1, h2⟩)
    simpa using this
  | some v =>
    obtain ⟨hv, as, bs, hab, hnone⟩ := List.find?_eq_some_iff_append.1 hf
    have hmem := mem_candidates.1 (List.mem_of_find?_eq_some hf)
    refine ⟨hmem.1, hmem.2, hv, fun w h1 h2 => ?_⟩
    have hw : w ∈ candidates := mem_candidates.2 ⟨h1, by omega⟩
    have hs := candidates_sorted
    rw [hab] at hw hs
    rcases List.mem_append.1 hw with hw | hw
    · simpa using hnone w hw
    · rcases List.mem_cons.1 hw with rfl | hw
      · omega
      · have := (List.pairwise_cons.1 (List.pairwise_append.1 hs).2.1).1 w hw
        omega

/-- Everything SELECT does (40 R135, R136). -/
theorem selectBody_eq (s : State) : selectBody s = .ok
    (if s.status.pairValid then writeChoice (candidates.find? (freeFor s)) { s with scan := 0xFE#8 }
      else writeChoice none s) := by
  have hlast : candidates.getLastD s.scan = 0xFE#8 := by
    have : candidates.getLast? = some 0xFE#8 := by decide +kernel
    rw [List.getLastD_eq_getLast?, this]; rfl
  unfold selectBody
  rw [selectScan_eq, hlast, Option.none_or]
  split <;> rfl

end Sys2Proof.Machine
end

