-- ==== Sys2Proof/Laws/Codec.lean ====
section
/-!
SUPPORT. The document's transforms on byte lists: their lengths (41 R156, R163; 42 R178; 43 R199) and their inverses
(41 R164; 42 R179).
-/

namespace Sys2Proof.Codec

/-! ## Substitution -/

theorem substituted_off (a b : Byte) (l : List Byte) : substituted Config.noSub a b l = l := by
  fun_induction substituted Config.noSub a b l <;> simp_all

theorem substituted_cons_ne {s a b x : Byte} (l : List Byte) (h : ¬(s ≠ Config.noSub ∧ x = a ∧ l.head? = some b)) :
    substituted s a b (x :: l) = x :: substituted s a b l := by
  cases l with
  | nil => rfl
  | cons y l => rw [substituted, if_neg (by simpa using h)]

theorem length_substituted_le (s a b : Byte) (l : List Byte) : (substituted s a b l).length ≤ l.length := by
  fun_induction substituted s a b l <;> (simp_all; try omega)

theorem le_length_substituted (s a b : Byte) (l : List Byte) : l.length ≤ 2 * (substituted s a b l).length := by
  fun_induction substituted s a b l <;> simp_all <;> omega

theorem restored_append (s a b : Byte) (xs ys : List Byte) :
    restored s a b (xs ++ ys) = restored s a b xs ++ restored s a b ys := by
  simp [restored]

theorem restored_off (a b : Byte) (l : List Byte) : restored Config.noSub a b l = l := by
  induction l with
  | nil => rfl
  | cons x l ih => simp_all [restored]

theorem restored_cons_sub {s : Byte} (a b : Byte) (l : List Byte) (h : s ≠ Config.noSub) :
    restored s a b (s :: l) = a :: b :: restored s a b l := by
  simp [restored, h]

theorem restored_cons_ne {s x : Byte} (a b : Byte) (l : List Byte) (h : x ≠ s) :
    restored s a b (x :: l) = x :: restored s a b l := by
  simp [restored, h]

theorem length_restored_le (s a b : Byte) (l : List Byte) : (restored s a b l).length ≤ 2 * l.length := by
  induction l with
  | nil => simp [restored]
  | cons x l ih =>
    rw [← List.singleton_append, restored_append, List.length_append]
    have : (restored s a b [x]).length ≤ 2 := by
      simp only [restored, List.flatMap_cons, List.flatMap_nil, List.append_nil]
      split <;> simp
    simp only [List.length_append, List.length_singleton]
    omega

/-- 41 R164: the reversal undoes the substitution when the substitute byte does not occur in the buffer. -/
theorem restored_substituted {s : Byte} (a b : Byte) {l : List Byte} (h : s ∉ l) :
    restored s a b (substituted s a b l) = l := by
  fun_induction substituted s a b l with
  | case1 => rfl
  | case2 x => simpa [restored] using fun _ hx => absurd (by simp [hx]) h
  | case3 x y rest hs ih =>
    obtain ⟨hs, rfl, rfl⟩ := hs
    rw [restored_cons_sub _ _ _ hs, ih (by simp_all)]
  | case4 x y rest hs ih =>
    rw [restored_cons_ne _ _ _ (by rintro rfl; simp at h), ih (by simp_all)]

/-! ## Run-length encoding -/

/-- How many of the leading bytes equal `v`, counting to `n` at most. -/
def lead (v : Byte) : Nat → List Byte → Nat
  | 0, _ => 0
  | _ + 1, [] => 0
  | n + 1, x :: rest => if x = v then lead v n rest + 1 else 0

theorem lead_le (v : Byte) (n : Nat) (l : List Byte) : lead v n l ≤ n := by
  fun_induction lead v n l <;> omega

theorem lead_le_length (v : Byte) (n : Nat) (l : List Byte) : lead v n l ≤ l.length := by
  fun_induction lead v n l <;> simp_all

/-- The encoder's next piece: the run goes on for its leading equal bytes, at most 255 in all (42 R172, R173). -/
theorem encodeFrom_eq (v : Byte) : ∀ (n : Nat) (l : List Byte), n ≤ 255 →
    encodeFrom v n l = encodeRun v (n + lead v (255 - n) l) ++ encoded (l.drop (lead v (255 - n) l))
  | n, [], _ => by cases h : 255 - n <;> simp [encodeFrom, lead, encoded]
  | n, x :: rest, hn => by
    rw [encodeFrom]
    by_cases h : x = v ∧ n < Config.runCap
    · obtain ⟨hx, hlt⟩ := h
      have hlt' : n < 255 := hlt
      obtain ⟨k, hk⟩ : ∃ k, 255 - n = k + 1 := ⟨254 - n, by omega⟩
      have hk' : 255 - (n + 1) = k := by omega
      rw [if_pos ⟨hx, hlt⟩, encodeFrom_eq v (n + 1) rest (by omega), hk, lead, if_pos hx, hk', List.drop_succ_cons]
      congr 2; omega
    · rw [if_neg h]
      have h0 : lead v (255 - n) (x :: rest) = 0 := by
        cases hk : 255 - n with
        | zero => rfl
        | succ k =>
          have hlt : n < Config.runCap := by unfold Config.runCap; omega
          rw [lead, if_neg fun hx => h ⟨hx, hlt⟩]
      rw [h0, Nat.add_zero, List.drop_zero]; rfl

theorem length_encodeRun_le (v : Byte) {n : Nat} (hn : 1 ≤ n) :
    (encodeRun v n).length ≤ 2 * n + (if v = Config.rleMarker then 1 else 0) := by
  unfold encodeRun Config.litMax
  split <;> split <;> simp_all <;> omega

theorem length_encodeRun_le_of_ne {v : Byte} (hv : v ≠ Config.rleMarker) (n : Nat) : (encodeRun v n).length ≤ n := by
  unfold encodeRun Config.litMax
  split
  · simp_all; omega
  · simp

theorem length_encodeFrom_le (v : Byte) : ∀ (n : Nat) (l : List Byte), 1 ≤ n →
    (encodeFrom v n l).length ≤ 2 * (n + l.length) + (if v = Config.rleMarker then 1 else 0)
  | n, [], hn => by simpa [encodeFrom] using length_encodeRun_le v hn
  | n, x :: rest, hn => by
    rw [encodeFrom]
    split
    · have h := length_encodeFrom_le v (n + 1) rest (by omega)
      simp only [List.length_cons]
      omega
    · rename_i hx
      rw [List.length_append, List.length_cons]
      have h := length_encodeFrom_le x 1 rest (by omega)
      have hr := length_encodeRun_le v hn
      by_cases hv : v = Config.rleMarker
      · rw [if_pos hv] at hr ⊢
        by_cases hxm : x = Config.rleMarker
        · have h255 : 255 ≤ n := Nat.le_of_not_lt fun hlt => hx ⟨hxm.trans hv.symm, hlt⟩
          have h3 : (encodeRun v n).length = 3 := by simp [encodeRun, hv]
          rw [if_pos hxm] at h
          omega
        · rw [if_neg hxm] at h; omega
      · have hle := length_encodeRun_le_of_ne hv n
        rw [if_neg hv]
        split at h <;> omega

/-- 42 R178. -/
theorem length_encoded_le (l : List Byte) : (encoded l).length ≤ 2 * l.length + 1 := by
  cases l with
  | nil => simp [encoded]
  | cons x rest =>
    have := length_encodeFrom_le x 1 rest (by omega)
    rw [encoded, List.length_cons]
    split at this <;> omega

theorem length_encodeFrom_le_of_ne (v : Byte) : ∀ (n : Nat) (l : List Byte), v ≠ Config.rleMarker →
    Config.rleMarker ∉ l → (encodeFrom v n l).length ≤ n + l.length
  | n, [], hv, _ => by simpa [encodeFrom] using length_encodeRun_le_of_ne hv n
  | n, x :: rest, hv, hl => by
    have hx : x ≠ Config.rleMarker := fun h => hl (by simp [h])
    have hr : Config.rleMarker ∉ rest := fun h => hl (by simp [h])
    rw [encodeFrom, List.length_cons]
    split
    · have := length_encodeFrom_le_of_ne v (n + 1) rest hv hr; omega
    · rw [List.length_append]
      have := length_encodeFrom_le_of_ne x 1 rest hx hr
      have := length_encodeRun_le_of_ne hv n
      omega

/-- 42 R178: without a marker byte the encoding is no longer than the buffer. -/
theorem length_encoded_le_of_notMem {l : List Byte} (h : Config.rleMarker ∉ l) : (encoded l).length ≤ l.length := by
  cases l with
  | nil => simp [encoded]
  | cons x rest =>
    have := length_encodeFrom_le_of_ne x 1 rest (fun hx => h (by simp [hx])) fun hx => h (by simp [hx])
    rw [encoded, List.length_cons]; omega

/-! ## Run-length decoding -/

theorem expand_lit {m x : Byte} (pos : Nat) (rest : List Byte) (h : x ≠ m) :
    expand m pos (x :: rest) = (x :: (expand m (pos + 1) rest).1, (expand m (pos + 1) rest).2) := by
  match rest with
  | [] => simp [expand, h]
  | [y] => simp [expand, h]
  | c :: v :: rest => simp [expand, h]

theorem expand_run (m c v : Byte) (pos : Nat) (rest : List Byte) :
    expand m pos (m :: c :: v :: rest) =
      (List.replicate c.toNat v ++ (expand m (pos + 3) rest).1, (expand m (pos + 3) rest).2) := by
  simp [expand]

theorem expand_replicate {m v : Byte} (h : v ≠ m) : ∀ (n pos : Nat) (rest : List Byte),
    expand m pos (List.replicate n v ++ rest) =
      (List.replicate n v ++ (expand m (pos + n) rest).1, (expand m (pos + n) rest).2)
  | 0, pos, rest => by simp
  | n + 1, pos, rest => by
    rw [List.replicate_succ, List.cons_append, expand_lit pos _ h, expand_replicate h n (pos + 1) rest]
    simp [Nat.add_assoc, Nat.add_comm 1 n]

/-- The decoder undoes one piece of the encoder (42 R179). -/
theorem expand_encodeRun (v : Byte) {n : Nat} (hn : n ≤ 255) (pos : Nat) (rest : List Byte) :
    expand Config.rleMarker pos (encodeRun v n ++ rest) =
      (List.replicate n v ++ (expand Config.rleMarker (pos + (encodeRun v n).length) rest).1,
        (expand Config.rleMarker (pos + (encodeRun v n).length) rest).2) := by
  unfold encodeRun
  split
  · have : n % 2 ^ 8 = n := Nat.mod_eq_of_lt (by omega)
    simp only [List.cons_append, List.nil_append, List.length_cons, List.length_nil]
    rw [expand_run, BitVec.toNat_ofNat, this]
  · rename_i h
    rw [expand_replicate (fun hv => h (.inr hv)), List.length_replicate]

theorem expand_encodeFrom : ∀ (l : List Byte) (v : Byte) (n pos : Nat), n ≤ 255 →
    expand Config.rleMarker pos (encodeFrom v n l) = (List.replicate n v ++ l, none)
  | [], v, n, pos, hn => by
    rw [encodeFrom, ← List.append_nil (encodeRun v n), expand_encodeRun v hn]
    simp [expand]
  | x :: rest, v, n, pos, hn => by
    rw [encodeFrom]
    split
    · rename_i h
      have hlt : n < 255 := h.2
      rw [expand_encodeFrom rest v (n + 1) pos (by omega), h.1, List.replicate_succ']
      simp
    · rw [expand_encodeRun v hn, expand_encodeFrom rest x 1 _ (by omega)]
      simp

/-- 42 R179: the decoder undoes the encoder. -/
theorem expand_encoded (l : List Byte) (pos : Nat) : expand Config.rleMarker pos (encoded l) = (l, none) := by
  cases l with
  | nil => simp [encoded, expand]
  | cons x rest => rw [encoded, expand_encodeFrom rest x 1 pos (by omega)]; rfl

/-- 43 R199: how long an expansion can be. -/
theorem length_expand_le (m : Byte) (pos : Nat) (l : List Byte) :
    (expand m pos l).1.length ≤ 255 * (l.length / 3) + l.length % 3 := by
  fun_induction expand m pos l with
  | case1 => simp
  | case2 => simp
  | case3 => simp
  | case4 => simp
  | case5 pos x y h r ih =>
    simp only [List.length_cons, List.length_nil, r] at ih ⊢; omega
  | case6 pos c v rest r ih =>
    have := c.isLt
    simp only [List.length_append, List.length_replicate, List.length_cons, r] at ih ⊢
    omega
  | case7 pos x c v rest h r ih =>
    simp only [List.length_cons, r] at ih ⊢
    omega

end Sys2Proof.Codec
end

