-- ==== Sys2Proof/Laws/Decode.lean ====
section
/-!
SUPPORT. The decoders and the word-and-byte helpers: the value of a register word made of bytes, and both directions of the
command codes.
-/

namespace Sys2Proof

theorem toNat_append4 (a b c d : Byte) :
    (d ++ c ++ b ++ a : BitVec (8 + 8 + 8 + 8)).toNat =
      d.toNat * 2 ^ 24 + c.toNat * 2 ^ 16 + b.toNat * 2 ^ 8 + a.toNat := by
  have ha := a.isLt
  have hb := b.isLt
  have hc := c.isLt
  rw [BitVec.toNat_append, BitVec.toNat_append, BitVec.toNat_append,
    ← Nat.shiftLeft_add_eq_or_of_lt ha, ← Nat.shiftLeft_add_eq_or_of_lt hb, ← Nat.shiftLeft_add_eq_or_of_lt hc]
  simp only [Nat.shiftLeft_eq]
  omega

/-- The little-endian value of four bytes (20 R64). -/
theorem toNat_wordOfBytes (a b c d : Byte) :
    (wordOfBytes a b c d).toNat = d.toNat * 2 ^ 24 + c.toNat * 2 ^ 16 + b.toNat * 2 ^ 8 + a.toNat :=
  toNat_append4 a b c d

theorem bytesOfWord_wordOfBytes (a b c d : Byte) : bytesOfWord (wordOfBytes a b c d) = [a, b, c, d] := by
  have h := toNat_wordOfBytes a b c d
  have ha := a.isLt
  have hb := b.isLt
  have hc := c.isLt
  have hd := d.isLt
  unfold bytesOfWord
  simp only [List.cons.injEq, and_true]
  refine ⟨?_, ?_, ?_, ?_⟩ <;> apply BitVec.eq_of_toNat_eq <;>
    rw [BitVec.extractLsb'_toNat, h, Nat.shiftRight_eq_div_pow] <;> omega

theorem wordOfBytes_bytesOfWord (w : Word) :
    wordOfBytes (w.extractLsb' 0 8) (w.extractLsb' 8 8) (w.extractLsb' 16 8) (w.extractLsb' 24 8) = w := by
  apply BitVec.eq_of_toNat_eq
  have hw := w.isLt
  simp only [toNat_wordOfBytes, BitVec.extractLsb'_toNat, Nat.shiftRight_eq_div_pow]
  omega

/-- Decoding at the doorbell is decoding the word (30 R103). -/
theorem decode_cmd_bytesOfWord (w : Word) (rest : List Byte) :
    decode .cmd (bytesOfWord w ++ rest) =
      match decodeCommand w with
      | .ok i => .ok (i, rest)
      | .error e => .error e := by
  show (match decodeCommand (wordOfBytes (w.extractLsb' 0 8) (w.extractLsb' 8 8) (w.extractLsb' 16 8)
    (w.extractLsb' 24 8)) with | .ok i => _ | .error e => _) = _
  rw [wordOfBytes_bytesOfWord]
  rfl

theorem decode_cmd_ok {w : Word} {i : Instr} :
    decode .cmd (bytesOfWord w) = .ok (i, []) ↔ decodeCommand w = .ok i := by
  have h := decode_cmd_bytesOfWord w []
  rw [List.append_nil] at h
  rw [h]
  cases decodeCommand w <;> simp

theorem decodeHeader_bad {a b c : Byte} {rest : List Byte}
    (h : ¬(a = Config.magic0 ∧ b = Config.magic1 ∧ c = Config.magic2)) :
    decodeHeader (a :: b :: c :: rest) = .error .badMagic := by
  simp [decodeHeader, h]

theorem decodeHeader_short {a b c : Byte} {rest : List Byte}
    (h : a = Config.magic0 ∧ b = Config.magic1 ∧ c = Config.magic2) (hl : rest.length < 4) :
    decodeHeader (a :: b :: c :: rest) = .error .shortHeader := by
  match rest, hl with
  | [], _ | [_], _ | [_, _], _ | [_, _, _], _ => simp [decodeHeader, h]
  | _ :: _ :: _ :: _ :: _, hl => simp only [List.length_cons] at hl; omega

theorem decodeHeader_ok {a b c : Byte} (s x y m : Byte) (rest : List Byte)
    (h : a = Config.magic0 ∧ b = Config.magic1 ∧ c = Config.magic2) :
    decodeHeader (a :: b :: c :: s :: x :: y :: m :: rest) = .ok (⟨s, x, y, m⟩, rest) := by
  simp [decodeHeader, h]

theorem commandHigh_eq_zero {w : Word} : commandHigh w = 0#28 ↔ w.toNat < 16 := by
  have hw := w.isLt
  constructor
  · intro h
    have := congrArg BitVec.toNat h
    simp only [commandHigh, BitVec.extractLsb'_toNat, Nat.shiftRight_eq_div_pow] at this
    simp at this
    omega
  · intro h
    apply BitVec.eq_of_toNat_eq
    simp only [commandHigh, BitVec.extractLsb'_toNat, Nat.shiftRight_eq_div_pow]
    simp
    omega

theorem toNat_commandOp (w : Word) : (commandOp w).toNat = w.toNat % 16 := by
  simp [commandOp, BitVec.extractLsb'_toNat]

/-- A word below 16 decodes by its value (30 R102, R104). -/
theorem decodeCommand_of_lt {w : Word} (h : w.toNat < 16) :
    decodeCommand w =
      match commandOfOp (commandOp w) with
      | some i => .ok i
      | none => .error (.reservedCommand w) := by
  exact (if_neg (not_not.2 (commandHigh_eq_zero.2 h))).trans rfl

/-- The reserved words (30 R105). -/
theorem decodeCommand_reserved {w : Word} (h : w.toNat = 0 ∨ 11 ≤ w.toNat) :
    decodeCommand w = .error (.reservedCommand w) := by
  unfold decodeCommand
  split
  · rfl
  · rename_i hz
    have hlt := commandHigh_eq_zero.1 (not_not.1 hz)
    have hop : (commandOp w).toNat = w.toNat := by rw [toNat_commandOp]; omega
    have hnone : commandOfOp (commandOp w) = none := by
      unfold commandOfOp
      rw [hop]
      split <;> first | rfl | omega
    rw [hnone]

/-- A word that decodes is the encoding of what it decodes to (30 R104). -/
theorem encode_of_decodeCommand {w : Word} {i : Instr} (h : decodeCommand w = .ok i) (m : Byte) :
    i.port m = .cmd ∧ WellFormed m i = true ∧ encode m i = bytesOfWord w := by
  have hlt : w.toNat < 16 := by
    by_contra hge
    rw [decodeCommand_reserved (by omega)] at h
    cases h
  have hw : w = BitVec.ofNat 32 w.toNat := by simp
  have hop : (commandOp w).toNat = w.toNat := by rw [toNat_commandOp]; omega
  rw [decodeCommand_of_lt hlt] at h
  unfold commandOfOp at h
  rw [hop] at h
  generalize w.toNat = n at *
  subst hw
  split at h
  · rename_i j hj
    cases h
    split at hj <;> first | (cases hj; exact ⟨rfl, rfl, rfl⟩) | cases hj
  · cases h

end Sys2Proof
end

