-- ==== Sys2Proof/Laws/Step.lean ====
section
/-!
SUPPORT. What one step is, by the schedule and by what the core is doing.
-/

namespace Sys2Proof.Machine

variable {s : State}

theorem step_nil (h : s.schedule = []) : step s = coreMove .whole s := by
  unfold step; rw [h]

theorem step_core {g : Grain} {rest : List Move} (h : s.schedule = .core g :: rest) :
    step s = coreMove g { s with schedule := rest } := by
  unfold step; rw [h]

theorem step_host {op : HostOp} {rest : List Move} (h : s.schedule = .host op :: rest) :
    step s = hostMove op { s with schedule := rest } := by
  unfold step; rw [h]

theorem run_succ_next (M : Host.Core) {n : Nat} {s t : M.State} (h : M.step s = .next t) :
    M.run (n + 1) s = M.run n t := by
  rw [Host.Core.run, h]

/-- A run goes on from where its first step leads. -/
theorem run_succ {t : State} (n : Nat) (h : step s = .next t) : Host.Core.run core (n + 1) s = Host.Core.run core n t :=
  run_succ_next core h

theorem run_zero : Host.Core.run core 0 s = .next s := rfl

theorem coreMove_idle (g : Grain) (h : s.activity = .idle) : coreMove g s = .next s := by
  unfold coreMove; rw [h]

theorem coreMove_started (g : Grain) {w : Word} (h : s.activity = .started w) :
    coreMove g s = moveStarted g w s := by
  unfold coreMove; rw [h]

theorem coreMove_header (g : Grain) {c : Bool} (h : s.activity = .header c) : coreMove g s = moveHeader c s := by
  unfold coreMove; rw [h]

theorem coreMove_loaded (g : Grain) {c : Bool} (h : s.activity = .loaded c) : coreMove g s = moveLoaded c s := by
  unfold coreMove; rw [h]

theorem coreMove_stream (g : Grain) {c : Bool} (h : s.activity = .stream c) : coreMove g s = moveStream c s := by
  unfold coreMove; rw [h]

theorem moveStarted_whole {w : Word} {i : Instr} (h : decodeCommand w = .ok i) : moveStarted .whole w s = exec i s := by
  unfold moveStarted; rw [h]

theorem moveStarted_form {w : Word} {i : Instr} (h : decodeCommand w = .ok i) : moveStarted .form w s = enterByForm i s := by
  unfold moveStarted; rw [h]

theorem moveStarted_reserved (g : Grain) {w : Word} (h : w.toNat = 0 ∨ 11 ≤ w.toNat) :
    moveStarted g w s = .next (s.begin.errorComplete .illegalCommand w) := by
  unfold moveStarted; rw [decodeCommand_reserved h]

theorem checkInLen_ok (h : s.inLen.toNat ≤ s.params.capIn.toNat) : checkInLen s = .ok s := by
  unfold checkInLen; rw [if_neg (Nat.not_lt.2 h)]

theorem checkInLen_raised (h : s.params.capIn.toNat < s.inLen.toNat) :
    checkInLen s = .raised .capacityExceeded 0#32 s := by
  unfold checkInLen; rw [if_pos h]

/-- PARSE's tests once `IN_LEN` has passed its own (44 R213). -/
theorem parseTests_eq (h : s.inLen.toNat ≤ s.params.capIn.toNat) :
    parseTests s =
      match decodeHeader (fetchHeader s) with
      | .ok (h, _) => .ok h
      | .error .shortHeader => .error (.invalidFormat, 1#32)
      | .error _ => .error (.invalidFormat, 0#32) := by
  unfold parseTests; exact checkInLen_ok h ▸ rfl

theorem moveHeader_ok {c : Bool} {h : Hdr} (hp : parseTests s = .ok h) :
    moveHeader c s = exec (.hdr h) { s with activity := .loaded c } := by
  unfold moveHeader; rw [hp]

theorem moveHeader_error {c : Bool} {e : ErrorKind} {w : Word} (hp : parseTests s = .error (e, w)) :
    moveHeader c s = .next (s.errorComplete e w) := by
  unfold moveHeader; rw [hp]

theorem moveForm_ok {f : Form} {rest : List Byte} (h : decodeForm s.hdr.marker (fetchForm s) = .ok (f, rest)) :
    moveForm s = exec f.toInstr s := by
  unfold moveForm; rw [h]

theorem moveForm_error {e : DecodeError} (h : decodeForm s.hdr.marker (fetchForm s) = .error e) :
    moveForm s = .next (s.errorComplete .corruptedStream s.rp) := by
  unfold moveForm; rw [h]

theorem moveStream_more (c : Bool) (h : s.more .inp = true) : moveStream c s = moveForm s := by
  unfold moveStream; rw [if_pos h]

theorem moveStream_end (c : Bool) (h : s.more .inp = false) :
    moveStream c s = if c then .next (stage 3#4 unsubstBody s).finish else .next s.complete := by
  unfold moveStream; simp [h]

end Sys2Proof.Machine
end

