-- ==== Sys2Proof/Laws/Framer.lean ====
section
/-!
SUPPORT. FRAME and PARSE: the bytes FRAME leaves (44 R210) and PARSE's tests in terms of the input (44 R213 to R216).
-/

namespace Sys2Proof.Machine

theorem writeOut_eq (i : Nat) (ys : List Byte) (s : State) :
    writeOut i ys s = { s with bufOut := writeAll s.bufOut i ys } := by
  induction ys generalizing i s with
  | nil => rfl
  | cons y ys ih => rw [writeOut, ih]; rfl

/-- The state FRAME's body leaves (44 R210). -/
theorem frameBody_eq (s : State) :
    frameBody s = .ok { s with bufOut := writeAll s.bufOut 0 (headerBytes (framedHeader s)), outLen := 7#32 } := by
  unfold frameBody
  rw [writeOut_eq]
  rfl

/-- PARSE's tests with the cases of 44 R213 apart. -/
theorem parseTests_cases (s : State) :
    (s.params.capIn.toNat < s.inLen.toNat ∧ parseTests s = .error (.capacityExceeded, 0#32)) ∨
    (s.inLen.toNat ≤ s.params.capIn.toNat ∧ s.input.take 3 ≠ [Config.magic0, Config.magic1, Config.magic2] ∧
      parseTests s = .error (.invalidFormat, 0#32)) ∨
    (s.inLen.toNat ≤ s.params.capIn.toNat ∧ s.input.take 3 = [Config.magic0, Config.magic1, Config.magic2] ∧
      s.inLen.toNat < 7 ∧ parseTests s = .error (.invalidFormat, 1#32)) ∨
    (s.inLen.toNat ≤ s.params.capIn.toNat ∧ s.input.take 3 = [Config.magic0, Config.magic1, Config.magic2] ∧
      7 ≤ s.inLen.toNat ∧ parseTests s = .ok ⟨s.byteAt .inp 3, s.byteAt .inp 4, s.byteAt .inp 5, s.byteAt .inp 6⟩) := by
  rcases Nat.lt_or_ge s.params.capIn.toNat s.inLen.toNat with h | h
  · left
    refine ⟨h, ?_⟩
    unfold parseTests
    rw [checkInLen_raised h]
  · right
    have htake : s.input.take 3 = s.bytes .inp 0 (min 3 s.inLen.toNat) := State.take_bytes s .inp 0 _ 3
    rw [htake, parseTests_eq h]
    unfold fetchHeader Config.hdrLen
    rcases Nat.lt_or_ge s.inLen.toNat 3 with h3 | h3
    · left
      refine ⟨h, fun he => ?_, ?_⟩
      · have := congrArg List.length he
        rw [State.length_bytes] at this
        simp at this
        omega
      · have hm : min 7 s.inLen.toNat = s.inLen.toNat := by omega
        rw [hm]
        have : s.inLen.toNat = 0 ∨ s.inLen.toNat = 1 ∨ s.inLen.toNat = 2 := by omega
        rcases this with h | h | h <;> rw [h] <;> rfl
    · have hm3 : min 3 s.inLen.toNat = 3 := by omega
      rw [hm3]
      obtain ⟨k, hk⟩ : ∃ k, min 7 s.inLen.toNat = k + 3 := ⟨min 7 s.inLen.toNat - 3, by omega⟩
      rw [hk]
      have h3 : s.bytes .inp 0 3 = [s.byteAt .inp 0, s.byteAt .inp 1, s.byteAt .inp 2] := by simp [State.bytes_succ]
      have hk3 : s.bytes .inp 0 (k + 3) =
          s.byteAt .inp 0 :: s.byteAt .inp 1 :: s.byteAt .inp 2 :: s.bytes .inp 3 k := by simp [State.bytes_succ]
      rw [h3, hk3]
      by_cases hm : s.byteAt .inp 0 = Config.magic0 ∧ s.byteAt .inp 1 = Config.magic1 ∧ s.byteAt .inp 2 = Config.magic2
      · right
        have hl : [s.byteAt .inp 0, s.byteAt .inp 1, s.byteAt .inp 2] = [Config.magic0, Config.magic1, Config.magic2] := by
          rw [hm.1, hm.2.1, hm.2.2]
        rcases Nat.lt_or_ge s.inLen.toNat 7 with h7 | h7
        · left
          rw [decodeHeader_short hm (by rw [State.length_bytes]; omega)]
          exact ⟨h, hl, h7, rfl⟩
        · right
          have hk4 : k = 4 := by omega
          have h4 : s.bytes .inp 3 4 = [s.byteAt .inp 3, s.byteAt .inp 4, s.byteAt .inp 5, s.byteAt .inp 6] := by
            simp [State.bytes_succ]
          rw [hk4, h4, decodeHeader_ok _ _ _ _ _ hm]
          exact ⟨h, hl, h7, rfl⟩
      · left
        rw [decodeHeader_bad hm]
        refine ⟨h, fun hl => hm ?_, rfl⟩
        simpa using hl

/-- What PARSE's body does (44 R213). -/
theorem parseBody_ok {s : State} {h : Hdr} (hp : parseTests s = .ok h) : parseBody s = .ok (loadHeader h s) := by
  unfold parseBody; rw [hp]

theorem parseBody_error {s : State} {e : ErrorKind} {w : Word} (hp : parseTests s = .error (e, w)) :
    parseBody s = .raised e w s := by
  unfold parseBody; rw [hp]

end Sys2Proof.Machine
end

