-- ==== Sys2Proof/Laws/Keeps.lean ====
section
/-!
SUPPORT. What the commands' bodies keep: a property that survives the few state changes bodies are made of holds wherever a
body ends. ANALYZE is covered by its own lemma (Laws/Analyzer.lean).
-/

namespace Sys2Proof.Machine

/-- `P` survives every change that SUBST, UNSUBST, RLEENC, RLEDEC, FRAME and PHASE make. -/
structure Closed (P : State → Prop) : Prop where
  append : ∀ s sp v, sp ≠ .inp → s.len sp ≠ s.cap sp → P s →
    P ((s.writeByte sp (s.len sp).toNat v).setLen sp (s.len sp + 1#32))
  cursors : ∀ s r n v, P s → P (s.cursors r n v)
  emptyWork : ∀ s, P s → P { s with workLen := 0#32 }
  emptyOut : ∀ s, P s → P { s with outLen := 0#32 }
  frame : ∀ s, P s → P { s with bufOut := writeAll s.bufOut 0 (headerBytes (framedHeader s)), outLen := 7#32 }
  phase : ∀ s p, P s → P { s with phase := p }
  scan : ∀ s v, P s → P { s with scan := v }
  hdr : ∀ s h, P s → P { s with hdr := h }

variable {P : State → Prop}

theorem Ran.Ends.bind {P : State → Prop} {r : Ran} {f : State → Ran} (hr : r.Ends P) (hf : ∀ s, P s → (f s).Ends P) :
    (r.andThen f).Ends P := Ran.Ends.andThen hr hf fun _ h => h

theorem Ran.Ends.imp {P Q : State → Prop} {r : Ran} (hr : r.Ends P) (h : ∀ s, P s → Q s) : r.Ends Q := by
  cases r with
  | ok s => exact h s hr
  | raised e w s => exact h s hr

/-- Where a stretch that ends in `P` and one that ends in `Q` are the same, it ends in both. -/
theorem Ran.Ends.and {P Q : State → Prop} {r : Ran} (hp : r.Ends P) (hq : r.Ends Q) : r.Ends fun s => P s ∧ Q s := by
  cases r with
  | ok s => exact ⟨hp, hq⟩
  | raised e w s => exact ⟨hp, hq⟩

theorem append_ends (hc : Closed P) {sp : Space} (hsp : sp ≠ .inp) (v : Byte) (s : State) (h : P s) :
    (append sp v s).Ends P := by
  unfold append
  split
  · exact h
  · rename_i hne
    exact hc.append s sp v hsp hne h

theorem advance_ends (hc : Closed P) (n : Nat) (s : State) (h : P s) : (Ran.ok (s.advance n)).Ends P :=
  hc.cursors s _ s.runLen s.curV h

theorem checkInLen_ends (s : State) (h : P s) : (checkInLen s).Ends P := by
  unfold checkInLen; split <;> exact h

theorem substBody_ends (hc : Closed P) (s : State) (h : P s) : (substBody s).Ends P := by
  refine (checkInLen_ends s h).bind fun s h => whileLoop_ends (fun s _ h => ?_) _ _ ?_
  · unfold substIter
    split
    · exact (append_ends hc (by decide) _ s h).bind (advance_ends hc 2)
    · exact (append_ends hc (by decide) _ s h).bind (advance_ends hc 1)
  · exact hc.cursors _ _ s.runLen s.curV (hc.emptyWork s h)

theorem unsubstBody_ends (hc : Closed P) (s : State) (h : P s) : (unsubstBody s).Ends P := by
  refine whileLoop_ends (fun s _ h => ?_) _ _ (hc.cursors _ _ s.runLen s.curV (hc.emptyOut s h))
  refine Ran.Ends.bind ?_ (advance_ends hc 1)
  split
  · exact (append_ends hc (by decide) _ s h).bind (append_ends hc (by decide) _)
  · exact append_ends hc (by decide) _ s h

theorem rleencBody_ends (hc : Closed P) (s : State) (h : P s) : (rleencBody s).Ends P := by
  refine whileLoop_ends (fun s _ h => ?_) _ _ (hc.cursors _ _ s.runLen s.curV h)
  unfold rleencIter
  refine Ran.Ends.bind (Ran.Ends.bind ?_ fun s h => ?_) fun s h => advance_ends hc _ s h
  · refine whileLoop_ends (b := fun s => .ok { s with runLen := s.runLen + 1#8 }) (fun s _ h => ?_) _ _
      (hc.cursors s s.rp _ _ h)
    exact hc.cursors s s.rp (s.runLen + 1#8) s.curV h
  · unfold emitRun
    split
    · exact ((append_ends hc (by decide) _ s h).bind (append_ends hc (by decide) _)).bind
        fun s h => append_ends hc (by decide) _ s h
    · exact repeatTimes_ends (append_ends hc (by decide) _) _ s h

theorem formBody_ends (hc : Closed P) (f : Form) (s : State) (h : P s) : (formBody f s).Ends P := by
  cases f with
  | run c v =>
    refine Ran.Ends.bind (repeatTimes_ends (fun s h => ?_) _ _ (hc.cursors s s.rp c v h)) (advance_ends hc 3)
    exact (append_ends hc (by decide) _ s h).bind fun s h => hc.cursors s s.rp _ s.curV h
  | lit b => exact (append_ends hc (by decide) _ s h).bind (advance_ends hc 1)

theorem rledecEnter_ends (hc : Closed P) (s : State) (h : P s) : (rledecEnter s).Ends P :=
  (checkInLen_ends s h).bind fun s h => hc.cursors _ _ s.runLen s.curV (hc.emptyWork s h)

theorem rledecIter_ends (hc : Closed P) (s : State) (h : P s) : (rledecIter s).Ends P := by
  unfold rledecIter
  split
  · exact h
  · exact formBody_ends hc _ s h

theorem rledecBody_ends (hc : Closed P) (s : State) (h : P s) : (rledecBody s).Ends P :=
  (rledecEnter_ends hc s h).bind fun s h => whileLoop_ends (fun s _ h => rledecIter_ends hc s h) _ s h

theorem frameBody_ends (hc : Closed P) (s : State) (h : P s) : (frameBody s).Ends P := by
  rw [frameBody_eq]; exact hc.frame s h

theorem parseBody_ends (hc : Closed P) (s : State) (h : P s) : (parseBody s).Ends P := by
  unfold parseBody
  split
  · exact hc.hdr s _ h
  · exact h

theorem selectBody_ends (hc : Closed P) (s : State) (h : P s) : (selectBody s).Ends P := by
  have hw : ∀ r s, P s → P (writeChoice r s) := fun r s h => by cases r <;> exact hc.hdr s _ h
  rw [selectBody_eq]
  show P _
  split
  · exact hw _ _ (hc.scan s _ h)
  · exact hw _ _ h

/-- COMPRESS keeps what ANALYZE also keeps. -/
theorem compressBody_ends (hc : Closed P) (ha : ∀ s, P s → (analyzeBody s).Ends P) (s : State) (h : P s) :
    (compressBody s).Ends P :=
  ((((ha _ (hc.phase s _ h)).bind fun s h => selectBody_ends hc _ (hc.phase s _ h)).bind
    fun s h => substBody_ends hc _ (hc.phase s _ h)).bind fun s h => frameBody_ends hc _ (hc.phase s _ h)).bind
    fun s h => rleencBody_ends hc _ (hc.phase s _ h)

theorem decompressBody_ends (hc : Closed P) (s : State) (h : P s) : (decompressBody s).Ends P :=
  ((parseBody_ends hc _ (hc.phase s _ h)).bind fun s h => rledecBody_ends hc _ (hc.phase s _ h)).bind
    fun s h => unsubstBody_ends hc _ (hc.phase s _ h)

end Sys2Proof.Machine
end

