-- ==== Sys2Proof/Laws/Loops.lean ====
section
/-!
SUPPORT. The loops of the units (41 R150, R160; 42 R170) as the document's functions on byte lists: each delivers what the
function gives, or raises CapacityExceeded.
-/

namespace Sys2Proof.Machine

theorem State.more_true {s : State} {sp : Space} (h : s.rp.toNat < (s.len sp).toNat) : s.more sp = true := by
  simpa [State.more] using h

theorem State.more_false {s : State} {sp : Space} (h : (s.len sp).toNat ≤ s.rp.toNat) : s.more sp = false := by
  simpa [State.more] using h

/-- Moving a cursor below a length does not wrap. -/
theorem toNat_add_ofNat {r : Word} {k : Nat} (h : r.toNat + k < 2 ^ 32) : (r + BitVec.ofNat 32 k).toNat = r.toNat + k := by
  simp only [BitVec.toNat_add, BitVec.toNat_ofNat]; omega

/-- The state after an iteration that appended `ys` and moved `RP` by `k`. -/
theorem advance_stored {sp : Space} {s : State} {ys : List Byte} (k : Nat) :
    ((stored sp ys s).cursors s.rp s.runLen s.curV).advance k =
      (stored sp ys s).cursors (s.rp + BitVec.ofNat 32 k) s.runLen s.curV := rfl

/-- One append, then `RP` moves by `k`. -/
theorem Delivers.appendAdvance (sp : Space) (b : Byte) (k : Nat) (s : State) :
    Delivers sp [b] (s.rp + BitVec.ofNat 32 k) s.runLen s.curV s
      ((Machine.append sp b s).andThen fun s => .ok (s.advance k)) :=
  (Delivers.append sp b s).thenMove (f := fun s => s.advance k) (advance_stored k)

/-! ## SUBST -/

theorem substIter_pair {s : State} (h : atPair s = true) :
    Delivers .work [s.hdr.sub] (s.rp + BitVec.ofNat 32 2) s.runLen s.curV s (substIter s) := by
  unfold substIter; rw [if_pos h]; exact Delivers.appendAdvance _ _ _ _

theorem substIter_copy {s : State} (h : atPair s = false) :
    Delivers .work [s.byteAt .inp s.rp.toNat] (s.rp + BitVec.ofNat 32 1) s.runLen s.curV s (substIter s) := by
  unfold substIter; rw [if_neg (by simp [h])]; exact Delivers.appendAdvance _ _ _ _

/-- SUBST's loop from `RP` on (41 R150). -/
theorem subst_loop : ∀ (fuel : Nat) (s : State), s.rp.toNat ≤ s.inLen.toNat → s.inLen.toNat - s.rp.toNat ≤ fuel →
    Delivers .work
      (Codec.substituted s.hdr.sub s.hdr.orig1 s.hdr.orig2 (s.bytes .inp s.rp.toNat (s.inLen.toNat - s.rp.toNat)))
      s.inLen s.runLen s.curV s (whileLoop (fun s => s.more .inp) substIter fuel s) := by
  intro fuel
  induction fuel using Nat.strong_induction_on with
  | _ fuel ih =>
    intro s hle hfuel
    have hlt32 := s.inLen.isLt
    rcases Nat.lt_or_ge s.rp.toNat s.inLen.toNat with hlt | hge
    · obtain ⟨n, hn⟩ : ∃ n, fuel = n + 1 := ⟨fuel - 1, by omega⟩
      subst hn
      rw [whileLoop_true _ (State.more_true (sp := .inp) hlt)]
      have hnext : ∀ (ys : List Byte) (k : Nat), 1 ≤ k → s.rp.toNat + k ≤ s.inLen.toNat →
          Delivers .work (Codec.substituted s.hdr.sub s.hdr.orig1 s.hdr.orig2
            (s.bytes .inp (s.rp.toNat + k) (s.inLen.toNat - (s.rp.toNat + k)))) s.inLen s.runLen s.curV
            ((stored .work ys s).cursors (s.rp + BitVec.ofNat 32 k) s.runLen s.curV)
            (whileLoop (fun s => s.more .inp) substIter n
              ((stored .work ys s).cursors (s.rp + BitVec.ofNat 32 k) s.runLen s.curV)) := by
        intro ys k hk1 hk
        have hrp : (s.rp + BitVec.ofNat 32 k).toNat = s.rp.toNat + k := toNat_add_ofNat (by omega)
        have hin : (stored .work ys s).inLen = s.inLen := rfl
        have h := ih n (by omega) ((stored .work ys s).cursors (s.rp + BitVec.ofNat 32 k) s.runLen s.curV)
          (by simp only [cursors_rp, cursors_inLen, hin, hrp]; omega)
          (by simp only [cursors_rp, cursors_inLen, hin, hrp]; omega)
        simpa only [cursors_rp, cursors_inLen, cursors_hdr, cursors_runLen, cursors_curV, stored_hdr, hin, hrp,
          bytes_cursors, bytes_stored_ne s .work .inp ys (by decide)] using h
      obtain ⟨m, hm⟩ : ∃ m, s.inLen.toNat - s.rp.toNat = m + 1 := ⟨s.inLen.toNat - s.rp.toNat - 1, by omega⟩
      rw [hm, State.bytes_succ]
      cases hp : atPair s with
      | true =>
        have hp' := hp
        simp only [atPair, Bool.and_eq_true, decide_eq_true_eq] at hp'
        obtain ⟨⟨⟨hs, h2⟩, ha⟩, hb⟩ := hp'
        obtain ⟨m', hm'⟩ : ∃ m', m = m' + 1 := ⟨m - 1, by omega⟩
        rw [hm', State.bytes_succ, ha, hb, Codec.substituted, if_pos ⟨hs, rfl, rfl⟩]
        have h := (substIter_pair hp).andThen (hnext [s.hdr.sub] 2 (by omega) (by omega))
        have hmm : s.inLen.toNat - (s.rp.toNat + 2) = m' := by omega
        rwa [hmm] at h
      | false =>
        have h := (substIter_copy hp).andThen (hnext [s.byteAt .inp s.rp.toNat] 1 (by omega) (by omega))
        have hmm : s.inLen.toNat - (s.rp.toNat + 1) = m := by omega
        rw [hmm] at h
        convert h using 1
        cases m with
        | zero => simp [Codec.substituted]
        | succ m' =>
          rw [State.bytes_succ, Codec.substituted, if_neg]
          · rfl
          · rintro ⟨hs, ha, hb⟩
            have : atPair s = true := by
              simp only [atPair, Bool.and_eq_true, decide_eq_true_eq]
              exact ⟨⟨⟨hs, by omega⟩, ha⟩, hb⟩
            rw [hp] at this; exact absurd this (by decide)
    · have he : s.rp = s.inLen := BitVec.eq_of_toNat_eq (by omega)
      have h0 : s.inLen.toNat - s.rp.toNat = 0 := by omega
      rw [whileLoop_false _ (State.more_false (sp := .inp) hge), h0, State.bytes_zero, Codec.substituted, ← he]
      exact Delivers.nothing .work s.rp s.runLen s.curV s

/-- What SUBST does once `IN_LEN` has passed its test. -/
theorem subst_delivers (s : State) (h : s.inLen.toNat ≤ s.params.capIn.toNat) :
    Delivers .work (Codec.substituted s.hdr.sub s.hdr.orig1 s.hdr.orig2 s.input) s.inLen s.runLen s.curV
      ({ s with workLen := 0#32 }.seek 0) (substBody s) := by
  have hc : checkInLen s = .ok s := by unfold checkInLen; rw [if_neg (by omega)]
  unfold substBody
  rw [hc, Ran.ok_andThen]
  exact subst_loop s.inLen.toNat ({ s with workLen := 0#32 }.seek 0) (by simp) (by simp)

/-! ## UNSUBST -/

/-- What UNSUBST writes for one byte of WORK (41 R160). -/
theorem unsubstIter_delivers (s : State) :
    Delivers .out (Codec.restored s.hdr.sub s.hdr.orig1 s.hdr.orig2 [s.byteAt .work s.rp.toNat])
      (s.rp + BitVec.ofNat 32 1) s.runLen s.curV s (unsubstIter s) := by
  change Delivers .out (Codec.restored s.hdr.sub s.hdr.orig1 s.hdr.orig2 [s.cur .work]) _ _ _ s (unsubstIter s)
  unfold unsubstIter
  refine Delivers.thenMove (f := fun s => s.advance 1) (r := s.rp) (n := s.runLen) (v := s.curV) ?_ (advance_stored 1)
  by_cases h : s.hdr.sub ≠ Config.noSub ∧ s.cur .work = s.hdr.sub
  · rw [if_pos h]
    have : Codec.restored s.hdr.sub s.hdr.orig1 s.hdr.orig2 [s.cur .work] =
        [s.hdr.orig1] ++ [s.hdr.orig2] := by simp [Codec.restored, h.1, h.2]
    rw [this]
    exact (Delivers.append .out s.hdr.orig1 s).andThen
      (Delivers.append .out s.hdr.orig2 ((stored .out [s.hdr.orig1] s).cursors s.rp s.runLen s.curV))
  · rw [if_neg h]
    have : Codec.restored s.hdr.sub s.hdr.orig1 s.hdr.orig2 [s.cur .work] = [s.cur .work] := by simp [Codec.restored, h]
    rw [this]
    exact Delivers.append .out _ s

/-- UNSUBST's loop from `RP` on (41 R160). -/
theorem unsubst_loop : ∀ (fuel : Nat) (s : State), s.rp.toNat ≤ s.workLen.toNat → s.workLen.toNat - s.rp.toNat ≤ fuel →
    Delivers .out
      (Codec.restored s.hdr.sub s.hdr.orig1 s.hdr.orig2 (s.bytes .work s.rp.toNat (s.workLen.toNat - s.rp.toNat)))
      s.workLen s.runLen s.curV s (whileLoop (fun s => s.more .work) unsubstIter fuel s)
  | fuel, s, hle, hfuel => by
    have hlt32 := s.workLen.isLt
    rcases Nat.lt_or_ge s.rp.toNat s.workLen.toNat with hlt | hge
    · obtain ⟨n, hn⟩ : ∃ n, fuel = n + 1 := ⟨fuel - 1, by omega⟩
      subst hn
      rw [whileLoop_true _ (State.more_true (sp := .work) hlt)]
      obtain ⟨m, hm⟩ : ∃ m, s.workLen.toNat - s.rp.toNat = m + 1 := ⟨s.workLen.toNat - s.rp.toNat - 1, by omega⟩
      rw [hm, State.bytes_succ, ← List.singleton_append, Codec.restored_append]
      refine (unsubstIter_delivers s).andThen ?_
      have hrp : (s.rp + BitVec.ofNat 32 1).toNat = s.rp.toNat + 1 := toNat_add_ofNat (by omega)
      generalize hys : Codec.restored s.hdr.sub s.hdr.orig1 s.hdr.orig2 [s.byteAt .work s.rp.toNat] = ys
      have hwl : (stored .out ys s).workLen = s.workLen := rfl
      have h := unsubst_loop n ((stored .out ys s).cursors (s.rp + BitVec.ofNat 32 1) s.runLen s.curV)
        (by simp only [cursors_rp, cursors_workLen, hwl, hrp]; omega)
        (by simp only [cursors_rp, cursors_workLen, hwl, hrp]; omega)
      have hmm : s.workLen.toNat - (s.rp.toNat + 1) = m := by omega
      simpa only [cursors_rp, cursors_workLen, cursors_hdr, cursors_runLen, cursors_curV, stored_hdr, hwl, hrp, hmm,
        bytes_cursors, bytes_stored_ne s .out .work ys (by decide)] using h
    · have he : s.rp = s.workLen := BitVec.eq_of_toNat_eq (by omega)
      have h0 : s.workLen.toNat - s.rp.toNat = 0 := by omega
      rw [whileLoop_false _ (State.more_false (sp := .work) hge), h0, State.bytes_zero, ← he]
      exact Delivers.nothing .out s.rp s.runLen s.curV s

/-- What UNSUBST does. -/
theorem unsubst_delivers (s : State) :
    Delivers .out (Codec.restored s.hdr.sub s.hdr.orig1 s.hdr.orig2 s.workBytes) s.workLen s.runLen s.curV
      ({ s with outLen := 0#32 }.seek 0) (unsubstBody s) :=
  unsubst_loop s.workLen.toNat ({ s with outLen := 0#32 }.seek 0) (by simp) (by simp)

end Sys2Proof.Machine
end

