-- ==== Sys2Proof/Laws/PerInstr.lean ====
section
/-!
SUPPORT. Statements made for every instruction. EncodedLength: how many bytes an instruction's encoding has, whatever its
operands and whatever the marker of its stream.
-/

namespace Sys2Proof.Laws.EncodedLength

/-- A command word is four bytes (30 R102), the header record seven (30 R91), a run three (30 R94), a literal one (30 R95). -/
def Statement (i : Instr) : Prop :=
  ∀ m : Byte, (encode m i).length =
    match i with
    | .analyze | .select | .subst | .frame | .rleenc | .parse | .rledec | .unsubst | .compress | .decompress => 4
    | .hdr _ => 7
    | .run _ _ => 3
    | .lit _ => 1

theorem analyze : Statement .analyze := fun _ => rfl
theorem select : Statement .select := fun _ => rfl
theorem subst : Statement .subst := fun _ => rfl
theorem frame : Statement .frame := fun _ => rfl
theorem rleenc : Statement .rleenc := fun _ => rfl
theorem parse : Statement .parse := fun _ => rfl
theorem rledec : Statement .rledec := fun _ => rfl
theorem unsubst : Statement .unsubst := fun _ => rfl
theorem compress : Statement .compress := fun _ => rfl
theorem decompress : Statement .decompress := fun _ => rfl
theorem hdr (fields : Hdr) : Statement (.hdr fields) := fun _ => rfl
theorem run (count value : Byte) : Statement (.run count value) := fun _ => rfl
theorem lit (b : Byte) : Statement (.lit b) := fun _ => rfl

end Sys2Proof.Laws.EncodedLength
end

