-- ==== Sys2Proof/Laws/RleLoops.lean ====
section
/-!
SUPPORT. The loops of RLEENC (42 R170) and RLEDEC (43 R190) as the document's functions on byte lists.
-/

namespace Sys2Proof.Machine

/-! ## RLEENC -/

theorem runGoesOn_eq (s : State) : runGoesOn s = true ↔
    s.rp.toNat + s.runLen.toNat < s.workLen.toNat ∧
      s.byteAt .work (s.rp.toNat + s.runLen.toNat) = s.curV ∧ s.runLen.toNat < 255 := by
  simp only [runGoesOn, Bool.and_eq_true, decide_eq_true_eq, and_assoc]
  exact Iff.rfl

/-- The inner loop of RLEENC counts the leading equal bytes (42 R172). -/
theorem measure_loop : ∀ (fuel n : Nat) (s : State), s.runLen = BitVec.ofNat 8 n → 1 ≤ n → n ≤ 255 →
    s.rp.toNat + n ≤ s.workLen.toNat → 255 - n ≤ fuel →
    whileLoop runGoesOn (fun s => .ok { s with runLen := s.runLen + 1#8 }) fuel s =
      .ok (s.cursors s.rp
        (BitVec.ofNat 8 (n + Codec.lead s.curV (255 - n) (s.bytes .work (s.rp.toNat + n) (s.workLen.toNat - (s.rp.toNat + n)))))
        s.curV)
  | fuel, n, s, hrun, h1, h255, hin, hfuel => by
    have hn : s.runLen.toNat = n := by rw [hrun, BitVec.toNat_ofNat]; omega
    by_cases hgo : runGoesOn s = true
    · obtain ⟨ha, hb, hc⟩ := (runGoesOn_eq s).1 hgo
      rw [hn] at ha hb hc
      obtain ⟨f, rfl⟩ : ∃ f, fuel = f + 1 := ⟨fuel - 1, by omega⟩
      rw [whileLoop_true _ hgo, Ran.ok_andThen]
      have hrun' : s.runLen + 1#8 = BitVec.ofNat 8 (n + 1) := by rw [hrun, BitVec.ofNat_add]
      have h := measure_loop f (n + 1) { s with runLen := s.runLen + 1#8 } hrun' (by omega) (by omega)
        (show s.rp.toNat + (n + 1) ≤ s.workLen.toNat by omega) (by omega)
      rw [h]
      obtain ⟨k, hk⟩ : ∃ k, 255 - n = k + 1 := ⟨254 - n, by omega⟩
      obtain ⟨m, hm⟩ : ∃ m, s.workLen.toNat - (s.rp.toNat + n) = m + 1 := ⟨s.workLen.toNat - (s.rp.toNat + n) - 1, by omega⟩
      have hk' : 255 - (n + 1) = k := by omega
      have hm' : s.workLen.toNat - (s.rp.toNat + (n + 1)) = m := by omega
      rw [hk, hm, State.bytes_succ, Codec.lead, if_pos hb, hk']
      change Ran.ok (s.cursors s.rp (BitVec.ofNat 8 (n + 1 + Codec.lead s.curV k
        (s.bytes .work (s.rp.toNat + (n + 1)) (s.workLen.toNat - (s.rp.toNat + (n + 1)))))) s.curV) = _
      rw [hm', ← Nat.add_assoc s.rp.toNat n 1]
      congr 3; omega
    · have hlead : Codec.lead s.curV (255 - n) (s.bytes .work (s.rp.toNat + n) (s.workLen.toNat - (s.rp.toNat + n))) = 0 := by
        rw [runGoesOn_eq, hn] at hgo
        cases hk : 255 - n with
        | zero => rfl
        | succ k =>
          cases hm : s.workLen.toNat - (s.rp.toNat + n) with
          | zero => rfl
          | succ m =>
            rw [State.bytes_succ, Codec.lead, if_neg fun hb => hgo ⟨by omega, hb, by omega⟩]
      rw [whileLoop_false _ (by simpa using hgo), hlead, Nat.add_zero, ← hrun]
      rfl

/-- The run at `RP`: 1 to 255 equal bytes (42 R172, R173). -/
def runAt (s : State) : Nat :=
  1 + Codec.lead (s.cur .work) 254 (s.bytes .work (s.rp.toNat + 1) (s.workLen.toNat - (s.rp.toNat + 1)))

theorem runAt_le (s : State) : runAt s ≤ 255 := by
  have := Codec.lead_le (s.cur .work) 254 (s.bytes .work (s.rp.toNat + 1) (s.workLen.toNat - (s.rp.toNat + 1)))
  unfold runAt; omega

theorem runAt_fits {s : State} (h : s.rp.toNat < s.workLen.toNat) : s.rp.toNat + runAt s ≤ s.workLen.toNat := by
  have := Codec.lead_le_length (s.cur .work) 254 (s.bytes .work (s.rp.toNat + 1) (s.workLen.toNat - (s.rp.toNat + 1)))
  rw [State.length_bytes] at this
  unfold runAt; omega

theorem toNat_runAt (s : State) : (BitVec.ofNat 8 (runAt s)).toNat = runAt s := by
  have := runAt_le s
  rw [BitVec.toNat_ofNat]; omega

theorem measureRun_eq {s : State} (h : s.rp.toNat < s.workLen.toNat) :
    measureRun s = .ok (s.cursors s.rp (BitVec.ofNat 8 (runAt s)) (s.cur .work)) :=
  measure_loop Config.runCap 1 { s with curV := s.cur .work, runLen := 1#8 } rfl (by omega) (by omega)
    (show s.rp.toNat + 1 ≤ s.workLen.toNat by omega) (by decide)

theorem emitRun_delivers (s : State) :
    Delivers .out (Codec.encodeRun s.curV s.runLen.toNat) s.rp s.runLen s.curV s (emitRun s) := by
  unfold emitRun Codec.encodeRun
  split
  · rw [BitVec.ofNat_toNat, BitVec.setWidth_eq]
    exact ((Delivers.append .out Config.rleMarker s).andThen (Delivers.append .out s.runLen _)).andThen
      (Delivers.append .out s.curV _)
  · exact Delivers.replicate .out s.curV s.runLen.toNat s

/-- One iteration of RLEENC: the run at `RP` is appended and passed. -/
theorem rleencIter_delivers {s : State} (h : s.rp.toNat < s.workLen.toNat) :
    Delivers .out (Codec.encodeRun (s.cur .work) (runAt s)) (s.rp + BitVec.ofNat 32 (runAt s))
      (BitVec.ofNat 8 (runAt s)) (s.cur .work) s (rleencIter s) := by
  unfold rleencIter
  rw [measureRun_eq h, Ran.ok_andThen]
  have he := emitRun_delivers (s.cursors s.rp (BitVec.ofNat 8 (runAt s)) (s.cur .work))
  simp only [cursors_rp, cursors_runLen, cursors_curV, toNat_runAt] at he
  have ht := he.thenMove (f := fun s => s.advance s.runLen.toNat) (r' := s.rp + BitVec.ofNat 32 (runAt s))
    (n' := BitVec.ofNat 8 (runAt s)) (v' := s.cur .work) (by
      simp only [State.advance, cursors_runLen, toNat_runAt]; rfl)
  refine ⟨fun hf => ?_, fun h1 h2 => ?_⟩
  · rw [ht.1 (by simpa using hf), stored_cursors, cursors_cursors]
  · obtain ⟨t, ht1, ht2⟩ := ht.2 (by simpa using h1) (by simpa using h2)
    exact ⟨t, ht1, Drift.trans ⟨s.buf .out, s.len .out, _, _, _, rfl, fun _ _ => rfl⟩ ht2⟩

/-- RLEENC's loop from `RP` on (42 R170). -/
theorem rleenc_loop : ∀ (fuel : Nat) (s : State), s.rp.toNat ≤ s.workLen.toNat → s.workLen.toNat - s.rp.toNat ≤ fuel →
    ∃ n v, Delivers .out (Codec.encoded (s.bytes .work s.rp.toNat (s.workLen.toNat - s.rp.toNat)))
      s.workLen n v s (whileLoop (fun s => s.more .work) rleencIter fuel s)
  | fuel, s, hle, hfuel => by
    have hlt32 := s.workLen.isLt
    rcases Nat.lt_or_ge s.rp.toNat s.workLen.toNat with hlt | hge
    · obtain ⟨f, rfl⟩ : ∃ f, fuel = f + 1 := ⟨fuel - 1, by omega⟩
      rw [whileLoop_true _ (State.more_true (sp := .work) hlt)]
      obtain ⟨m, hm⟩ : ∃ m, s.workLen.toNat - s.rp.toNat = m + 1 := ⟨s.workLen.toNat - s.rp.toNat - 1, by omega⟩
      have hfit := runAt_fits hlt
      have hone : 1 ≤ runAt s := by unfold runAt; omega
      have hrp : (s.rp + BitVec.ofNat 32 (runAt s)).toNat = s.rp.toNat + runAt s := toNat_add_ofNat (by omega)
      rw [hm, State.bytes_succ, Codec.encoded, Codec.encodeFrom_eq _ 1 _ (by omega)]
      have hm1 : s.workLen.toNat - (s.rp.toNat + 1) = m := by omega
      have hrun : 1 + Codec.lead (s.byteAt .work s.rp.toNat) (255 - 1) (s.bytes .work (s.rp.toNat + 1) m) = runAt s := by
        rw [← hm1]; rfl
      rw [hrun, State.drop_bytes]
      have hk : Codec.lead (s.byteAt .work s.rp.toNat) (255 - 1) (s.bytes .work (s.rp.toNat + 1) m) = runAt s - 1 := by omega
      rw [hk]
      generalize hys : Codec.encodeRun (s.cur .work) (runAt s) = ys
      have hwl : (stored .out ys s).workLen = s.workLen := rfl
      obtain ⟨n, v, h⟩ := rleenc_loop f ((stored .out ys s).cursors (s.rp + BitVec.ofNat 32 (runAt s))
          (BitVec.ofNat 8 (runAt s)) (s.cur .work))
        (by simp only [cursors_rp, cursors_workLen, hwl, hrp]; omega)
        (by simp only [cursors_rp, cursors_workLen, hwl, hrp]; omega)
      simp only [cursors_rp, cursors_workLen, hwl, hrp, bytes_cursors,
        bytes_stored_ne s .out .work ys (by decide)] at h
      refine ⟨n, v, ?_⟩
      have hd := rleencIter_delivers hlt
      rw [hys] at hd
      have hpos : s.rp.toNat + 1 + (runAt s - 1) = s.rp.toNat + runAt s := by omega
      have hrest : m - (runAt s - 1) = s.workLen.toNat - (s.rp.toNat + runAt s) := by omega
      have hall := hd.andThen h
      rw [← hys] at hall
      rw [hpos, hrest]
      exact hall
    · have he : s.rp = s.workLen := BitVec.eq_of_toNat_eq (by omega)
      have h0 : s.workLen.toNat - s.rp.toNat = 0 := by omega
      rw [whileLoop_false _ (State.more_false (sp := .work) hge), h0, State.bytes_zero, ← he]
      exact ⟨s.runLen, s.curV, Delivers.nothing .out s.rp s.runLen s.curV s⟩

/-- What RLEENC does: it appends the encoding of WORK at `OUT_LEN` (42 R170, R171). -/
theorem rleenc_delivers (s : State) :
    ∃ n v, Delivers .out (Codec.encoded s.workBytes) s.workLen n v (s.seek 0) (rleencBody s) :=
  rleenc_loop s.workLen.toNat (s.seek 0) (by simp) (by simp)

/-! ## RLEDEC -/

/-- The expansion of a triplet: `RUNLEN` counts down to 0 (43 R200). -/
theorem expand_loop (value : Byte) : ∀ (n : Nat) (s : State), n ≤ 255 → s.runLen = BitVec.ofNat 8 n → s.curV = value →
    Delivers .work (List.replicate n value) s.rp 0#8 value s (repeatTimes expandOnce n s)
  | 0, s, _, hrun, hv => by
    have h := Delivers.nothing .work s.rp 0#8 value s
    have hs : s.cursors s.rp 0#8 value = s := by
      conv_rhs => rw [← cursors_self s]
      rw [hrun, hv]
    rwa [hs] at h
  | n + 1, s, hn, hrun, hv => by
    have h1 : Delivers .work [value] s.rp (s.runLen - 1#8) value s (expandOnce s) := by
      unfold expandOnce
      rw [hv]
      refine (Delivers.append .work value s).thenMove (f := fun s => { s with runLen := s.runLen - 1#8 }) ?_
      rw [hv]; simp only [cursors_runLen]; rfl
    have hrun' : s.runLen - 1#8 = BitVec.ofNat 8 n := by
      rw [hrun, BitVec.ofNat_add]; simp
    have h2 := expand_loop value n ((stored .work [value] s).cursors s.rp (s.runLen - 1#8) value)
      (by omega) hrun' rfl
    exact h1.andThen h2

/-- Form RUN (43 R192). -/
theorem runBody_delivers (count value : Byte) (s : State) :
    Delivers .work (List.replicate count.toNat value) (s.rp + BitVec.ofNat 32 3) 0#8 value s (runBody count value s) := by
  unfold runBody
  have hlt := count.isLt
  have h := expand_loop value count.toNat (s.cursors s.rp count value) (by omega) (by simp) rfl
  have ht := h.thenMove (f := fun s => s.advance 3) (r' := s.rp + BitVec.ofNat 32 3) (n' := 0#8) (v' := value) rfl
  refine ⟨fun hf => ?_, fun h1 h2 => ?_⟩
  · exact (ht.1 (by simpa using hf)).trans (by rw [stored_cursors, cursors_cursors])
  · obtain ⟨t, ht1, ht2⟩ := ht.2 (by simpa using h1) (by simpa using h2)
    exact ⟨t, ht1, Drift.trans ⟨s.buf .work, s.len .work, _, _, _, rfl, fun _ _ => rfl⟩ ht2⟩

/-- Form LIT (43 R193). -/
theorem litBody_delivers (b : Byte) (s : State) :
    Delivers .work [b] (s.rp + BitVec.ofNat 32 1) s.runLen s.curV s (litBody b s) :=
  Delivers.appendAdvance .work b 1 s

/-- Everything a decoding loop can do: `ys` is what its forms append up to the end (`e` = none) or up to the truncated
triplet at index `p` (`e` = some p). If `ys` does not fit, CapacityExceeded comes first (60 R257 item 4). -/
def Decodes (ys : List Byte) (e : Option Nat) (r : Word) (n v : Byte) (s : State) (res : Ran) : Prop :=
  ((s.len .work).toNat + ys.length ≤ (s.cap .work).toNat →
    match e with
    | none => res = .ok ((stored .work ys s).cursors r n v)
    | some p => ∃ t, res = .raised .corruptedStream (BitVec.ofNat 32 p) t ∧ Drift .work s t) ∧
  ((s.len .work).toNat ≤ (s.cap .work).toNat → (s.cap .work).toNat < (s.len .work).toNat + ys.length →
    ∃ t, res = .raised .capacityExceeded 0#32 t ∧ Drift .work s t)

theorem Decodes.nothing (r : Word) (n v : Byte) (s : State) : Decodes [] none r n v s (.ok (s.cursors r n v)) :=
  ⟨fun _ => by simp, fun h1 h2 => by simp at h2; omega⟩

theorem Decodes.truncated (p : Nat) (r : Word) (n v : Byte) (s : State) :
    Decodes [] (some p) r n v s (.raised .corruptedStream (BitVec.ofNat 32 p) s) :=
  ⟨fun _ => ⟨s, rfl, Drift.refl .work s⟩, fun h1 h2 => by simp at h2; omega⟩

theorem Delivers.thenDecodes {ys zs : List Byte} {e : Option Nat} {r r' : Word} {n v n' v' : Byte} {s : State} {res : Ran}
    {f : State → Ran} (h1 : Delivers .work ys r n v s res)
    (h2 : Decodes zs e r' n' v' ((stored .work ys s).cursors r n v) (f ((stored .work ys s).cursors r n v))) :
    Decodes (ys ++ zs) e r' n' v' s (res.andThen f) := by
  have hcap := (s.cap .work).isLt
  constructor
  · intro h
    simp only [List.length_append] at h
    have hy : (s.len .work).toNat + ys.length ≤ (s.cap .work).toNat := by omega
    have h2' := h2.1 (by rw [len_cursors, toNat_len_stored hy, cap_cursors, cap_stored]; omega)
    rw [h1.1 hy, Ran.ok_andThen]
    cases e with
    | none =>
      simp only at h2' ⊢
      rw [h2', stored_cursors, cursors_cursors, ← stored_append s .work zs ys (by omega)]
    | some p =>
      obtain ⟨t, ht, hd⟩ := h2'
      exact ⟨t, ht, (Drift.stored hy r n v).trans hd⟩
  · intro hle h
    simp only [List.length_append] at h
    by_cases hy : (s.len .work).toNat + ys.length ≤ (s.cap .work).toNat
    · obtain ⟨t, ht, hd⟩ := h2.2 (by rw [len_cursors, toNat_len_stored hy, cap_cursors, cap_stored]; omega)
        (by rw [len_cursors, toNat_len_stored hy, cap_cursors, cap_stored]; omega)
      exact ⟨t, by rw [h1.1 hy, Ran.ok_andThen, ht], (Drift.stored hy r n v).trans hd⟩
    · obtain ⟨t, ht, hd⟩ := h1.2 hle (by omega)
      exact ⟨t, by rw [ht]; rfl, hd⟩

/-- RLEDEC's loop from `RP` on (43 R190, R191, R194). -/
theorem rledec_loop : ∀ (fuel : Nat) (s : State), s.rp.toNat ≤ s.inLen.toNat → s.inLen.toNat - s.rp.toNat ≤ fuel →
    ∃ n v, Decodes
      (Codec.expand s.hdr.marker s.rp.toNat (s.bytes .inp s.rp.toNat (s.inLen.toNat - s.rp.toNat))).1
      (Codec.expand s.hdr.marker s.rp.toNat (s.bytes .inp s.rp.toNat (s.inLen.toNat - s.rp.toNat))).2
      s.inLen n v s (whileLoop (fun s => s.more .inp) rledecIter fuel s) := by
  intro fuel
  induction fuel with
  | zero =>
    intro s hle hfuel
    have he : s.rp = s.inLen := BitVec.eq_of_toNat_eq (by omega)
    have h0 : s.inLen.toNat - s.rp.toNat = 0 := by omega
    refine ⟨s.runLen, s.curV, ?_⟩
    rw [h0, State.bytes_zero, Codec.expand, ← he]
    exact Decodes.nothing s.rp s.runLen s.curV s
  | succ f ih =>
    intro s hle hfuel
    have hlt32 := s.inLen.isLt
    rcases Nat.lt_or_ge s.rp.toNat s.inLen.toNat with hlt | hge
    · rw [whileLoop_true _ (State.more_true (sp := .inp) hlt)]
      have hnext : ∀ (ys : List Byte) (k : Nat) (n v : Byte), 1 ≤ k → s.rp.toNat + k ≤ s.inLen.toNat →
          ∃ n' v', Decodes
            (Codec.expand s.hdr.marker (s.rp.toNat + k) (s.bytes .inp (s.rp.toNat + k) (s.inLen.toNat - (s.rp.toNat + k)))).1
            (Codec.expand s.hdr.marker (s.rp.toNat + k) (s.bytes .inp (s.rp.toNat + k) (s.inLen.toNat - (s.rp.toNat + k)))).2
            s.inLen n' v' ((stored .work ys s).cursors (s.rp + BitVec.ofNat 32 k) n v)
            (whileLoop (fun s => s.more .inp) rledecIter f
              ((stored .work ys s).cursors (s.rp + BitVec.ofNat 32 k) n v)) := by
        intro ys k n v hk1 hk
        have hrp : (s.rp + BitVec.ofNat 32 k).toNat = s.rp.toNat + k := toNat_add_ofNat (by omega)
        have hin : (stored .work ys s).inLen = s.inLen := rfl
        have h := ih ((stored .work ys s).cursors (s.rp + BitVec.ofNat 32 k) n v)
          (by simp only [cursors_rp, cursors_inLen, hin, hrp]; omega)
          (by simp only [cursors_rp, cursors_inLen, hin, hrp]; omega)
        simpa only [cursors_rp, cursors_inLen, cursors_hdr, stored_hdr, hin, hrp,
          bytes_cursors, bytes_stored_ne s .work .inp ys (by decide)] using h
      obtain ⟨m, hm⟩ : ∃ m, s.inLen.toNat - s.rp.toNat = m + 1 := ⟨s.inLen.toNat - s.rp.toNat - 1, by omega⟩
      by_cases hmark : s.byteAt .inp s.rp.toNat = s.hdr.marker
      · match m, hm with
        | 0, hm | 1, hm =>
          refine ⟨s.runLen, s.curV, ?_⟩
          have hraise : rledecIter s = .raised .corruptedStream s.rp s := by
            simp [rledecIter, fetchForm, hm, Config.tripletLen, State.bytes_succ, decodeForm, hmark]
          rw [hm, hraise, Ran.raised_andThen]
          simp only [State.bytes_succ, State.bytes_zero, hmark, Codec.expand, if_true]
          have ht := Decodes.truncated s.rp.toNat s.inLen s.runLen s.curV s
          rwa [BitVec.ofNat_toNat, BitVec.setWidth_eq] at ht
        | k + 2, hm =>
          have hstep : rledecIter s = runBody (s.byteAt .inp (s.rp.toNat + 1)) (s.byteAt .inp (s.rp.toNat + 2)) s := by
            have h3 : min Config.tripletLen (s.inLen.toNat - s.rp.toNat) = 3 := by unfold Config.tripletLen; omega
            unfold rledecIter fetchForm
            rw [h3]
            simp [State.bytes_succ, decodeForm, hmark, formBody]
          obtain ⟨n, v, h⟩ := hnext (List.replicate (s.byteAt .inp (s.rp.toNat + 1)).toNat (s.byteAt .inp (s.rp.toNat + 2))) 3
            0#8 (s.byteAt .inp (s.rp.toNat + 2)) (by omega) (by omega)
          refine ⟨n, v, ?_⟩
          have hd := (runBody_delivers (s.byteAt .inp (s.rp.toNat + 1)) (s.byteAt .inp (s.rp.toNat + 2)) s).thenDecodes h
          have hk : s.inLen.toNat - (s.rp.toNat + 3) = k := by omega
          rw [hstep, hm, State.bytes_succ, State.bytes_succ, State.bytes_succ, hmark, Codec.expand_run]
          rw [hk] at hd
          exact hd
      · have hstep : rledecIter s = litBody (s.byteAt .inp s.rp.toNat) s := by
          obtain ⟨k, hk⟩ : ∃ k, min Config.tripletLen (s.inLen.toNat - s.rp.toNat) = k + 1 :=
            ⟨min Config.tripletLen (s.inLen.toNat - s.rp.toNat) - 1, by unfold Config.tripletLen; omega⟩
          unfold rledecIter fetchForm
          rw [hk]
          simp [State.bytes_succ, decodeForm, hmark, formBody]
        obtain ⟨n, v, h⟩ := hnext [s.byteAt .inp s.rp.toNat] 1 s.runLen s.curV (by omega) (by omega)
        refine ⟨n, v, ?_⟩
        have hd := (litBody_delivers (s.byteAt .inp s.rp.toNat) s).thenDecodes h
        have hk : s.inLen.toNat - (s.rp.toNat + 1) = m := by omega
        rw [hstep, hm, State.bytes_succ, Codec.expand_lit _ _ hmark]
        rw [hk] at hd
        exact hd
    · have he : s.rp = s.inLen := BitVec.eq_of_toNat_eq (by omega)
      have h0 : s.inLen.toNat - s.rp.toNat = 0 := by omega
      refine ⟨s.runLen, s.curV, ?_⟩
      rw [whileLoop_false _ (State.more_false (sp := .inp) hge), h0, State.bytes_zero, Codec.expand, ← he]
      exact Decodes.nothing s.rp s.runLen s.curV s

/-- The payload: the bytes of a file after the header (00 R17). -/
theorem payload_eq (s : State) : s.input.drop 7 = s.bytes .inp 7 (s.inLen.toNat - 7) := by
  simp [State.input, State.drop_bytes]

/-- What RLEDEC does once `IN_LEN` has passed its test (43 R190, R191, R194, R199). -/
theorem rledec_decodes (s : State) (h : s.inLen.toNat ≤ s.params.capIn.toNat) :
    ∃ r n v, Decodes (Codec.expand s.hdr.marker 7 (s.input.drop 7)).1 (Codec.expand s.hdr.marker 7 (s.input.drop 7)).2
      r n v ({ s with workLen := 0#32 }.seek 7) (rledecBody s) := by
  have hc : checkInLen s = .ok s := by unfold checkInLen; rw [if_neg (by omega)]
  rw [payload_eq]
  unfold rledecBody rledecEnter
  rw [hc, Ran.ok_andThen, Ran.ok_andThen]
  by_cases h7 : 7 ≤ s.inLen.toNat
  · obtain ⟨n, v, hl⟩ := rledec_loop s.inLen.toNat ({ s with workLen := 0#32 }.seek 7) (by simpa using h7) (by simp)
    exact ⟨s.inLen, n, v, hl⟩
  · have h0 : s.inLen.toNat - 7 = 0 := by omega
    refine ⟨7#32, s.runLen, s.curV, ?_⟩
    rw [h0, State.bytes_zero, Codec.expand]
    have hw := whileLoop_false (c := fun s => s.more .inp) (s := { s with workLen := 0#32 }.seek Config.hdrLen) rledecIter
      (State.more_false (sp := .inp) (by simpa [State.len, Config.hdrLen] using (by omega : s.inLen.toNat ≤ 7)))
      ({ s with workLen := 0#32 }.seek Config.hdrLen).inLen.toNat
    rw [hw]
    exact Decodes.nothing 7#32 s.runLen s.curV ({ s with workLen := 0#32 }.seek 7)

end Sys2Proof.Machine
end

