-- ==== Sys2Proof/Laws/Shell.lean ====
section
/-!
SUPPORT. The bodies of the commands neither read nor write the control shell around them: `STATUS` but PAIR_VALID, `ERR_INFO`,
`PHASE`, the activity and the schedule. A body run in another shell does the same and ends in that shell.
-/

namespace Sys2Proof.Machine

/-- Apply a change of state wherever a stretch ends. -/
def Ran.map (f : State → State) : Ran → Ran
  | .ok s => .ok (f s)
  | .raised e w s => .raised e w (f s)

/-- A control shell. -/
structure Shell where
  busy : Bool
  done : Bool
  err : Bool
  code : BitVec 4
  info : Word
  phase : BitVec 4
  act : Activity
  sched : List Move

/-- The state in another shell. -/
def Shell.on (c : Shell) (s : State) : State :=
  { s with
    status := { s.status with busy := c.busy, done := c.done, err := c.err, errCode := c.code }
    errInfo := c.info
    phase := c.phase
    activity := c.act
    schedule := c.sched }

/-- `b` does the same in every shell. -/
def Same (b : State → Ran) : Prop := ∀ (c : Shell) s, b (c.on s) = (b s).map c.on

theorem same_andThen {r : Ran} {f : State → Ran} (hf : Same f) (c : Shell) :
    (r.map c.on).andThen f = (r.andThen f).map c.on := by
  cases r with
  | ok s => exact hf c s
  | raised e w s => rfl

theorem Same.andThen {f g : State → Ran} (hf : Same f) (hg : Same g) : Same fun s => (f s).andThen g := by
  intro c s
  show (f (c.on s)).andThen g = _
  rw [hf c s, same_andThen hg]

theorem same_append (sp : Space) (v : Byte) : Same (append sp v) := by
  intro c s
  unfold append
  have h1 : (c.on s).len sp = s.len sp := by cases sp <;> rfl
  have h2 : (c.on s).cap sp = s.cap sp := by cases sp <;> rfl
  rw [h1, h2]
  split
  · rfl
  · cases sp <;> rfl

theorem same_while {cond : State → Bool} {body : State → Ran} (hc : ∀ (c : Shell) s, cond (c.on s) = cond s)
    (hb : Same body) : ∀ n, Same (whileLoop cond body n)
  | 0 => fun _ _ => rfl
  | n + 1 => by
    intro c s
    unfold whileLoop
    rw [hc]
    split
    · rw [hb c s, same_andThen (same_while hc hb n)]
    · rfl

theorem same_repeat {body : State → Ran} (hb : Same body) : ∀ n, Same (repeatTimes body n)
  | 0 => fun _ _ => rfl
  | n + 1 => by
    intro c s
    unfold repeatTimes
    rw [hb c s, same_andThen (same_repeat hb n)]

theorem same_ok {f : State → State} (h : ∀ (c : Shell) s, f (c.on s) = c.on (f s)) : Same fun s => .ok (f s) := by
  intro c s; show Ran.ok _ = Ran.ok _; rw [h]

theorem same_checkInLen : Same checkInLen := by
  intro c s
  unfold checkInLen
  show (if s.params.capIn.toNat < s.inLen.toNat then _ else _) = _
  split <;> rfl

theorem same_subst : Same substBody := by
  intro c s
  unfold substBody
  rw [same_checkInLen c s]
  refine same_andThen
    (f := fun s => whileLoop (fun s => s.more .inp) substIter s.inLen.toNat ({ s with workLen := 0#32 }.seek 0)) ?_ c
  intro c s
  refine same_while (cond := fun s => s.more .inp) (body := substIter) (fun c s => rfl) ?_ s.inLen.toNat c
    ({ s with workLen := 0#32 }.seek 0)
  intro c s
  unfold substIter
  have hp : atPair (c.on s) = atPair s := rfl
  rw [hp]
  split
  · exact (Same.andThen (same_append .work s.hdr.sub) (same_ok (f := fun s => s.advance 2) fun _ _ => rfl)) c s
  · exact (Same.andThen (same_append .work (s.cur .inp)) (same_ok (f := fun s => s.advance 1) fun _ _ => rfl)) c s

theorem same_unsubst : Same unsubstBody := by
  intro c s
  unfold unsubstBody
  refine same_while (cond := fun s => s.more .work) (body := unsubstIter) (fun c s => rfl) ?_ s.workLen.toNat c
    ({ s with outLen := 0#32 }.seek 0)
  intro c s
  unfold unsubstIter
  show (if s.hdr.sub ≠ Config.noSub ∧ s.cur .work = s.hdr.sub then
      (append .out s.hdr.orig1 (c.on s)).andThen (append .out s.hdr.orig2)
    else append .out (s.cur .work) (c.on s)).andThen _ = _
  have ha : Same fun s => .ok (s.advance 1) := same_ok (f := fun s => s.advance 1) fun _ _ => rfl
  split
  · rename_i h
    have h1 : (append .out s.hdr.orig1 (c.on s)).andThen (append .out s.hdr.orig2) =
        Ran.map c.on ((append .out s.hdr.orig1 s).andThen (append .out s.hdr.orig2)) :=
      (Same.andThen (same_append .out s.hdr.orig1) (same_append .out s.hdr.orig2)) c s
    rw [h1, same_andThen ha]
    show _ = Ran.map c.on ((if s.hdr.sub ≠ Config.noSub ∧ s.cur .work = s.hdr.sub then _ else _ : Ran).andThen _)
    rw [if_pos h]
  · rename_i h
    rw [same_append .out _ c s, same_andThen ha]
    show _ = Ran.map c.on ((if s.hdr.sub ≠ Config.noSub ∧ s.cur .work = s.hdr.sub then _ else _ : Ran).andThen _)
    rw [if_neg h]

theorem same_emit : Same emitRun := by
  intro c s
  unfold emitRun
  show (if Config.litMax < s.runLen.toNat ∨ s.curV = Config.rleMarker then
      ((append .out Config.rleMarker (c.on s)).andThen (append .out s.runLen)).andThen (append .out s.curV)
    else repeatTimes (append .out s.curV) s.runLen.toNat (c.on s)) = _
  split
  · exact (Same.andThen (Same.andThen (same_append .out Config.rleMarker) (same_append .out s.runLen))
      (same_append .out s.curV)) c s
  · exact same_repeat (same_append .out s.curV) _ c s

theorem same_measure : Same measureRun := by
  intro c s
  unfold measureRun
  exact same_while (fun c s => rfl) (same_ok (f := fun s => { s with runLen := s.runLen + 1#8 }) fun _ _ => rfl)
    Config.runCap c { s with curV := s.cur .work, runLen := 1#8 }

theorem same_rleenc : Same rleencBody := by
  intro c s
  unfold rleencBody
  refine same_while (cond := fun s => s.more .work) (body := rleencIter) (fun c s => rfl) ?_ s.workLen.toNat c (s.seek 0)
  exact Same.andThen (Same.andThen same_measure same_emit)
    (same_ok (f := fun s => s.advance s.runLen.toNat) fun _ _ => rfl)

theorem same_expandOnce : Same expandOnce := by
  intro c s
  unfold expandOnce
  exact (Same.andThen (same_append .work s.curV)
    (same_ok (f := fun s => { s with runLen := s.runLen - 1#8 }) fun _ _ => rfl)) c s

theorem same_form (f : Form) : Same (formBody f) := by
  cases f with
  | run n v =>
    intro c s
    exact (Same.andThen (f := fun s => repeatTimes expandOnce n.toNat { s with runLen := n, curV := v })
      (fun c s => same_repeat same_expandOnce _ c { s with runLen := n, curV := v })
      (same_ok (f := fun s => s.advance 3) fun _ _ => rfl)) c s
  | lit b => exact Same.andThen (same_append .work b) (same_ok (f := fun s => s.advance 1) fun _ _ => rfl)

theorem same_rledecIter : Same rledecIter := by
  intro c s
  unfold rledecIter
  show (match decodeForm s.hdr.marker (fetchForm s) with
  | .error _ => Ran.raised .corruptedStream s.rp (c.on s)
  | .ok (f, _) => formBody f (c.on s)) = _
  cases hd : decodeForm s.hdr.marker (fetchForm s) with
  | error e => rfl
  | ok p => exact same_form p.1 c s

theorem same_rledecEnter : Same rledecEnter := by
  intro c s
  unfold rledecEnter
  exact (Same.andThen same_checkInLen
    (same_ok (f := fun s => { s with workLen := 0#32 }.seek Config.hdrLen) fun _ _ => rfl)) c s

theorem same_rledec : Same rledecBody := by
  intro c s
  unfold rledecBody
  rw [same_rledecEnter c s]
  refine same_andThen (f := fun s => whileLoop (fun s => s.more .inp) rledecIter s.inLen.toNat s) ?_ c
  intro c s
  exact same_while (fun c s => rfl) same_rledecIter _ c s

theorem same_parse : Same parseBody := by
  intro c s
  unfold parseBody
  have : parseTests (c.on s) = parseTests s := by
    unfold parseTests
    rw [same_checkInLen c s]
    have : fetchHeader (c.on s) = fetchHeader s := rfl
    rw [this]
    cases checkInLen s <;> rfl
  rw [this]
  cases parseTests s <;> rfl

theorem same_frame : Same frameBody := by
  intro c s
  rw [frameBody_eq, frameBody_eq]; rfl

theorem same_select : Same selectBody := by
  intro c s
  rw [selectBody_eq, selectBody_eq]
  have h1 : (c.on s).status.pairValid = s.status.pairValid := rfl
  have h2 : freeFor (c.on s) = freeFor s := rfl
  rw [h1, h2]
  cases candidates.find? (freeFor s) <;> cases s.status.pairValid <;> rfl

theorem on_keepBest (c : Shell) (a b : Byte) (n : Word) (s : State) :
    keepBest a b n (c.on s) = c.on (keepBest a b n s) := by
  unfold keepBest
  have h : (c.on s).bestCount = s.bestCount := rfl
  rw [h]
  split <;> rfl

theorem on_countPair (c : Shell) (b : Byte) (s : State) : countPair b (c.on s) = c.on (countPair b s) :=
  on_keepBest c s.prev b (s.hist.read s.epoch (pairIndex s.prev b) + 1#32)
    (setCounter (pairIndex s.prev b) (s.hist.read s.epoch (pairIndex s.prev b) + 1#32) s)

theorem on_analyzeByte (c : Shell) (s : State) : analyzeByte (c.on s) = c.on (analyzeByte s) := by
  unfold analyzeByte sweepPair
  show (remember (s.cur .inp) (if 1 ≤ s.rp.toNat then countPair (s.cur .inp) (c.on (markUsed (s.cur .inp) s))
      else c.on (markUsed (s.cur .inp) s))).advance 1 =
    c.on ((remember (s.cur .inp) (if 1 ≤ s.rp.toNat then _ else _)).advance 1)
  split
  · rw [on_countPair]; rfl
  · rfl

theorem on_sweep (c : Shell) : ∀ n s, analyzeSweep n (c.on s) = c.on (analyzeSweep n s)
  | 0, _ => rfl
  | n + 1, s => by
    show analyzeSweep n (analyzeByte (c.on s)) = c.on (analyzeSweep n (analyzeByte s))
    rw [on_analyzeByte, on_sweep c n]

theorem on_breakTie (c : Shell) (s : State) : breakTie (c.on s) = c.on (breakTie s) := by
  have hi : (c.on s).input = s.input := rfl
  unfold breakTie
  rw [hi]
  show (match s.params.tie with
  | .firstToReachMax => c.on s
  | .firstEncountered =>
    match firstPairWith s.epoch s.hist s.bestCount s.input with
    | some p => { c.on s with pair := p }
    | none => c.on s
  | .lowestIndex =>
    match s.hist.cells.find? (fun q : Nat × Word => q.2 == s.bestCount) with
    | some q => { c.on s with pair := pairOfIndex q.1 }
    | none => c.on s) = _
  cases s.params.tie with
  | firstToReachMax => rfl
  | firstEncountered => simp only; cases firstPairWith s.epoch s.hist s.bestCount s.input <;> rfl
  | lowestIndex => simp only; cases s.hist.cells.find? (fun q : Nat × Word => q.2 == s.bestCount) <;> rfl

theorem same_analyze : Same analyzeBody := by
  intro c s
  unfold analyzeBody
  rw [same_checkInLen c s]
  refine same_andThen
    (f := fun s => .ok (setPairValid (breakTie (analyzeSweep s.inLen.toNat (analyzeClear s))))) ?_ c
  refine same_ok (f := fun s => setPairValid (breakTie (analyzeSweep s.inLen.toNat (analyzeClear s)))) fun c s => ?_
  show setPairValid (breakTie (analyzeSweep s.inLen.toNat (c.on (analyzeClear s)))) = _
  rw [on_sweep, on_breakTie]; rfl

/-- A stage of a composite command, in any shell, is the unit's body with another `PHASE` (45 R246). -/
theorem same_stage {b : State → Ran} (hb : Same b) (p : BitVec 4) (c : Shell) (s : State) :
    stage p b (c.on s) = (b s).map ({ c with phase := p } : Shell).on := hb { c with phase := p } s

end Sys2Proof.Machine
end

