-- ==== Sys2Proof/Tests/Slice0.lean ====
section
/-!
SUPPORT. Tests with expected results taken from the spec's encodings and from the vectors of 95_test_vectors.md, each named in
the theorem's comment; and for every statement with hypotheses a witness that they can be met, one for each clause.
-/

namespace Sys2Proof.Tests

open Sys2Proof Sys2Proof.Machine

/-- A buffer that holds `bytes` from index `i` up. -/
def listed : Nat → List Byte → Memory
  | _, [] => []
  | i, b :: rest => (i, b) :: listed (i + 1) rest

/-- The state after reset with `bytes` loaded into IN (30 R106 `LOAD IN`). -/
def loaded (bytes : List Byte) : State :=
  { State.reset with bufIn := listed 0 bytes, inLen := BitVec.ofNat 32 bytes.length }

/-- The header fields. -/
def fields (s a b m : Byte) : Hdr := { sub := s, orig1 := a, orig2 := b, marker := m }

/-- A state with `h` in `HDR` (30 R106 `SETHDR`). -/
def withHdr (h : Hdr) (s : State) : State := { s with hdr := h }

/-- A state with `bytes` in WORK. -/
def withWork (bytes : List Byte) (s : State) : State :=
  { s with bufWork := listed 0 bytes, workLen := BitVec.ofNat 32 bytes.length }

/-- A state with other capacities. -/
def withCaps (i w o : Nat) (s : State) : State :=
  { s with params := { s.params with capIn := BitVec.ofNat 32 i, capWork := BitVec.ofNat 32 w, capOut := BitVec.ofNat 32 o } }

/-- A state in which a command runs. -/
def running (a : Activity) (s : State) : State :=
  { s with status := { s.status with busy := true, done := false }, activity := a }

/-- A state with moves to come. -/
def next (l : List Move) (s : State) : State := { s with schedule := l }

/-- `USED` with the bits of `vs` set. -/
def usedOf (vs : List Byte) : Used := vs.foldl Used.mark Used.clear

/-- The analyzer's results as a state that SELECT reads. -/
def analyzed (vs : List Byte) (a b : Byte) (n : Nat) : State :=
  { State.reset with
    used := usedOf vs
    pair := { a := a, b := b }
    bestCount := BitVec.ofNat 32 n
    status := { Status.reset with pairValid := true } }

/-- The outcome is a next state with property `p`. -/
def ends (o : Host.Outcome State Fault Refusal) (p : State → Bool) : Bool :=
  match o with
  | .next t => p t
  | .fault _ => false
  | .refused _ => false

/-- `STATUS`, `ERR_INFO` as the host reads them. -/
def reports (t : State) (st info : Nat) : Bool := t.status.word == BitVec.ofNat 32 st && t.errInfo == BitVec.ofNat 32 info

/-! ## Well-formedness -/

/-- 30 R95: a byte equal to the marker is no literal. -/
theorem test_wellFormed_lit_marker : WellFormed 0xFF#8 (.lit 0xFF#8) = false := by decide
theorem test_wellFormed_lit_other_marker : WellFormed 0x41#8 (.lit 0xFF#8) = true ∧ WellFormed 0x41#8 (.lit 0x41#8) = false := by
  decide
/-- 30 R94, R98: count and value may be any bytes, the marker and 0 among them. -/
theorem test_wellFormed_run : WellFormed 0xFF#8 (.run 0x00#8 0xFF#8) = true ∧ WellFormed 0xFF#8 (.run 0xFF#8 0xFF#8) = true := by
  decide

/-! ## Decoding, by words written out from 30 R91, R94, R95, R104 -/

theorem test_decode_analyze : decode .cmd [0b00000001#8, 0b00000000#8, 0b00000000#8, 0b00000000#8] = .ok (.analyze, []) := rfl
theorem test_decode_select : decode .cmd [0b00000010#8, 0b00000000#8, 0b00000000#8, 0b00000000#8] = .ok (.select, []) := rfl
theorem test_decode_subst : decode .cmd [0b00000011#8, 0b00000000#8, 0b00000000#8, 0b00000000#8] = .ok (.subst, []) := rfl
theorem test_decode_frame : decode .cmd [0b00000100#8, 0b00000000#8, 0b00000000#8, 0b00000000#8] = .ok (.frame, []) := rfl
theorem test_decode_rleenc : decode .cmd [0b00000101#8, 0b00000000#8, 0b00000000#8, 0b00000000#8] = .ok (.rleenc, []) := rfl
theorem test_decode_parse : decode .cmd [0b00000110#8, 0b00000000#8, 0b00000000#8, 0b00000000#8] = .ok (.parse, []) := rfl
theorem test_decode_rledec : decode .cmd [0b00000111#8, 0b00000000#8, 0b00000000#8, 0b00000000#8] = .ok (.rledec, []) := rfl
theorem test_decode_unsubst : decode .cmd [0b00001000#8, 0b00000000#8, 0b00000000#8, 0b00000000#8] = .ok (.unsubst, []) := rfl
theorem test_decode_compress : decode .cmd [0b00001001#8, 0b00000000#8, 0b00000000#8, 0b00000000#8] = .ok (.compress, []) := rfl
theorem test_decode_decompress : decode .cmd [0b00001010#8, 0b00000000#8, 0b00000000#8, 0b00000000#8] = .ok (.decompress, []) := rfl
/-- 30 R105: OP 0, OP 11 and a word with bit 4 set are reserved. -/
theorem test_decode_reserved :
    decode .cmd [0x00#8, 0x00#8, 0x00#8, 0x00#8] = .error (.reservedCommand 0x00000000#32) ∧
    decode .cmd [0x0B#8, 0x00#8, 0x00#8, 0x00#8] = .error (.reservedCommand 0x0000000B#32) ∧
    decode .cmd [0x11#8, 0x00#8, 0x00#8, 0x00#8] = .error (.reservedCommand 0x00000011#32) ∧
    decode .cmd [0x01#8, 0x00#8, 0x00#8, 0x80#8] = .error (.reservedCommand 0x80000001#32) := ⟨rfl, rfl, rfl, rfl⟩
/-- 30 R91: `01010000 01011000 01001100 ssssssss aaaaaaaa bbbbbbbb mmmmmmmm`, then the payload. -/
theorem test_decode_hdr : decode .header
    [0b01010000#8, 0b01011000#8, 0b01001100#8, 0b10000000#8, 0b01000001#8, 0b01000010#8, 0b11111111#8, 0x99#8] =
    .ok (.hdr (fields 0x80#8 0x41#8 0x42#8 0xFF#8), [0x99#8]) := rfl
/-- 30 R94: `11111111 cccccccc vvvvvvvv`. -/
theorem test_decode_run : decode (.stream 0xFF#8) [0b11111111#8, 0b00000101#8, 0b10000000#8, 0x77#8] =
    .ok (.run 0x05#8 0x80#8, [0x77#8]) := rfl
/-- 30 R95, 43 R196: a byte that is not the marker of the file. -/
theorem test_decode_lit : decode (.stream 0x41#8) [0b11111111#8, 0x77#8] = .ok (.lit 0xFF#8, [0x77#8]) := rfl
/-- 43 R197: a marker with one byte after it, and with none. -/
theorem test_decode_truncated : decode (.stream 0xFF#8) [0xFF#8, 0x03#8] = .error .truncatedRun ∧
    decode (.stream 0xFF#8) [0xFF#8] = .error .truncatedRun := ⟨rfl, rfl⟩

/-- The rows of spec/opcode_table.json, each by its own bits. -/
theorem test_table :
    [1, 2, 3, 4, 5, 6, 7, 8, 9, 10].map (decodeTableWord 32) =
      [some .analyze, some .select, some .subst, some .frame, some .rleenc, some .parse, some .rledec, some .unsubst,
        some .compress, some .decompress] ∧
    decodeTableWord 56 0x50584C804142FF = some (.hdr (fields 0x80#8 0x41#8 0x42#8 0xFF#8)) ∧
    decodeTableWord 24 0xFF0580 = some (.run 0x05#8 0x80#8) ∧
    decodeTableWord 8 0x61 = some (.lit 0x61#8) := by decide

/-- Every command word of the table, placed after reset, is what the next step executes. -/
theorem test_fetch_commands :
    ([(1, Instr.analyze), (2, .select), (3, .subst), (4, .frame), (5, .rleenc), (6, .parse), (7, .rledec), (8, .unsubst),
      (9, .compress), (10, .decompress)].all fun p =>
        ends (step (State.reset.withFetchWord 32 p.1)) fun t => ends (exec p.2 (State.reset.ring (BitVec.ofNat 32 p.1)))
          fun u => decide (t = u)) = true := by decide +kernel
/-- The header record, placed after reset, loads `HDR` in the next step. -/
theorem test_fetch_hdr : ends (step (State.reset.withFetchWord 56 0x50584C804142FE)) (fun t =>
    t.hdr == fields 0x80#8 0x41#8 0x42#8 0xFE#8 && t.activity == .loaded false) = true := by decide +kernel
/-- A payload form, placed after reset, appends in the next step. -/
theorem test_fetch_run : ends (step (State.reset.withFetchWord 24 0xFF0261)) (fun t =>
    t.workBytes == [0x61#8, 0x61#8] && t.rp == 10#32) = true := by decide +kernel
theorem test_fetch_lit : ends (step (State.reset.withFetchWord 8 0x61)) (fun t =>
    t.workBytes == [0x61#8] && t.rp == 8#32) = true := by decide +kernel

/-! ## One instruction at a time, by the vectors of 95 -/

/-- V-AN-6: two pairs with count 2, the one that reaches 2 first wins. -/
theorem test_analyze_tie : ends (exec .analyze (loaded [0x58#8, 0x59#8, 0x41#8, 0x42#8, 0x41#8, 0x42#8, 0x58#8, 0x59#8]))
    (fun t => t.bestCount == 2#32 && pairWord t.pair == 0x00004241#32 && reports t 0x0000000A 0 &&
      t.hist.read 0 0x5859 == 2#32 && t.hist.read 0 0x4258 == 1#32 && t.used.read 0 0x59#8 && !t.used.read 0 0x43#8) = true := by
  decide +kernel
/-- V-AN-9 and V-AN-16: the pair of zeros, `PAIR` reads 0 although PAIR_VALID is 1. -/
theorem test_analyze_zeros : ends (exec .analyze (loaded [0x00#8, 0x00#8, 0x00#8, 0x00#8, 0x00#8, 0x00#8])) (fun t =>
    t.bestCount == 5#32 && pairWord t.pair == 0#32 && t.status.pairValid && t.hist.read 0 0 == 5#32) = true := by decide +kernel
/-- V-SE-2: 80 and 81 are used, 82 is free. -/
theorem test_select_first_free : ends (exec .select (analyzed [0x80#8, 0x81#8, 0x83#8, 0x41#8, 0x42#8] 0x41#8 0x42#8 2)) (fun t =>
    hdrWord t.hdr == 0xFF424182#32 && reports t 0x0000000A 0) = true := by decide +kernel
/-- V-SE-10: without a pair a stale `SUB` is cleared, though 0x80 is free. -/
theorem test_select_no_pair : ends (exec .select (withHdr (fields 0x99#8 0x22#8 0x33#8 0xFF#8) State.reset)) (fun t =>
    hdrWord t.hdr == 0xFF000000#32) = true := by decide +kernel
/-- V-SU-5: indices 0 and 1 are replaced, not 1 and 2. -/
theorem test_subst_left_to_right : ends (exec .subst (withHdr (fields 0x80#8 0x41#8 0x41#8 0xFF#8)
    (loaded [0x41#8, 0x41#8, 0x41#8]))) (fun t => t.workBytes == [0x80#8, 0x41#8] && reports t 2 0) = true := by decide +kernel
/-- V-SU-11: `SUB` = 0 switches substitution off. -/
theorem test_subst_off : ends (exec .subst (withHdr (fields 0x00#8 0x00#8 0x00#8 0xFF#8) (loaded [0x00#8, 0x00#8, 0x00#8, 0x00#8])))
    (fun t => t.workBytes == [0x00#8, 0x00#8, 0x00#8, 0x00#8]) = true := by decide +kernel
/-- V-UN-7: the two bytes written are not looked at again. -/
theorem test_unsubst_no_rescan : ends (exec .unsubst (withHdr (fields 0x80#8 0x80#8 0x80#8 0xFF#8) (withWork [0x80#8] State.reset)))
    (fun t => t.output == [0x80#8, 0x80#8] && reports t 2 0) = true := by decide +kernel
/-- V-UN-6: 0xFF is accepted as a substitute byte. -/
theorem test_unsubst_marker : ends (exec .unsubst (withHdr (fields 0xFF#8 0x41#8 0x42#8 0xFF#8)
    (withWork [0xFF#8, 0xFF#8, 0x43#8] State.reset))) (fun t => t.output == [0x41#8, 0x42#8, 0x41#8, 0x42#8, 0x43#8]) = true := by
  decide +kernel
/-- V-RE-19. -/
theorem test_rleenc_mixed : ends (exec .rleenc (withWork [0x01#8, 0x01#8, 0x01#8, 0x01#8, 0x02#8, 0x02#8, 0x02#8, 0xFF#8, 0x03#8,
    0x03#8, 0x03#8, 0x03#8, 0x03#8, 0xFF#8, 0xFF#8] State.reset)) (fun t => t.output == [0xFF#8, 0x04#8, 0x01#8, 0x02#8, 0x02#8,
    0x02#8, 0xFF#8, 0x01#8, 0xFF#8, 0xFF#8, 0x05#8, 0x03#8, 0xFF#8, 0x02#8, 0xFF#8]) = true := by decide +kernel
/-- V-RE-20: the marker is the constant 0xFF, whatever `HDR.MARKER` holds. -/
theorem test_rleenc_marker : ends (exec .rleenc (withHdr (fields 0x00#8 0x00#8 0x00#8 0x41#8)
    (withWork [0x41#8, 0x41#8, 0x41#8, 0x41#8, 0x41#8] State.reset))) (fun t => t.output == [0xFF#8, 0x05#8, 0x41#8]) = true := by
  decide +kernel
/-- V-RD-16: the marker comes from the header. -/
theorem test_rledec_marker : ends (exec .rledec (withHdr (fields 0x00#8 0x00#8 0x00#8 0x41#8) (loaded [0x00#8, 0x00#8, 0x00#8, 0x00#8,
    0x00#8, 0x00#8, 0x00#8, 0x41#8, 0x03#8, 0x42#8, 0xFF#8]))) (fun t => t.workBytes == [0x42#8, 0x42#8, 0x42#8, 0xFF#8] &&
    reports t 2 0) = true := by decide +kernel
/-- V-RD-14: the fourth payload byte, at index 10, is a marker with nothing after it. -/
theorem test_rledec_truncated : ends (exec .rledec (loaded [0x50#8, 0x58#8, 0x4C#8, 0x00#8, 0x00#8, 0x00#8, 0xFF#8, 0xFF#8, 0x03#8,
    0xFF#8, 0xFF#8])) (fun t => t.workLen == 0#32 && reports t 0x26 10) = true := by decide +kernel
/-- V-FR-3: byte 6 is the constant. -/
theorem test_frame_constant : ends (exec .frame (withHdr (fields 0x41#8 0x42#8 0x43#8 0x00#8) State.reset)) (fun t =>
    t.output == [0x50#8, 0x58#8, 0x4C#8, 0x41#8, 0x42#8, 0x43#8, 0xFF#8] && hdrWord t.hdr == 0x00434241#32) = true := by
  decide +kernel
/-- V-PA-3: no field is checked. -/
theorem test_parse_unchecked : ends (exec .parse (loaded [0x50#8, 0x58#8, 0x4C#8, 0x41#8, 0x42#8, 0x43#8, 0x44#8, 0x99#8])) (fun t =>
    hdrWord t.hdr == 0x44434241#32 && reports t 2 0) = true := by decide +kernel
/-- V-PA-11: wrong magic and short: the magic test comes first. -/
theorem test_parse_magic_first : ends (exec .parse (loaded [0x50#8, 0x58#8, 0x58#8])) (fun t =>
    hdrWord t.hdr == 0xFF000000#32 && reports t 0x16 0) = true := by decide +kernel
/-- S1. -/
theorem test_compress_overlap : ends (exec .compress (loaded [0x61#8, 0x61#8, 0x61#8])) (fun t =>
    t.output == [0x50#8, 0x58#8, 0x4C#8, 0x80#8, 0x61#8, 0x61#8, 0xFF#8, 0x80#8, 0x61#8] && hdrWord t.hdr == 0xFF616180#32 &&
    reports t 0x0A 0) = true := by decide +kernel
/-- S4: a literal 0xFF is always escaped. -/
theorem test_compress_escape : ends (exec .compress (loaded [0x61#8, 0xFF#8, 0x62#8])) (fun t =>
    t.output == [0x50#8, 0x58#8, 0x4C#8, 0x00#8, 0x00#8, 0x00#8, 0xFF#8, 0x61#8, 0xFF#8, 0x01#8, 0xFF#8, 0x62#8]) = true := by
  decide +kernel
/-- The example of 45 R240. -/
theorem test_decompress_example : ends (exec .decompress (loaded [0x50#8, 0x58#8, 0x4C#8, 0x80#8, 0x41#8, 0x42#8, 0xFF#8, 0xFF#8,
    0x05#8, 0x80#8])) (fun t => t.output == [0x41#8, 0x42#8, 0x41#8, 0x42#8, 0x41#8, 0x42#8, 0x41#8, 0x42#8, 0x41#8, 0x42#8] &&
    t.workBytes == [0x80#8, 0x80#8, 0x80#8, 0x80#8, 0x80#8] && hdrWord t.hdr == 0xFF424180#32) = true := by decide +kernel
/-- S7. -/
theorem test_decompress_truncated : ends (exec .decompress (loaded [0x50#8, 0x58#8, 0x4C#8, 0x00#8, 0x00#8, 0x00#8, 0xFF#8, 0xFF#8,
    0x03#8])) (fun t => reports t 0x26 7 && t.outLen == 0#32 && t.workLen == 0#32 && hdrWord t.hdr == 0xFF000000#32) = true := by
  decide +kernel
/-- 43 R195: count 0 appends nothing and moves the cursor by 3. -/
theorem test_run_zero : ends (exec (.run 0x00#8 0x61#8) (running (.stream false) (State.reset.seek 7))) (fun t =>
    t.workLen == 0#32 && t.rp == 10#32 && t.activity == .stream false) = true := by decide +kernel
/-- 60 R255, R258: RUN finds WORK full after one of its three bytes. -/
theorem test_run_full : ends (exec (.run 0x03#8 0x61#8) (running (.stream false) (withCaps 16 1 16 State.reset))) (fun t =>
    reports t 0x36 0 && t.workLen == 0#32 && t.activity == .idle) = true := by decide +kernel
/-- 43 R193: a literal goes behind what WORK holds. -/
theorem test_lit : ends (exec (.lit 0x62#8) (running (.stream false) (withWork [0x61#8] (State.reset.seek 9)))) (fun t =>
    t.workBytes == [0x61#8, 0x62#8] && t.rp == 10#32) = true := by decide +kernel
/-- 44 R216: HDR loads the four bytes unchecked. -/
theorem test_hdr : ends (exec (.hdr (fields 0x41#8 0x42#8 0x43#8 0x44#8)) State.reset) (fun t =>
    hdrWord t.hdr == 0x44434241#32) = true := by decide +kernel
/-- 95 `STATUS` values: IllegalCommand reads 0x46, with the word in `ERR_INFO`. -/
theorem test_illegal : ends (step (State.reset.ring 0x0000000B#32)) (fun t => reports t 0x46 0x0B) = true := by decide +kernel

/-! ## Witnesses: the hypotheses of each statement can be met

A statement whose only hypothesis compares lengths with capacities is met by `State.reset`; where a bound is a boundary, the
witness stands at it. -/

theorem of_ends {o : Host.Outcome State Fault Refusal} {p : State → Bool} (h : ends o p = true) :
    ∃ t, o = .next t ∧ p t = true := by
  cases o with
  | next t => exact ⟨t, rfl, h⟩
  | fault r => exact absurd h (by simp [ends])
  | refused r => exact absurd h (by simp [ends])

theorem wit_DecodeEncodeAgree : WellFormed 0xFF#8 (.run 0x00#8 0xFF#8) = true ∧ WellFormed 0x41#8 (.lit 0xFF#8) = true ∧
    WellFormed 0xFF#8 (.lit 0xFE#8) = true ∧ WellFormed 0xFF#8 (.hdr (fields 0x00#8 0xFF#8 0x50#8 0x58#8)) = true ∧
    WellFormed 0xFF#8 .decompress = true := by decide
theorem wit_EncodeDecodeAgree : decode .cmd [0x0A#8, 0x00#8, 0x00#8, 0x00#8, 0x77#8] = .ok (.decompress, [0x77#8]) ∧
    decode (.stream 0xFF#8) [0xFF#8, 0x00#8, 0xFF#8] = .ok (.run 0x00#8 0xFF#8, []) ∧
    decode (.stream 0x00#8) [0x01#8] = .ok (.lit 0x01#8, []) ∧
    decode .header [0x50#8, 0x58#8, 0x4C#8, 0xFF#8, 0xFF#8, 0xFF#8, 0xFF#8] = .ok (.hdr (fields 0xFF#8 0xFF#8 0xFF#8 0xFF#8), []) :=
  ⟨rfl, rfl, rfl, rfl⟩
theorem wit_IllegalFormsExact_magic : ([] : List Byte).take 3 ≠ [0x50#8, 0x58#8, 0x4C#8] ∧
    [0x50#8, 0x58#8].take 3 ≠ [0x50#8, 0x58#8, 0x4C#8] ∧ [0x50#8, 0x58#8, 0x4D#8].take 3 ≠ [0x50#8, 0x58#8, 0x4C#8] := by decide
theorem wit_IllegalFormsExact_short : [0x50#8, 0x58#8, 0x4C#8].take 3 = [0x50#8, 0x58#8, 0x4C#8] ∧
    [0x50#8, 0x58#8, 0x4C#8].length < 7 ∧ [0x50#8, 0x58#8, 0x4C#8, 0x00#8, 0x00#8, 0x00#8].length < 7 := by decide
theorem wit_IllegalFormsExact_whole :
    [0x50#8, 0x58#8, 0x4C#8, 0x00#8, 0x00#8, 0x00#8, 0xFF#8].take 3 = [0x50#8, 0x58#8, 0x4C#8] ∧
    7 ≤ [0x50#8, 0x58#8, 0x4C#8, 0x00#8, 0x00#8, 0x00#8, 0xFF#8].length := by decide
theorem wit_IllegalFormsExact_forms : [0xFF#8].head? = some 0xFF#8 ∧ [0xFF#8].length < 3 ∧
    [0xFF#8, 0x03#8].head? = some 0xFF#8 ∧ [0xFF#8, 0x03#8].length < 3 ∧ [0xFF#8, 0x03#8, 0x61#8].head? = some 0xFF#8 ∧
    3 ≤ [0xFF#8, 0x03#8, 0x61#8].length ∧ (0xFE#8 : Byte) ≠ 0xFF#8 := by decide

/-- The host writes `w` to `CMD` and the core moves. -/
def ringThenMove (w : Word) (s : State) : State := next [.host (.writeReg 0x00 32 w), .core .whole] s

theorem wit_IllegalCommandWrite : ([0x00000000#32, 0x0000000B#32, 0x0000000F#32, 0x00000010#32, 0x80000001#32].all fun w =>
    decide ((w.toNat = 0 ∨ 11 ≤ w.toNat) ∧ (ringThenMove w State.reset).status.busy = false ∧
      (ringThenMove w State.reset).schedule = .host (.writeReg 0x00 32 w) :: .core .whole :: [])) = true := by decide
theorem wit_IllegalCommandWrite_busy : (ringThenMove 0x00000010#32 (running (.started 1#32) State.reset)).status.busy = true ∧
    (ringThenMove 0x00000010#32 (running (.started 1#32) State.reset)).schedule =
      .host (.writeReg 0x00 32 0x00000010#32) :: .core .whole :: [] := ⟨rfl, rfl⟩
theorem wit_ResetAbandons : (next [.host .reset] (running (.stream true) State.reset)).schedule = .host .reset :: [] := rfl
theorem wit_StepRunsCommandWord : (State.reset.ring 0x00000009#32).activity = .started 0x00000009#32 ∧
    decode .cmd (bytesOfWord 0x00000009#32) = .ok (.compress, []) ∧ (State.reset.ring 0x00000009#32).schedule = [] ∧
    (next [.core .whole] (State.reset.ring 0x00000009#32)).schedule = .core .whole :: [] := ⟨rfl, rfl, rfl, rfl⟩

/-- The header-only file of the empty input (S2). -/
def emptyFile : List Byte := [0x50#8, 0x58#8, 0x4C#8, 0x00#8, 0x00#8, 0x00#8, 0xFF#8]

theorem wit_StepRunsHeaderRecord : (running (.header true) (loaded emptyFile)).activity = .header true ∧
    (running (.header true) (loaded emptyFile)).inLen.toNat ≤ (running (.header true) (loaded emptyFile)).params.capIn.toNat ∧
    decode .header (fetchHeader (running (.header true) (loaded emptyFile))) = .ok (.hdr (fields 0x00#8 0x00#8 0x00#8 0xFF#8), []) ∧
    (running (.header true) (loaded emptyFile)).schedule = [] ∧
    (next [.core .form] (running (.header true) (loaded emptyFile))).schedule = .core .form :: [] :=
  ⟨rfl, by decide, rfl, rfl, rfl⟩

/-- A running decoder at the form `bytes`, the last of its file. -/
def atForm (bytes : List Byte) : State := running (.stream true) ((loaded (emptyFile ++ bytes)).seek 7)

theorem wit_StepRunsPayloadForm : (atForm [0xFF#8, 0x02#8, 0x61#8]).activity = .stream true ∧
    (atForm [0xFF#8, 0x02#8, 0x61#8]).rp.toNat < (atForm [0xFF#8, 0x02#8, 0x61#8]).inLen.toNat ∧
    decode (.stream (atForm [0xFF#8, 0x02#8, 0x61#8]).hdr.marker) (fetchForm (atForm [0xFF#8, 0x02#8, 0x61#8])) =
      .ok (.run 0x02#8 0x61#8, []) ∧
    decode (.stream (atForm [0x61#8]).hdr.marker) (fetchForm (atForm [0x61#8])) = .ok (.lit 0x61#8, []) ∧
    (atForm [0x61#8]).schedule = [] ∧ (next [.core .whole] (atForm [0x61#8])).schedule = .core .whole :: [] :=
  ⟨rfl, by decide, rfl, rfl, rfl, rfl⟩
theorem wit_CommandStart : (ringThenMove 0x00000001#32 State.reset).status.busy = false ∧
    (ringThenMove 0x00000001#32 State.reset).schedule = .host (.writeReg 0x00 32 0x00000001#32) :: [.core .whole] := ⟨rfl, rfl⟩
theorem wit_BusyAccess : (running (.started 1#32) State.reset).status.busy = true ∧
    (next [.host (.writeReg (4 * 15) 32 7#32)] (running (.started 1#32) State.reset)).schedule =
      .host (.writeReg (4 * 15) 32 7#32) :: [] ∧
    65535 < ((running (.started 1#32) State.reset).cap .inp).toNat ∧
    (next [.host (.writeBuf .inp 65535 7#8)] (running (.started 1#32) State.reset)).schedule = .host (.writeBuf .inp 65535 7#8) :: [] ∧
    (next [.host (.readReg 0x04 32)] (running (.started 1#32) State.reset)).schedule = .host (.readReg 0x04 32) :: [] :=
  ⟨rfl, rfl, by decide, rfl, rfl⟩
/-- The reads of a register other than `STATUS`, the first and the last one, and of the last byte of OUT. -/
theorem wit_BusyAccess_read : (running (.started 1#32) State.reset).status.busy = true ∧
    (∀ k ∈ [0, 15], (next [.host (.readReg (4 * k) 32)] (running (.started 1#32) State.reset)).schedule =
      .host (.readReg (4 * k) 32) :: []) ∧
    131079 < ((running (.started 1#32) State.reset).cap .out).toNat ∧
    (next [.host (.readBuf .out 131079)] (running (.started 1#32) State.reset)).schedule = .host (.readBuf .out 131079) :: [] :=
  ⟨rfl, fun _ _ => rfl, by decide, rfl⟩
theorem wit_RegisterReads : ∀ k, k < 16 → State.reset.status.busy = false ∧
    (next [.host (.readReg (4 * k) 32)] State.reset).schedule = .host (.readReg (4 * k) 32) :: [] := fun _ _ => ⟨rfl, rfl⟩
theorem wit_RegisterWrites : ∀ k, 1 ≤ k → k < 16 → State.reset.status.busy = false ∧
    (next [.host (.writeReg (4 * k) 32 0xFFFFFFFF#32)] State.reset).schedule = .host (.writeReg (4 * k) 32 0xFFFFFFFF#32) :: [] :=
  fun _ _ _ => ⟨rfl, rfl⟩
theorem wit_BufferAccess_read : (loaded emptyFile).status.busy = false ∧ 6 < ((loaded emptyFile).len .inp).toNat ∧
    6 < ((loaded emptyFile).cap .inp).toNat ∧
    0 < ((withWork [0x61#8] State.reset).len .work).toNat ∧ 0 < ((withWork [0x61#8] State.reset).cap .work).toNat ∧
    (next [.host (.readBuf .inp 6)] (loaded emptyFile)).schedule = .host (.readBuf .inp 6) :: [] := by decide
/-- The first byte above a length of 7, and the last byte of IN. -/
theorem wit_BufferAccess_above : (loaded emptyFile).status.busy = false ∧ ((loaded emptyFile).len .inp).toNat ≤ 7 ∧
    7 < ((loaded emptyFile).cap .inp).toNat ∧ 65535 < ((loaded emptyFile).cap .inp).toNat ∧
    (next [.host (.readBuf .inp 7)] (loaded emptyFile)).schedule = .host (.readBuf .inp 7) :: [] := by decide
theorem wit_BufferAccess_write : 65535 < State.reset.params.capIn.toNat ∧
    (next [.host (.writeBuf .inp 65535 7#8)] State.reset).schedule = .host (.writeBuf .inp 65535 7#8) :: [] ∧
    Space.work ≠ .inp ∧ 65535 < (State.reset.cap .work).toNat ∧ Space.out ≠ .inp ∧ 131079 < (State.reset.cap .out).toNat ∧
    (next [.host (.writeBuf .out 131079 7#8)] State.reset).schedule = .host (.writeBuf .out 131079 7#8) :: [] := by decide
theorem wit_BadAccessStops : 0x40 ≤ 0x40 ∧ (next [.host (.readReg 0x40 32)] State.reset).schedule = .host (.readReg 0x40 32) :: [] ∧
    0x3F < 0x40 ∧ 0x3F % 4 ≠ 0 ∧ (next [.host (.readReg 0x3F 32)] State.reset).schedule = .host (.readReg 0x3F 32) :: [] ∧
    16 ≠ 32 ∧ (next [.host (.writeReg 0x3C 16 7#32)] State.reset).schedule = .host (.writeReg 0x3C 16 7#32) :: [] ∧
    (State.reset.cap .inp).toNat ≤ 65536 ∧ (next [.host (.readBuf .inp 65536)] State.reset).schedule = .host (.readBuf .inp 65536) :: [] := by
  decide

/-- Two bytes of input in an instance that holds no more. -/
def fullInput : State := withCaps 2 2 7 (loaded [0x61#8, 0x62#8])

theorem wit_AnalyzeCounts : fullInput.inLen.toNat ≤ fullInput.params.capIn.toNat := by decide
theorem wit_AnalyzeUsedBytes : fullInput.inLen.toNat ≤ fullInput.params.capIn.toNat := by decide
theorem wit_AnalyzeBest : fullInput.inLen.toNat ≤ fullInput.params.capIn.toNat ∧ 2 ≤ fullInput.inLen.toNat ∧
    (loaded [0x61#8]).inLen.toNat ≤ (loaded [0x61#8]).params.capIn.toNat ∧ (loaded [0x61#8]).inLen.toNat < 2 := by decide
theorem wit_AnalyzeTieBreak : fullInput.inLen.toNat ≤ fullInput.params.capIn.toNat ∧ 2 ≤ fullInput.inLen.toNat ∧
    fullInput.params.tie = .firstToReachMax := by decide

/-- Another tie rule. -/
def withTie (r : TieRule) (s : State) : State := { s with params := { s.params with tie := r } }

theorem wit_AnalyzeOtherTieRules : (withTie .firstEncountered fullInput).inLen.toNat ≤ (withTie .firstEncountered fullInput).params.capIn.toNat ∧
    2 ≤ (withTie .firstEncountered fullInput).inLen.toNat ∧ (withTie .firstEncountered fullInput).params.tie = .firstEncountered ∧
    (withTie .lowestIndex fullInput).params.tie = .lowestIndex := by decide
theorem wit_AnalyzeFrame : fullInput.inLen.toNat ≤ fullInput.params.capIn.toNat := by decide
theorem wit_AnalyzeDeterministic : fullInput.inLen.toNat ≤ fullInput.params.capIn.toNat ∧
    (withWork [0x77#8] (loaded [0x61#8, 0x62#8])).inLen.toNat ≤ (withWork [0x77#8] (loaded [0x61#8, 0x62#8])).params.capIn.toNat ∧
    fullInput.input = (withWork [0x77#8] (loaded [0x61#8, 0x62#8])).input ∧
    fullInput.params.tie = (withWork [0x77#8] (loaded [0x61#8, 0x62#8])).params.tie := by decide
theorem wit_AnalyzeCornerCases : (loaded []).input = [] ∧ (loaded [0x51#8]).input = [0x51#8] ∧
    (loaded [0x51#8, 0x51#8]).input = [0x51#8, 0x51#8] ∧ (loaded [0x61#8, 0x61#8, 0x61#8]).input = [0x61#8, 0x61#8, 0x61#8] ∧
    (loaded [0x41#8, 0x42#8, 0x43#8]).params.tie = .firstToReachMax ∧ 2 ≤ (loaded [0x41#8, 0x42#8, 0x43#8]).inLen.toNat ∧
    (Codec.pairs (loaded [0x41#8, 0x42#8, 0x43#8]).input).Nodup := by decide
theorem wit_SelectRule : (analyzed [0x41#8, 0x42#8] 0x41#8 0x42#8 2).status.pairValid = true ∧
    State.reset.status.pairValid = false := by decide +kernel
/-- V-SE-6 in one step: every value from 128 to 254 is used. -/
theorem wit_SelectRule_none : ends (exec .select (analyzed candidates 0x41#8 0x42#8 2)) (fun t => t.hdr.sub == 0x00#8) = true := by
  decide +kernel
theorem wit_SelectFreshness : fullInput.inLen.toNat ≤ fullInput.params.capIn.toNat := by decide

/-- The header fields (80, 41, 42) with the marker 0xFF. -/
def subAB : Hdr := fields 0x80#8 0x41#8 0x42#8 0xFF#8

theorem wit_SubstResult : (withHdr subAB (withCaps 3 2 7 (loaded [0x41#8, 0x42#8, 0x41#8]))).inLen.toNat ≤ 3 ∧
    (Codec.substituted subAB.sub subAB.orig1 subAB.orig2 (withHdr subAB (withCaps 3 2 7 (loaded [0x41#8, 0x42#8, 0x41#8]))).input).length ≤
      (withHdr subAB (withCaps 3 2 7 (loaded [0x41#8, 0x42#8, 0x41#8]))).params.capWork.toNat ∧
    (withHdr (fields 0x00#8 0x41#8 0x42#8 0xFF#8) fullInput).hdr.sub = 0x00#8 := by decide +kernel
theorem wit_SubstLength : fullInput.inLen.toNat ≤ fullInput.params.capIn.toNat ∧
    fullInput.inLen.toNat ≤ fullInput.params.capWork.toNat := by decide
theorem wit_UnsubstResult : (Codec.restored subAB.sub subAB.orig1 subAB.orig2
      (withHdr subAB (withCaps 7 7 7 (withWork [0x80#8, 0x80#8, 0x80#8, 0x61#8] State.reset))).workBytes).length ≤ 7 ∧
    subAB.sub ≠ 0x00#8 ∧ State.reset.hdr.sub = 0x00#8 := by decide +kernel
theorem wit_UnsubstUndoesSubst : fullInput.inLen.toNat ≤ fullInput.params.capIn.toNat ∧
    fullInput.inLen.toNat ≤ fullInput.params.capWork.toNat ∧ fullInput.inLen.toNat ≤ fullInput.params.capOut.toNat ∧
    fullInput.hdr.sub = 0x00#8 ∧ (withHdr subAB fullInput).hdr.sub ∉ (withHdr subAB fullInput).input := by decide
theorem wit_RleencResult : (withCaps 7 7 7 (withWork [0xFF#8, 0x00#8, 0xFF#8] State.reset)).outLen.toNat +
    (Codec.encoded (withCaps 7 7 7 (withWork [0xFF#8, 0x00#8, 0xFF#8] State.reset)).workBytes).length ≤
    (withCaps 7 7 7 (withWork [0xFF#8, 0x00#8, 0xFF#8] State.reset)).params.capOut.toNat := by decide +kernel
theorem wit_RleencSize : (withCaps 7 7 7 (withWork [0xFF#8, 0x00#8, 0xFF#8] State.reset)).outLen.toNat +
    (2 * (withCaps 7 7 7 (withWork [0xFF#8, 0x00#8, 0xFF#8] State.reset)).workLen.toNat + 1) ≤
    (withCaps 7 7 7 (withWork [0xFF#8, 0x00#8, 0xFF#8] State.reset)).params.capOut.toNat ∧
    0xFF#8 ∉ (withWork [0x78#8] State.reset).workBytes := by decide +kernel
theorem wit_RledecResult : (withCaps 10 2 7 (loaded (emptyFile ++ [0xFF#8, 0x02#8, 0x61#8]))).inLen.toNat ≤
      (withCaps 10 2 7 (loaded (emptyFile ++ [0xFF#8, 0x02#8, 0x61#8]))).params.capIn.toNat ∧
    Codec.expand 0xFF#8 7 ((withCaps 10 2 7 (loaded (emptyFile ++ [0xFF#8, 0x02#8, 0x61#8]))).input.drop 7) =
      ([0x61#8, 0x61#8], none) ∧ [0x61#8, 0x61#8].length ≤
      (withCaps 10 2 7 (loaded (emptyFile ++ [0xFF#8, 0x02#8, 0x61#8]))).params.capWork.toNat := by decide +kernel
/-- V-RD-13. -/
theorem wit_RledecTruncated : (loaded (emptyFile ++ [0x61#8, 0x62#8, 0xFF#8, 0x03#8])).inLen.toNat ≤ 65536 ∧
    Codec.expand 0xFF#8 7 ((loaded (emptyFile ++ [0x61#8, 0x62#8, 0xFF#8, 0x03#8])).input.drop 7) =
      ([0x61#8, 0x62#8], some 9) := by decide +kernel
theorem wit_RledecUndoesRleenc : ∃ s t u : State, s.outLen.toNat + (Codec.encoded s.workBytes).length ≤ s.params.capOut.toNat ∧
    exec .rleenc s = .next t ∧ u.inLen.toNat ≤ u.params.capIn.toNat ∧ s.workLen.toNat ≤ u.params.capWork.toNat ∧
    u.hdr.marker = 0xFF#8 ∧ u.input.drop 7 = t.output.drop s.outLen.toNat := by
  obtain ⟨t, ht, hp⟩ := of_ends (o := exec .rleenc (withWork [0xFF#8] State.reset)) (p := fun t =>
    decide ((loaded (emptyFile ++ [0xFF#8, 0x01#8, 0xFF#8])).input.drop 7 =
      t.output.drop (withWork [0xFF#8] State.reset).outLen.toNat)) (by decide +kernel)
  exact ⟨_, t, loaded (emptyFile ++ [0xFF#8, 0x01#8, 0xFF#8]), by decide +kernel, ht, by decide +kernel, by decide +kernel, rfl,
    of_decide_eq_true hp⟩
theorem wit_ParseLoads : (loaded emptyFile).inLen.toNat ≤ (loaded emptyFile).params.capIn.toNat ∧
    7 ≤ (loaded emptyFile).inLen.toNat ∧ (loaded emptyFile).byteAt .inp 0 = 0x50#8 ∧
    (loaded emptyFile).byteAt .inp 1 = 0x58#8 ∧ (loaded emptyFile).byteAt .inp 2 = 0x4C#8 := by decide
theorem wit_ParseUndoesFrame : ∃ s t u : State, exec .frame s = .next t ∧ 7 ≤ u.inLen.toNat ∧
    u.inLen.toNat ≤ u.params.capIn.toNat ∧ u.input.take 7 = t.output := by
  obtain ⟨t, ht, hp⟩ := of_ends (o := exec .frame State.reset) (p := fun t =>
    decide ((loaded emptyFile).input.take 7 = t.output)) (by decide +kernel)
  exact ⟨_, t, loaded emptyFile, ht, by decide +kernel, by decide +kernel, of_decide_eq_true hp⟩
theorem wit_ParseOutcome : (withCaps 6 7 7 (loaded emptyFile)).params.capIn.toNat < (withCaps 6 7 7 (loaded emptyFile)).inLen.toNat ∧
    (loaded []).input.take 3 ≠ [0x50#8, 0x58#8, 0x4C#8] ∧ (loaded (emptyFile.take 6)).input.take 3 = [0x50#8, 0x58#8, 0x4C#8] ∧
    (loaded (emptyFile.take 6)).inLen.toNat < 7 ∧ ¬(loaded emptyFile).inLen.toNat < 7 := by decide +kernel
theorem wit_RunExpands : (withCaps 7 3 7 State.reset).workLen.toNat + (0x03#8 : Byte).toNat ≤
    (withCaps 7 3 7 State.reset).params.capWork.toNat := by decide
theorem wit_LitCopies : (withCaps 7 2 7 (withWork [0x61#8] State.reset)).workLen.toNat <
    (withCaps 7 2 7 (withWork [0x61#8] State.reset)).params.capWork.toNat := by decide
theorem wit_InputTooLong : Instr.parse ∈ [Instr.analyze, .subst, .parse, .rledec, .compress, .decompress] ∧
    (withCaps 6 7 7 (loaded emptyFile)).params.capIn.toNat < (withCaps 6 7 7 (loaded emptyFile)).inLen.toNat := by decide
theorem wit_AppendOverflow_subst : (withCaps 2 1 7 (loaded [0x61#8, 0x62#8])).inLen.toNat ≤ 2 ∧
    (withCaps 2 1 7 (loaded [0x61#8, 0x62#8])).params.capWork.toNat <
      (Codec.substituted 0x00#8 0x00#8 0x00#8 (withCaps 2 1 7 (loaded [0x61#8, 0x62#8])).input).length := by decide +kernel
theorem wit_AppendOverflow_unsubst : (7 : Nat) < (Codec.restored subAB.sub subAB.orig1 subAB.orig2
    (withHdr subAB (withCaps 7 7 7 (withWork [0x80#8, 0x80#8, 0x80#8, 0x80#8] State.reset))).workBytes).length := by decide +kernel
theorem wit_AppendOverflow_rleenc :
    (withCaps 7 7 8 (withWork [0xFF#8, 0x00#8, 0xFF#8, 0x00#8, 0xFF#8] State.reset)).outLen.toNat ≤ 8 ∧
    8 < (withCaps 7 7 8 (withWork [0xFF#8, 0x00#8, 0xFF#8, 0x00#8, 0xFF#8] State.reset)).outLen.toNat +
      (Codec.encoded (withCaps 7 7 8 (withWork [0xFF#8, 0x00#8, 0xFF#8, 0x00#8, 0xFF#8] State.reset)).workBytes).length := by
  decide +kernel
theorem wit_AppendOverflow_rledec : (withCaps 10 1 7 (loaded (emptyFile ++ [0xFF#8, 0x02#8, 0x61#8]))).inLen.toNat ≤ 10 ∧
    (withCaps 10 1 7 (loaded (emptyFile ++ [0xFF#8, 0x02#8, 0x61#8]))).params.capWork.toNat < (Codec.expand 0xFF#8 7
      ((withCaps 10 1 7 (loaded (emptyFile ++ [0xFF#8, 0x02#8, 0x61#8]))).input.drop 7)).1.length := by decide +kernel
theorem wit_AppendOverflow_forms : (withCaps 7 2 7 State.reset).workLen.toNat ≤ (withCaps 7 2 7 State.reset).params.capWork.toNat ∧
    (withCaps 7 2 7 State.reset).params.capWork.toNat < (withCaps 7 2 7 State.reset).workLen.toNat + (0x03#8 : Byte).toNat ∧
    (withCaps 7 1 7 (withWork [0x61#8] State.reset)).workLen = (withCaps 7 1 7 (withWork [0x61#8] State.reset)).params.capWork := by
  decide
theorem wit_CompressResult : (withCaps 2 2 12 (loaded [0x61#8, 0x62#8])).inLen.toNat ≤ 2 ∧
    2 * (withCaps 2 2 12 (loaded [0x61#8, 0x62#8])).inLen.toNat + 8 ≤
      (withCaps 2 2 12 (loaded [0x61#8, 0x62#8])).params.capOut.toNat := by decide
theorem wit_CompressEmpty : (withCaps 0 0 7 State.reset).params.Legal ∧ (withCaps 0 0 7 State.reset).inLen = 0#32 := by decide
theorem wit_CompressOnlyCapacity : State.reset.params.Legal ∧ (withCaps 0 0 7 State.reset).params.Legal ∧
    (loaded [0x61#8]).params.Roomy ∧ (loaded [0x61#8]).inLen.toNat ≤ (loaded [0x61#8]).params.capIn.toNat := by decide
theorem wit_CompressIsItsUnits : ∃ t, issueUnits [.analyze, .select, .subst, .frame, .rleenc] (loaded [0x61#8, 0x61#8, 0x61#8]) = .next t :=
  (of_ends (p := fun _ => true) (by decide +kernel)).imp fun _ h => h.1
theorem wit_DecompressIsItsUnits : ∃ t, issueUnits [.parse, .rledec, .unsubst] (loaded emptyFile) = .next t :=
  (of_ends (p := fun _ => true) (by decide +kernel)).imp fun _ h => h.1
/-- The units stop at the first error: V-PA-4. -/
theorem wit_DecompressIsItsUnits_error : ∃ t, issueUnits [.parse, .rledec, .unsubst] (loaded []) = .next t ∧ t.status.err = true :=
  of_ends (p := fun t => t.status.err) (by decide +kernel)
/-- The file `50 58 4C 80 61 61 FF 80 61` of `aaa`. -/
theorem wit_DecompressResult :
    (withCaps 9 2 3 (loaded [0x50#8, 0x58#8, 0x4C#8, 0x80#8, 0x61#8, 0x61#8, 0xFF#8, 0x80#8, 0x61#8])).inLen.toNat ≤ 9 ∧
    7 ≤ (loaded [0x50#8, 0x58#8, 0x4C#8, 0x80#8, 0x61#8, 0x61#8, 0xFF#8, 0x80#8, 0x61#8]).inLen.toNat ∧
    (loaded [0x50#8, 0x58#8, 0x4C#8, 0x80#8, 0x61#8, 0x61#8, 0xFF#8, 0x80#8, 0x61#8]).input.take 3 =
      [0x50#8, 0x58#8, 0x4C#8] ∧
    Codec.expand (fileFields (loaded [0x50#8, 0x58#8, 0x4C#8, 0x80#8, 0x61#8, 0x61#8, 0xFF#8, 0x80#8, 0x61#8])).marker 7
      ((loaded [0x50#8, 0x58#8, 0x4C#8, 0x80#8, 0x61#8, 0x61#8, 0xFF#8, 0x80#8, 0x61#8]).input.drop 7) =
      ([0x80#8, 0x61#8], none) ∧
    (Codec.restored 0x80#8 0x61#8 0x61#8 [0x80#8, 0x61#8]).length ≤ 3 := by decide +kernel
theorem wit_DecompressEmptyFile : (loaded emptyFile).inLen.toNat ≤ (loaded emptyFile).params.capIn.toNat ∧
    (loaded emptyFile).input = [0x50#8, 0x58#8, 0x4C#8, 0x00#8, 0x00#8, 0x00#8, 0xFF#8] := by decide
theorem wit_FormByFormAgrees : ∀ p ∈ [(0x00000006#32, Instr.parse), (0x00000007#32, .rledec), (0x0000000A#32, .decompress)],
    p.2 ∈ [Instr.parse, .rledec, .decompress] ∧ ((loaded emptyFile).ring p.1).activity = .started p.1 ∧
    decode .cmd (bytesOfWord p.1) = .ok (p.2, []) ∧ ((loaded emptyFile).ring p.1).schedule = [] := by decide
theorem wit_RoundTrip : ∃ s t u : State, s.params.Roomy ∧ s.inLen.toNat ≤ s.params.capIn.toNat ∧ exec .compress s = .next t ∧
    u.input = t.output ∧ t.outLen.toNat ≤ u.params.capIn.toNat ∧ s.inLen.toNat ≤ u.params.capWork.toNat ∧
    s.inLen.toNat ≤ u.params.capOut.toNat := by
  obtain ⟨t, ht, hp⟩ := of_ends (o := exec .compress (withCaps 3 3 14 (loaded [0x61#8, 0x61#8, 0x61#8]))) (p := fun t =>
    decide ((withCaps 9 3 3 (loaded [0x50#8, 0x58#8, 0x4C#8, 0x80#8, 0x61#8, 0x61#8, 0xFF#8, 0x80#8, 0x61#8])).input = t.output ∧
      t.outLen.toNat ≤ 9)) (by decide +kernel)
  have hp := of_decide_eq_true hp
  exact ⟨_, t, withCaps 9 3 3 (loaded [0x50#8, 0x58#8, 0x4C#8, 0x80#8, 0x61#8, 0x61#8, 0xFF#8, 0x80#8, 0x61#8]),
    by decide +kernel, by decide +kernel, ht, hp.1, hp.2, by decide +kernel, by decide +kernel⟩

/-- A host about to start COMPRESS. -/
def aboutToStart : State := next [.host (.writeReg 0x00 32 0x00000009#32)] State.reset

theorem wit_StepKeepsInvariant : Inv aboutToStart ∧ ∃ t, step aboutToStart = .next t := by
  refine ⟨⟨⟨⟨List.Pairwise.nil, by simp [aboutToStart, next, State.reset]⟩, ⟨List.Pairwise.nil, by simp [aboutToStart, next, State.reset]⟩,
    ⟨List.Pairwise.nil, by simp [aboutToStart, next, State.reset]⟩,
    ⟨⟨List.Pairwise.nil, by simp [aboutToStart, next, State.reset]⟩, by simp [aboutToStart, next, State.reset]⟩⟩,
    ⟨by decide, by decide, by decide, by simp [aboutToStart, next, State.reset], by simp [aboutToStart, next, State.reset]⟩,
    ⟨by decide, by decide, by decide, by decide, fun _ => rfl, by decide, by decide⟩,
    ⟨by decide, by decide, by decide, by decide, fun c h => ?_, fun c h => ?_, fun c h => ?_⟩⟩, _, rfl⟩
  all_goals simp [aboutToStart, next, State.reset] at h

/-- A running decoder whose file has the one literal `61` left, in the state a run leaves. -/
theorem wit_StepKeepsInvariant_running : Inv (running (.stream false) ((loaded (emptyFile ++ [0x61#8])).seek 7)) ∧
    ∃ t, step (running (.stream false) ((loaded (emptyFile ++ [0x61#8])).seek 7)) = .next t := by
  refine ⟨⟨⟨by decide, by decide, by decide, by decide⟩,
    ⟨by decide, by decide, by decide, fun i hi => absurd hi (Nat.not_lt_zero i), fun i hi => absurd hi (Nat.not_lt_zero i)⟩,
    ⟨by decide, by decide, by decide, by decide, fun _ => rfl, by decide, by decide⟩,
    ⟨by decide, by decide, by decide, by decide, fun c h => ?_, fun c _ => by decide, fun c _ => by decide⟩⟩, _, rfl⟩
  simp [running, loaded, State.seek] at h
theorem wit_CoreNeverWritesInput : ((loaded [0x61#8, 0x61#8]).ring 0x00000009#32).schedule = [] ∧
    (next [.core .form] ((loaded [0x61#8, 0x61#8]).ring 0x00000009#32)).schedule = .core .form :: [] ∧
    ∃ t, step ((loaded [0x61#8, 0x61#8]).ring 0x00000009#32) = .next t :=
  ⟨rfl, rfl, (of_ends (p := fun _ => true) (by decide +kernel)).imp fun _ h => h.1⟩
theorem wit_AnalysisWriters : ∃ t, step ((loaded [0x61#8, 0x61#8]).ring 0x00000003#32) = .next t :=
  (of_ends (p := fun _ => true) (by decide +kernel)).imp fun _ h => h.1
/-- A host move while ANALYZE is started. -/
theorem wit_AnalysisWriters_host :
    ∃ t, step (next [.host (.writeReg 0x14 32 7#32)] ((loaded [0x61#8, 0x61#8]).ring 0x00000001#32)) = .next t :=
  (of_ends (p := fun _ => true) (by decide +kernel)).imp fun _ h => h.1
theorem wit_CommandsComplete : (State.reset.ring 0x00000009#32).schedule = [] ∧ (State.reset.ring 0x00000009#32).activity ≠ .idle ∧
    State.reset.activity = .idle := by decide

end Sys2Proof.Tests
end

namespace Sys2Proof.Machine

/-! ## What the arms of `exec` answer -/

/-- A command word's instruction is a whole command (30 R103). -/
theorem exec_command {i : Instr} {m : Byte} (h : i.port m = .cmd) : ∃ body, ∀ s, exec i s = command body s := by
  cases i with
  | analyze => exact ⟨analyzeBody, fun _ => rfl⟩
  | select => exact ⟨selectBody, fun _ => rfl⟩
  | subst => exact ⟨substBody, fun _ => rfl⟩
  | frame => exact ⟨frameBody, fun _ => rfl⟩
  | rleenc => exact ⟨rleencBody, fun _ => rfl⟩
  | parse => exact ⟨parseBody, fun _ => rfl⟩
  | rledec => exact ⟨rledecBody, fun _ => rfl⟩
  | unsubst => exact ⟨unsubstBody, fun _ => rfl⟩
  | compress => exact ⟨compressBody, fun _ => rfl⟩
  | decompress => exact ⟨decompressBody, fun _ => rfl⟩
  | hdr _ | run _ _ | lit _ => cases h

theorem exec_hdr (fields : Hdr) (s : State) : exec (.hdr fields) s = .next (loadHeader fields s) := rfl

theorem exec_form (f : Form) (s : State) : exec f.toInstr s = .next (formBody f s).settle := by
  cases f <;> rfl

/-- A command whose body does not raise completes normally (30 R103). -/
theorem command_ok {body : State → Ran} {s t : State} (h : body s.begin = .ok t) : command body s = .next t.complete := by
  unfold command
  rw [h, Ran.finish_ok]

/-- Settles O60: an instruction is a command, which ends in a completion, or a form, which is one step of a decoder. -/
theorem everyInstructionRuns : Obligations.EveryInstructionRuns := by
  intro i s
  cases hp : i.port 0#8 with
  | cmd =>
    obtain ⟨body, hbody⟩ := exec_command hp
    exact ⟨_, hbody s⟩
  | header =>
    cases i with
    | hdr fields => exact ⟨_, exec_hdr fields s⟩
    | _ => cases hp
  | stream _ =>
    cases i with
    | run count value => exact ⟨_, exec_form (.run count value) s⟩
    | lit b => exact ⟨_, exec_form (.lit b) s⟩
    | _ => cases hp

/-! ## The tie rules of ANALYZE -/

theorem pairs_input_ne_nil {s : State} (h : 2 ≤ s.inLen.toNat) : Codec.pairs s.input ≠ [] := by
  have hlen : (Codec.pairs s.input).length = s.inLen.toNat - 1 := by
    rw [Codec.length_pairs, State.input, State.length_bytes]
  exact List.ne_nil_of_length_pos (by omega)

/-- Settles O21: the sweep's counters give `BEST_COUNT`, and the tie rule picks its pair from them (`analyzeBody_spec`). -/
theorem analyzeOtherTieRules : Obligations.AnalyzeOtherTieRules := by
  intro s hcap hlen
  obtain ⟨h, u, m, p, pv, hbody, -, -, -, -, -, -, -, hpair⟩ := analyzeBody_spec s.begin hcap
  obtain ⟨-, htie⟩ := hpair (pairs_input_ne_nil hlen)
  rw [State.begin_params] at htie
  exact ⟨_, command_ok hbody, ⟨rfl, rfl, rfl, rfl, rfl, rfl⟩, fun hrule => by rwa [hrule] at htie,
    fun hrule => by rwa [hrule] at htie⟩

/-! ## Every command in progress completes -/

/-- An idle core that has reported completion (30 R103). -/
def Ended (t : State) : Prop := t.activity = .idle ∧ t.status.busy = false ∧ t.status.done = true

/-- Some number of steps from `s` ends the command. -/
def Completes (s : State) : Prop := ∃ n t, Host.Core.run core n s = .next t ∧ Ended t

theorem Ran.finish_ended (r : Ran) : Ended r.finish := by
  cases r <;> exact ⟨rfl, rfl, rfl⟩

theorem complete_ended (s : State) : Ended s.complete := ⟨rfl, rfl, rfl⟩

theorem errorComplete_ended (e : ErrorKind) (info : Word) (s : State) : Ended (s.errorComplete e info) := ⟨rfl, rfl, rfl⟩

theorem Ended.completes {s : State} (h : Ended s) : Completes s := ⟨0, s, run_zero, h⟩

theorem Completes.of_step {s t : State} (hstep : step s = .next t) (ht : Completes t) : Completes s := by
  obtain ⟨n, u, hrun, hu⟩ := ht
  exact ⟨n + 1, u, (run_succ n hstep).trans hrun, hu⟩

/-- How many bytes of the stream a form takes (30 R94, R95). -/
def formSize : Form → Nat
  | .run _ _ => 3
  | .lit _ => 1

theorem formSize_pos (f : Form) : 1 ≤ formSize f := by cases f <;> simp [formSize]

/-- A decoded form stands wholly in the bytes it was decoded from. -/
theorem length_of_decodeForm {m : Byte} {f : Form} {bytes rest : List Byte} (h : decodeForm m bytes = .ok (f, rest)) :
    bytes.length = formSize f + rest.length := by
  unfold decodeForm at h
  split at h
  · cases h
  · split at h
    · split at h <;> cases h
      simp only [List.length_cons, formSize]; omega
    · cases h
      simp only [List.length_cons, formSize]; omega

/-- `t` is still at the form of the running decoder `s`. -/
structure AtForm (s t : State) : Prop where
  inLen : t.inLen = s.inLen
  rp : t.rp = s.rp
  activity : t.activity = s.activity
  schedule : t.schedule = s.schedule

theorem AtForm.refl (s : State) : AtForm s s := ⟨rfl, rfl, rfl, rfl⟩

theorem append_work_atForm {s t : State} (v : Byte) (h : AtForm s t) : (append .work v t).Ends (AtForm s) := by
  unfold append
  split
  · exact h
  · exact ⟨h.inLen, h.rp, h.activity, h.schedule⟩

theorem expandOnce_atForm {s t : State} (h : AtForm s t) : (expandOnce t).Ends (AtForm s) :=
  (append_work_atForm t.curV h).bind fun _ h => ⟨h.inLen, h.rp, h.activity, h.schedule⟩

/-- A form appends at its place in the stream, and only then `RP` passes it (43 R192, R193). -/
theorem formBody_eq_advance (f : Form) (s : State) :
    ∃ r : Ran, formBody f s = r.andThen (fun t => .ok (t.advance (formSize f))) ∧ r.Ends (AtForm s) := by
  cases f with
  | run count value =>
    exact ⟨_, rfl, repeatTimes_ends (fun _ h => expandOnce_atForm h) _ _ ⟨rfl, rfl, rfl, rfl⟩⟩
  | lit b => exact ⟨_, rfl, append_work_atForm b (AtForm.refl s)⟩

/-- One form ends the command or brings `RP` closer to `IN_LEN`: it lies below `IN_LEN`, so `RP` does not wrap. -/
theorem moveForm_progress (s : State) : ∃ t, moveForm s = .next t ∧
    (Ended t ∨ t.activity = s.activity ∧ t.schedule = s.schedule ∧
      t.inLen.toNat - t.rp.toNat < s.inLen.toNat - s.rp.toNat) := by
  cases hd : decodeForm s.hdr.marker (fetchForm s) with
  | error e => exact ⟨_, moveForm_error hd, .inl (errorComplete_ended _ _ _)⟩
  | ok d =>
    obtain ⟨f, rest⟩ := d
    refine ⟨_, (moveForm_ok hd).trans (exec_form f s), ?_⟩
    obtain ⟨r, hr, hends⟩ := formBody_eq_advance f s
    rw [hr]
    cases r with
    | raised e info u => exact .inl (errorComplete_ended e info u)
    | ok u =>
      obtain ⟨hin, hrp, hact, hsched⟩ := hends
      have hfit : formSize f ≤ s.inLen.toNat - s.rp.toNat := by
        have := length_of_decodeForm hd
        rw [fetchForm, State.length_bytes] at this
        omega
      have hpos := formSize_pos f
      have hlt := s.inLen.isLt
      have hnext : (s.rp + BitVec.ofNat 32 (formSize f)).toNat = s.rp.toNat + formSize f :=
        toNat_add_ofNat (by omega)
      refine .inr ⟨hact, hsched, ?_⟩
      show u.inLen.toNat - (u.rp + BitVec.ofNat 32 (formSize f)).toNat < _
      rw [hin, hrp, hnext]
      omega

/-- RLEDEC's form loop ends, by induction on the bytes left (43 R191). -/
theorem completes_stream {c : Bool} {s : State} (hs : s.schedule = []) (ha : s.activity = .stream c) : Completes s := by
  induction hn : s.inLen.toNat - s.rp.toNat using Nat.strong_induction_on generalizing s with
  | _ n ih =>
    have hstep : step s = moveStream c s := (step_nil hs).trans (coreMove_stream _ ha)
    cases hmore : s.more .inp with
    | true =>
      obtain ⟨t, ht, hcase⟩ := moveForm_progress s
      refine .of_step (hstep.trans ((moveStream_more c hmore).trans ht)) ?_
      obtain hended | ⟨hact, hsched, hlt⟩ := hcase
      · exact hended.completes
      · exact ih _ (hn ▸ hlt) (hsched.trans hs) (hact.trans ha) rfl
    | false =>
      rw [moveStream_end c hmore] at hstep
      cases c with
      | true => exact .of_step hstep (Ran.finish_ended _).completes
      | false => exact .of_step hstep (complete_ended s).completes

/-- A stretch that leads into the form loop. -/
theorem completes_goOn {c : Bool} {r : Ran} {s : State} (hstep : step s = goOn (.stream c) r)
    (hr : r.Ends fun t => t.schedule = []) : Completes s := by
  cases r with
  | raised e info t => exact .of_step hstep (errorComplete_ended e info t).completes
  | ok t => exact .of_step hstep (completes_stream (c := c) hr rfl)

theorem rledecEnter_schedule (s : State) : (rledecEnter s).Ends fun t => t.schedule = s.schedule :=
  (checkInLen_ends (P := fun t => t.schedule = s.schedule) s rfl).bind fun _ h => h

theorem completes_loaded {c : Bool} {s : State} (hs : s.schedule = []) (ha : s.activity = .loaded c) : Completes s := by
  have hstep : step s = moveLoaded c s := (step_nil hs).trans (coreMove_loaded _ ha)
  cases c with
  | true => exact completes_goOn hstep ((rledecEnter_schedule _).imp fun _ h => h.trans hs)
  | false => exact .of_step hstep (complete_ended s).completes

theorem completes_header {c : Bool} {s : State} (hs : s.schedule = []) (ha : s.activity = .header c) : Completes s := by
  have hstep : step s = moveHeader c s := (step_nil hs).trans (coreMove_header _ ha)
  cases hp : parseTests s with
  | error e => exact .of_step (hstep.trans (moveHeader_error hp)) (errorComplete_ended _ _ s).completes
  | ok h => exact .of_step (hstep.trans (moveHeader_ok hp)) (completes_loaded (c := c) hs rfl)

/-- A started command word ends in one step: a reserved one in IllegalCommand, a command as a whole (30 R103, R105). -/
theorem completes_started {w : Word} {s : State} (hs : s.schedule = []) (ha : s.activity = .started w) : Completes s := by
  have hstep : step s = moveStarted .whole w s := (step_nil hs).trans (coreMove_started _ ha)
  cases hd : decodeCommand w with
  | error e =>
    rw [moveStarted, hd] at hstep
    exact .of_step hstep (errorComplete_ended _ _ _).completes
  | ok i =>
    obtain ⟨hport, -, -⟩ := encode_of_decodeCommand hd 0#8
    obtain ⟨body, hbody⟩ := exec_command hport
    exact .of_step (hstep.trans ((moveStarted_whole hd).trans (hbody s))) (Ran.finish_ended _).completes

/-- Settles O59, by the activity: only the form loop takes more than a fixed number of steps. -/
theorem commandsComplete : Obligations.CommandsComplete := by
  intro s hs
  refine ⟨fun hidle => (step_nil hs).trans (coreMove_idle _ hidle), fun hbusy => ?_⟩
  show Completes s
  cases ha : s.activity with
  | idle => exact absurd ha hbusy
  | started w => exact completes_started hs ha
  | header c => exact completes_header hs ha
  | loaded c => exact completes_loaded hs ha
  | stream c => exact completes_stream hs ha

end Sys2Proof.Machine

namespace Sys2Proof.Machine

/-! ## What a move of the host does -/

/-- Everything a move of the host can do (60 R271); an ignored write is `answered` with what the host holds already. -/
inductive HostEffect (op : HostOp) (s : State) : State → Prop
  | answered (v : Word) (n : Nat) : HostEffect op s { s with readData := v, freeCount := n }
  | rang (w : Word) : s.status.busy = false → HostEffect op s (s.ring w)
  | wroteInLen (w : Word) : s.status.busy = false → HostEffect op s { s with inLen := w }
  | wroteHdr (h : Hdr) : s.status.busy = false → HostEffect op s { s with hdr := h }
  | wroteIn (i : Nat) (v : Byte) : s.status.busy = false → i < s.params.capIn.toNat →
      HostEffect op s { s with bufIn := s.bufIn.write i v }
  | wasReset : op = .reset → HostEffect op s (hostReset s)

section
variable {op : HostOp} {s : State}

theorem HostEffect.ignored : HostEffect op s s := .answered s.readData s.freeCount

theorem hostReadReg_effect (r : Reg) : HostEffect op s (hostReadReg r s) := by
  unfold hostReadReg
  split
  · cases r <;> exact .answered _ _
  · exact .answered _ s.freeCount

theorem hostReadBuf_effect (sp : Space) (i : Nat) : HostEffect op s (hostReadBuf sp i s) := by
  unfold hostReadBuf
  split
  · exact .answered _ _
  · exact .answered _ s.freeCount

theorem hostWriteReg_effect (r : Reg) (w : Word) : HostEffect op s (hostWriteReg r w s) := by
  unfold hostWriteReg
  split
  · exact .ignored
  · rename_i hbusy
    have hbusy := eq_false_of_ne_true hbusy
    cases r with
    | cmd => exact .rang w hbusy
    | inLen => exact .wroteInLen w hbusy
    | hdr => exact .wroteHdr _ hbusy
    | status | workLen | outLen | pair | bestCount | errInfo | reserved => exact .ignored

theorem hostWriteBuf_effect (sp : Space) (i : Nat) (v : Byte) (hi : i < (s.cap sp).toNat) :
    HostEffect op s (hostWriteBuf sp i v s) := by
  unfold hostWriteBuf
  split
  · exact .ignored
  · rename_i hbusy
    cases sp with
    | inp => exact .wroteIn i v (eq_false_of_ne_true hbusy) hi
    | work | out => exact .ignored

theorem hostMove_readReg (offset width : Nat) (s : State) :
    hostMove (.readReg offset width) s = regAccess offset width fun r => hostReadReg r s := rfl

theorem hostMove_writeReg (offset width : Nat) (w : Word) (s : State) :
    hostMove (.writeReg offset width w) s = regAccess offset width fun r => hostWriteReg r w s := rfl

theorem regAccess_next {offset width : Nat} {act : Reg → State} {t : State} (h : regAccess offset width act = .next t) :
    ∃ r, t = act r := by
  unfold regAccess at h
  split at h
  · cases h
  · split at h <;> cases h
    exact ⟨_, rfl⟩

theorem bufAccess_next {sp : Space} {i : Nat} {after t : State} (h : bufAccess s sp i after = .next t) :
    i < (s.cap sp).toNat ∧ t = after := by
  unfold bufAccess at h
  split at h <;> cases h
  exact ⟨by omega, rfl⟩

theorem hostMove_effect {t : State} (h : hostMove op s = .next t) : HostEffect op s t := by
  cases op with
  | readReg offset width =>
    rw [hostMove_readReg] at h
    obtain ⟨r, rfl⟩ := regAccess_next h
    exact hostReadReg_effect r
  | writeReg offset width w =>
    rw [hostMove_writeReg] at h
    obtain ⟨r, rfl⟩ := regAccess_next h
    exact hostWriteReg_effect r w
  | readBuf sp i => obtain ⟨-, rfl⟩ := bufAccess_next h; exact hostReadBuf_effect sp i
  | writeBuf sp i v => obtain ⟨hi, rfl⟩ := bufAccess_next h; exact hostWriteBuf_effect sp i v hi
  | reset => cases h; exact .wasReset rfl

/-- A step is a move of the core or has a host move's effect (00 R11). -/
theorem step_next_cases {t : State} (h : step s = .next t) :
    (∃ g rest, (s.schedule = [] ∨ s.schedule = .core g :: rest) ∧ coreMove g { s with schedule := rest } = .next t) ∨
    (∃ op rest, s.schedule = .host op :: rest ∧ HostEffect op { s with schedule := rest } t) := by
  cases hs : s.schedule with
  | nil =>
    have hself : { s with schedule := [] } = s := by rw [← hs]
    exact .inl ⟨.whole, [], .inl rfl, by rw [hself]; exact (step_nil hs).symm.trans h⟩
  | cons m rest =>
    cases m with
    | core g => exact .inl ⟨g, rest, .inr rfl, (step_core hs).symm.trans h⟩
    | host op => exact .inr ⟨op, rest, rfl, hostMove_effect ((step_host hs).symm.trans h)⟩

end

/-! ## What a move of the core keeps -/

/-- `P` survives every change the core makes but those of ANALYZE: the bodies' (`Closed`) and those around a body. -/
structure Durable (P : State → Prop) : Prop extends Closed P where
  start : ∀ s, P s → P s.begin
  complete : ∀ s, P s → P s.complete
  errorComplete : ∀ s e info, P s → P (s.errorComplete e info)
  activity : ∀ s a, P s → P { s with activity := a }

/-- The core is to run ANALYZE, alone or as the first stage of COMPRESS. -/
def AnalyzerStarted (s : State) : Prop :=
  ∃ w i, s.activity = .started w ∧ decodeCommand w = .ok i ∧ (i = .analyze ∨ i = .compress)

/-- ANALYZE leaves what its sweep makes of the state, or the state itself if `IN_LEN` fails its test. -/
theorem analyzeBody_ends {P : State → Prop} {s : State} (hs : P s)
    (h : ∀ hist u m p r pv, HistOk hist → P (setPairValid (s.analysis hist u m p r pv))) : (analyzeBody s).Ends P := by
  rcases Nat.lt_or_ge s.params.capIn.toNat s.inLen.toNat with hlt | hcap
  · unfold analyzeBody
    rw [checkInLen_raised hlt]
    exact hs
  · obtain ⟨hist, u, m, p, pv, he, hhist, -⟩ := analyzeBody_spec s hcap
    rw [he]
    exact h hist u m p _ pv hhist

/-- A command word's instruction is a whole command whose body keeps every `Closed` property ANALYZE keeps. -/
theorem exec_command_ends {P : State → Prop} (hc : Closed P) {i : Instr} {m : Byte} (hp : i.port m = .cmd)
    (ha : i = .analyze ∨ i = .compress → ∀ s, P s → (analyzeBody s).Ends P) :
    ∃ body, (∀ s, exec i s = command body s) ∧ ∀ s, P s → (body s).Ends P := by
  cases i with
  | analyze => exact ⟨analyzeBody, fun _ => rfl, ha (.inl rfl)⟩
  | select => exact ⟨selectBody, fun _ => rfl, selectBody_ends hc⟩
  | subst => exact ⟨substBody, fun _ => rfl, substBody_ends hc⟩
  | frame => exact ⟨frameBody, fun _ => rfl, frameBody_ends hc⟩
  | rleenc => exact ⟨rleencBody, fun _ => rfl, rleencBody_ends hc⟩
  | parse => exact ⟨parseBody, fun _ => rfl, parseBody_ends hc⟩
  | rledec => exact ⟨rledecBody, fun _ => rfl, rledecBody_ends hc⟩
  | unsubst => exact ⟨unsubstBody, fun _ => rfl, unsubstBody_ends hc⟩
  | compress => exact ⟨compressBody, fun _ => rfl, compressBody_ends hc (ha (.inr rfl))⟩
  | decompress => exact ⟨decompressBody, fun _ => rfl, decompressBody_ends hc⟩
  | hdr _ | run _ _ | lit _ => cases hp

/-- How the core takes a started command word: an error, the whole command, or its first stretch (30 R103; log 12). -/
theorem moveStarted_cases (g : Grain) (w : Word) (s : State) :
    moveStarted g w s = .next (s.begin.errorComplete .illegalCommand w) ∨
    ∃ i, decodeCommand w = .ok i ∧
      (moveStarted g w s = exec i s ∨
        (∃ c : Bool, moveStarted g w s =
          .next (inProgress (.header c) { s with phase := if c then 1#4 else s.phase })) ∨
        moveStarted g w s = goOn (.stream false) (rledecEnter s.begin)) := by
  cases hd : decodeCommand w with
  | error e => left; unfold moveStarted; rw [hd]
  | ok i =>
    refine .inr ⟨i, rfl, ?_⟩
    cases g with
    | whole => exact .inl (moveStarted_whole hd)
    | form =>
      rw [moveStarted_form hd]
      cases i with
      | parse => exact .inr (.inl ⟨false, rfl⟩)
      | decompress => exact .inr (.inl ⟨true, rfl⟩)
      | rledec => exact .inr (.inr rfl)
      | _ => exact .inl rfl

namespace Durable
variable {P : State → Prop} (hd : Durable P) {s : State}
include hd

theorem keeps_finish {r : Ran} (h : r.Ends P) : P r.finish := by
  cases r with
  | ok s => exact hd.complete s h
  | raised e info s => exact hd.errorComplete s e info h

theorem keeps_settle {r : Ran} (h : r.Ends P) : P r.settle := by
  cases r with
  | ok s => exact h
  | raised e info s => exact hd.errorComplete s e info h

theorem keeps_goOn {a : Activity} {r : Ran} {t : State} (h : r.Ends P) (ht : goOn a r = .next t) : P t := by
  cases r <;> cases ht
  · exact hd.activity _ a h
  · exact hd.errorComplete _ _ _ h

theorem keeps_moveStarted {g : Grain} {w : Word} {t : State} (hs : P s)
    (ha : ∀ i, decodeCommand w = .ok i → i = .analyze ∨ i = .compress → ∀ s, P s → (analyzeBody s).Ends P)
    (ht : moveStarted g w s = .next t) : P t := by
  obtain he | ⟨i, hi, he | ⟨c, he⟩ | he⟩ := moveStarted_cases g w s <;> rw [he] at ht
  · cases ht
    exact hd.errorComplete _ _ _ (hd.start s hs)
  · obtain ⟨hport, -, -⟩ := encode_of_decodeCommand hi 0#8
    obtain ⟨body, hexec, hbody⟩ := exec_command_ends hd.toClosed hport (ha i hi)
    rw [hexec] at ht
    cases ht
    exact hd.keeps_finish (hbody _ (hd.start s hs))
  · cases ht
    exact hd.activity _ _ (hd.start _ (hd.phase s _ hs))
  · exact hd.keeps_goOn (rledecEnter_ends hd.toClosed _ (hd.start s hs)) ht

theorem keeps_moveHeader {c : Bool} {t : State} (hs : P s) (ht : moveHeader c s = .next t) : P t := by
  cases hp : parseTests s with
  | error e => rw [moveHeader_error hp] at ht; cases ht; exact hd.errorComplete _ _ _ hs
  | ok h => rw [moveHeader_ok hp] at ht; cases ht; exact hd.hdr _ h (hd.activity s _ hs)

theorem keeps_moveLoaded {c : Bool} {t : State} (hs : P s) (ht : moveLoaded c s = .next t) : P t := by
  cases c with
  | true => exact hd.keeps_goOn (rledecEnter_ends hd.toClosed _ (hd.phase s _ hs)) ht
  | false => cases ht; exact hd.complete s hs

theorem keeps_moveStream {c : Bool} {t : State} (hs : P s) (ht : moveStream c s = .next t) : P t := by
  cases hmore : s.more .inp with
  | true =>
    rw [moveStream_more c hmore] at ht
    cases hf : decodeForm s.hdr.marker (fetchForm s) with
    | error e => rw [moveForm_error hf] at ht; cases ht; exact hd.errorComplete _ _ _ hs
    | ok d =>
      rw [moveForm_ok hf, exec_form] at ht
      cases ht
      exact hd.keeps_settle (formBody_ends hd.toClosed d.1 s hs)
  | false =>
    rw [moveStream_end c hmore] at ht
    cases c with
    | true => cases ht; exact hd.keeps_finish (unsubstBody_ends hd.toClosed _ (hd.phase s _ hs))
    | false => cases ht; exact hd.complete s hs

/-- A move of the core keeps `P` if ANALYZE does, or if the move does not run it. -/
theorem keeps_coreMove {g : Grain} {t : State} (hs : P s) (ha : AnalyzerStarted s → ∀ s, P s → (analyzeBody s).Ends P)
    (ht : coreMove g s = .next t) : P t := by
  cases hact : s.activity with
  | idle => rw [coreMove_idle g hact] at ht; cases ht; exact hs
  | started w =>
    rw [coreMove_started g hact] at ht
    exact hd.keeps_moveStarted hs (fun i hi hrun => ha ⟨w, i, hact, hi, hrun⟩) ht
  | header c => rw [coreMove_header g hact] at ht; exact hd.keeps_moveHeader hs ht
  | loaded c => rw [coreMove_loaded g hact] at ht; exact hd.keeps_moveLoaded hs ht
  | stream c => rw [coreMove_stream g hact] at ht; exact hd.keeps_moveStream hs ht

end Durable

/-! ## The core does not write IN -/

/-- What the core never writes: IN and `IN_LEN`, the parameters, what is the host's (10 R24, R40), and the epoch. -/
def untouched (s : State) : Word × Memory × Params × List Move × Word × Nat × Nat :=
  (s.inLen, s.bufIn, s.params, s.schedule, s.readData, s.freeCount, s.epoch)

theorem coreLeavesAlone_of_untouched {s t : State} (h : untouched t = untouched s) : CoreLeavesAlone s t := by
  simp only [untouched, Prod.mk.injEq] at h
  obtain ⟨hlen, hbuf, hparams, hsched, hread, hfree, hepoch⟩ := h
  exact ⟨hlen, fun i => State.byteAt_congr (sp := .inp) hbuf hepoch i, hparams, hsched, hread, hfree, hepoch⟩

theorem untouched_append {sp : Space} (hsp : sp ≠ .inp) (s : State) (v : Byte) :
    untouched ((s.writeByte sp (s.len sp).toNat v).setLen sp (s.len sp + 1#32)) = untouched s := by
  cases sp with
  | inp => exact absurd rfl hsp
  | work | out => rfl

theorem durable_untouched (s : State) : Durable fun t => untouched t = untouched s where
  append t _ v hsp _ h := (untouched_append hsp t v).trans h
  cursors _ _ _ _ h := h
  emptyWork _ h := h
  emptyOut _ h := h
  frame _ h := h
  phase _ _ h := h
  scan _ _ h := h
  hdr _ _ h := h
  start _ h := h
  complete _ h := h
  errorComplete _ _ _ h := h
  activity _ _ h := h

theorem analyzeBody_untouched {s t : State} (h : untouched t = untouched s) :
    (analyzeBody t).Ends fun t => untouched t = untouched s :=
  analyzeBody_ends h fun _ _ _ _ _ _ _ => h

theorem coreMove_leavesAlone {g : Grain} {s t : State} (h : coreMove g s = .next t) : CoreLeavesAlone s t :=
  coreLeavesAlone_of_untouched ((durable_untouched s).keeps_coreMove rfl (fun _ _ => analyzeBody_untouched) h)

theorem HostEffect.params_eq {op : HostOp} {s t : State} (h : HostEffect op s t) : t.params = s.params := by
  cases h <;> rfl

/-- Settles O57: bodies append to WORK and OUT only (`durable_untouched`). -/
theorem coreNeverWritesInput : Obligations.CoreNeverWritesInput := by
  intro s t h
  obtain ⟨g, rest, -, hmove⟩ | ⟨op, rest, hs, heffect⟩ := step_next_cases h
  · have hcore := coreMove_leavesAlone hmove
    exact ⟨hcore.params, fun _ => ⟨hcore.inLen, hcore.inBytes⟩⟩
  · refine ⟨heffect.params_eq, fun hcore => ?_⟩
    rw [hs] at hcore
    obtain hnil | ⟨g, rest', hcons⟩ := hcore
    · cases hnil
    · cases hcons

/-! ## Who writes the analyzer's results -/

/-- The analyzer's result registers and tables (10 R29 to R31, R42, R43), and the epoch unwritten entries are read in. -/
def analysisOf (s : State) : Pair × Word × Bool × Hist × Used × Nat :=
  (s.pair, s.bestCount, s.status.pairValid, s.hist, s.used, s.epoch)

theorem sameAnalysis_of_analysisOf {s t : State} (h : analysisOf t = analysisOf s) : SameAnalysis s t := by
  simp only [analysisOf, Prod.mk.injEq] at h
  obtain ⟨hpair, hbest, hvalid, hhist, hused, hepoch⟩ := h
  exact ⟨hpair, hbest, hvalid, fun k => by rw [hhist, hepoch], fun v => by rw [hused, hepoch]⟩

theorem analysisOf_append (s : State) (sp : Space) (v : Byte) :
    analysisOf ((s.writeByte sp (s.len sp).toNat v).setLen sp (s.len sp + 1#32)) = analysisOf s := by
  cases sp <;> rfl

theorem durable_analysisOf (s : State) : Durable fun t => analysisOf t = analysisOf s where
  append t sp v _ _ h := (analysisOf_append t sp v).trans h
  cursors _ _ _ _ h := h
  emptyWork _ h := h
  emptyOut _ h := h
  frame _ h := h
  phase _ _ h := h
  scan _ _ h := h
  hdr _ _ h := h
  start _ h := h
  complete _ h := h
  errorComplete _ _ _ h := h
  activity _ _ h := h

theorem HostEffect.analysisOf_eq {op : HostOp} {s t : State} (h : HostEffect op s t) :
    analysisOf t = analysisOf s ∨ op = .reset := by
  cases h with
  | wasReset hop => exact .inr hop
  | _ => exact .inl rfl

/-- Settles O58: without ANALYZE the core keeps the analyzer's results (`durable_analysisOf`), and of the host's moves only
reset has an effect on them. -/
theorem analysisWriters : Obligations.AnalysisWriters := by
  intro s t h
  obtain ⟨g, rest, hs, hmove⟩ | ⟨op, rest, hs, heffect⟩ := step_next_cases h
  · by_cases hrun : AnalyzerStarted s
    · obtain ⟨w, i, hact, hi, hanalyzer⟩ := hrun
      exact .inr (.inr ⟨hs.imp_right fun hs => ⟨g, rest, hs⟩, w, i, hact, decode_cmd_ok.2 hi, hanalyzer⟩)
    · have hsame : analysisOf t = analysisOf s :=
        (durable_analysisOf s).keeps_coreMove (s := { s with schedule := rest }) rfl
          (fun hstarted => absurd hstarted hrun) hmove
      exact .inl (sameAnalysis_of_analysisOf hsame)
  · obtain hsame | rfl := heffect.analysisOf_eq
    · exact .inl (sameAnalysis_of_analysisOf hsame)
    · exact .inr (.inl ⟨rest, hs⟩)

/-! ## The invariant: buffers and lengths -/

theorem BufferOk.write {m : Memory} {cap : Word} (h : BufferOk m cap) {i : Nat} (hi : i < cap.toNat) (v : Byte) :
    BufferOk (m.write i v) cap := by
  obtain ⟨hwf, hcap⟩ := h
  refine ⟨Memory.wf_write hwf i v, fun c hc => ?_⟩
  obtain rfl | hc := Memory.mem_write hc
  · exact hi
  · exact hcap c hc

theorem BufferOk.writeAll {m : Memory} {cap : Word} (h : BufferOk m cap) {i : Nat} {ys : List Byte}
    (hi : i + ys.length ≤ cap.toNat) : BufferOk (writeAll m i ys) cap := by
  induction ys generalizing m i with
  | nil => exact h
  | cons y ys ih =>
    rw [List.length_cons] at hi
    exact ih (h.write (by omega) y) (by omega)

/-- Every byte below a length was written (10 R41; 70 R282). -/
def WrittenBelow (m : Memory) (n : Nat) : Prop := ∀ i, i < n → (m.read i).isSome = true

theorem writtenBelow_zero (m : Memory) : WrittenBelow m 0 := fun i hi => absurd hi (Nat.not_lt_zero i)

theorem WrittenBelow.append {m : Memory} {n : Nat} (h : WrittenBelow m n) (v : Byte) :
    WrittenBelow (m.write n v) (n + 1) := by
  intro i hi
  by_cases hin : i = n
  · rw [hin, Memory.read_write_same]; rfl
  · rw [Memory.read_write_ne m v hin]
    exact h i (by omega)

theorem writtenBelow_writeAll (m : Memory) (ys : List Byte) : WrittenBelow (writeAll m 0 ys) ys.length := by
  intro i hi
  rw [read_writeAll, if_pos ⟨Nat.zero_le i, by omega⟩, Nat.sub_zero, List.getElem?_eq_getElem hi]
  rfl

/-- A buffer of the core's with its length and its capacity (10 R25, R26, R40, R41). -/
structure BufferLenOk (m : Memory) (len cap : Word) : Prop where
  buffer : BufferOk m cap
  fits : len.toNat ≤ cap.toNat
  written : WrittenBelow m len.toNat

theorem BufferLenOk.empty {m : Memory} {cap : Word} (h : BufferOk m cap) : BufferLenOk m 0#32 cap :=
  ⟨h, Nat.zero_le _, writtenBelow_zero m⟩

theorem BufferLenOk.append {m : Memory} {len cap : Word} (h : BufferLenOk m len cap) (hne : len ≠ cap) (v : Byte) :
    BufferLenOk (m.write len.toNat v) (len + 1#32) cap := by
  obtain ⟨hbuf, hfits, hwritten⟩ := h
  have hlt : len.toNat < cap.toNat := by
    have hne' : len.toNat ≠ cap.toNat := fun heq => hne (BitVec.eq_of_toNat_eq heq)
    omega
  have hcap := cap.isLt
  have hlen : (len + 1#32).toNat = len.toNat + 1 := toNat_add_ofNat (by omega)
  exact ⟨hbuf.write hlt v, by omega, hlen ▸ hwritten.append v⟩

/-- The header record stands in a buffer with room for it (44 R210). -/
theorem BufferLenOk.header {m : Memory} {cap : Word} (h : BufferOk m cap) (hcap : 7 ≤ cap.toNat) (hdr : Hdr) :
    BufferLenOk (Machine.writeAll m 0 (headerBytes hdr)) 7#32 cap :=
  ⟨h.writeAll (ys := headerBytes hdr) hcap, hcap, writtenBelow_writeAll m (headerBytes hdr)⟩

/-! ## The invariant: while a command runs -/

/-- The status of a running command (30 R103). -/
def Status.running (pairValid : Bool) : Status :=
  { busy := true, done := false, err := false, pairValid := pairValid, errCode := 0#4 }

/-- What holds between the start of a command and its completion, wherever its body has got to. -/
structure MidCommand (s : State) : Prop where
  inp : BufferOk s.bufIn s.params.capIn
  work : BufferLenOk s.bufWork s.workLen s.params.capWork
  out : BufferLenOk s.bufOut s.outLen s.params.capOut
  hist : HistOk s.hist
  legal : s.params.Legal
  status : s.status = .running (pairValidOf s.bestCount)
  noInfo : s.errInfo = 0#32

/-- What `MidCommand` speaks of, without the storage of WORK and OUT. -/
def guarded (s : State) : Memory × Hist × Params × Status × Word × Word :=
  (s.bufIn, s.hist, s.params, s.status, s.bestCount, s.errInfo)

namespace MidCommand
variable {s : State}

/-- A change of the storage of WORK and OUT alone needs only that these are in order. -/
theorem of_guarded {t : State} (h : MidCommand s) (hg : guarded t = guarded s)
    (hwork : BufferLenOk t.bufWork t.workLen s.params.capWork)
    (hout : BufferLenOk t.bufOut t.outLen s.params.capOut) : MidCommand t := by
  simp only [guarded, Prod.mk.injEq] at hg
  obtain ⟨hin, hhist, hparams, hstatus, hbest, hinfo⟩ := hg
  rw [← hparams] at hwork hout
  refine ⟨?_, hwork, hout, ?_, ?_, ?_, hinfo.trans h.noInfo⟩
  · rw [hin, hparams]; exact h.inp
  · rw [hhist]; exact h.hist
  · rw [hparams]; exact h.legal
  · rw [hstatus, hbest]; exact h.status

theorem append {sp : Space} (hsp : sp ≠ .inp) (hne : s.len sp ≠ s.cap sp) (v : Byte) (h : MidCommand s) :
    MidCommand ((s.writeByte sp (s.len sp).toNat v).setLen sp (s.len sp + 1#32)) := by
  cases sp with
  | inp => exact absurd rfl hsp
  | work => exact h.of_guarded rfl (h.work.append hne v) h.out
  | out => exact h.of_guarded rfl h.work (h.out.append hne v)

theorem closed : Closed MidCommand where
  append _ _ v hsp hne h := h.append hsp hne v
  cursors _ _ _ _ h := h.of_guarded rfl h.work h.out
  emptyWork _ h := h.of_guarded rfl (.empty h.work.buffer) h.out
  emptyOut _ h := h.of_guarded rfl h.work (.empty h.out.buffer)
  frame _ h := h.of_guarded rfl h.work (.header h.out.buffer h.legal _)
  phase _ _ h := h.of_guarded rfl h.work h.out
  scan _ _ h := h.of_guarded rfl h.work h.out
  hdr _ _ h := h.of_guarded rfl h.work h.out

theorem withActivity (h : MidCommand s) (a : Activity) : MidCommand { s with activity := a } :=
  h.of_guarded rfl h.work h.out

/-- ANALYZE ends with PAIR_VALID agreeing with `BEST_COUNT` (10 R31, 40 R125). -/
theorem analyzeBody_keeps (h : MidCommand s) : (analyzeBody s).Ends MidCommand := by
  refine analyzeBody_ends h fun hist u m p r pv hhist =>
    ⟨h.inp, h.work, h.out, hhist, h.legal, ?_, h.noInfo⟩
  show ({ s.status with pairValid := pairValidOf m } : Status) = _
  rw [h.status]
  rfl

end MidCommand

/-! ## The invariant: where the core stands -/

/-- What `ProgressOk` asks of a core that stands at `a` (10 R45; 43 R191; 45 R241). -/
def Stands (s : State) : Activity → Prop
  | .idle => True
  | .started _ => True
  | .header c => c = true → s.phase = 1#4
  | .loaded c => (c = true → s.phase = 1#4) ∧ 7 ≤ s.inLen.toNat ∧ s.inLen.toNat ≤ s.params.capIn.toNat
  | .stream c => (c = true → s.phase = 2#4) ∧ s.inLen.toNat ≤ s.params.capIn.toNat ∧ 7 ≤ s.rp.toNat ∧
      (s.rp.toNat ≤ s.inLen.toNat ∨ s.rp.toNat = 7)

theorem ProgressOk.stands {s : State} (h : ProgressOk s) : Stands s s.activity := by
  cases ha : s.activity with
  | idle => trivial
  | started w => trivial
  | header c => exact fun hc => h.headerPhase (hc ▸ ha)
  | loaded c => exact ⟨fun hc => h.loadedPhase (hc ▸ ha), h.loadedLen c ha⟩
  | stream c => exact ⟨fun hc => h.streamPhase (hc ▸ ha), h.streamLen c ha, h.streamCursor c ha⟩

theorem progressOk_of_stands {s : State} {a : Activity} (ha : s.activity = a)
    (hbusy : s.status.busy = true ↔ a ≠ .idle) (hs : Stands s a) : ProgressOk s := by
  subst ha
  refine ⟨hbusy, fun ha => ?_, fun ha => ?_, fun ha => ?_, fun c ha => ?_, fun c ha => ?_, fun c ha => ?_⟩ <;>
    rw [ha] at hs
  · exact hs rfl
  · obtain ⟨hphase, -, -⟩ := hs
    exact hphase rfl
  · obtain ⟨hphase, -, -, -⟩ := hs
    exact hphase rfl
  · obtain ⟨-, hlen⟩ := hs
    exact hlen
  · obtain ⟨-, hlen, -⟩ := hs
    exact hlen
  · obtain ⟨-, -, hcursor⟩ := hs
    exact hcursor

/-! ## The invariant: the start and the ends of a command -/

section
variable {s : State}

theorem ErrorKind.code_ne_zero (e : ErrorKind) : e.code ≠ 0#4 := by cases e <;> decide

theorem ErrorKind.code_le (e : ErrorKind) : e.code.toNat ≤ 4 := by cases e <;> decide

theorem statusOk_of_noError (hnot : ¬(s.status.busy = true ∧ s.status.done = true)) (herr : s.status.err = false)
    (hcode : s.status.errCode = 0#4) (hinfo : s.errInfo = 0#32) (hvalid : s.status.pairValid = pairValidOf s.bestCount) :
    StatusOk s :=
  ⟨hnot, by simp [herr], by simp [herr, hcode], by simp [hcode], fun _ => hinfo, by simp [herr], hvalid⟩

theorem MidCommand.inv (h : MidCommand s) (ha : s.activity ≠ .idle) (hs : Stands s s.activity) : Inv s := by
  obtain ⟨hin, hwork, hout, hhist, hlegal, hstatus, hinfo⟩ := h
  refine ⟨⟨hin, hwork.buffer, hout.buffer, hhist⟩, ⟨hlegal, hwork.fits, hout.fits, hwork.written, hout.written⟩,
    statusOk_of_noError ?_ ?_ ?_ hinfo ?_, progressOk_of_stands rfl ⟨fun _ => ha, fun _ => ?_⟩ hs⟩ <;>
    simp [hstatus, Status.running]

/-- Normal completion is in order (30 R103). -/
theorem MidCommand.inv_complete (h : MidCommand s) : Inv s.complete := by
  obtain ⟨hin, hwork, hout, hhist, hlegal, hstatus, hinfo⟩ := h
  refine ⟨⟨hin, hwork.buffer, hout.buffer, hhist⟩, ⟨hlegal, hwork.fits, hout.fits, hwork.written, hout.written⟩,
    statusOk_of_noError ?_ ?_ ?_ hinfo ?_, progressOk_of_stands (a := .idle) rfl (by simp) trivial⟩ <;>
    simp [hstatus, Status.running]

/-- Error completion is in order: a code of 60 R250, and no output (60 R258). -/
theorem MidCommand.inv_errorComplete (h : MidCommand s) (e : ErrorKind) (info : Word) : Inv (s.errorComplete e info) := by
  obtain ⟨hin, hwork, hout, hhist, hlegal, hstatus, hinfo⟩ := h
  refine ⟨⟨hin, hwork.buffer, hout.buffer, hhist⟩,
    ⟨hlegal, Nat.zero_le _, Nat.zero_le _, writtenBelow_zero _, writtenBelow_zero _⟩,
    ⟨by simp, by simp, by simp [e.code_ne_zero], e.code_le, by simp, by simp, ?_⟩,
    progressOk_of_stands (a := .idle) rfl (by simp) trivial⟩
  show s.status.pairValid = pairValidOf s.bestCount
  rw [hstatus]
  rfl

theorem Ran.Ends.inv_finish {r : Ran} (h : r.Ends MidCommand) : Inv r.finish := by
  cases r with
  | ok s => exact MidCommand.inv_complete h
  | raised e info s => exact MidCommand.inv_errorComplete h e info

theorem Inv.midCommand_of_status {t : State} (h : Inv s) (ht : t = { s with status := t.status, errInfo := t.errInfo })
    (hstatus : t.status = .running s.status.pairValid) (hinfo : t.errInfo = 0#32) : MidCommand t := by
  obtain ⟨⟨hin, hwork, hout, hhist⟩, ⟨hlegal, hworkLen, houtLen, hworkW, houtW⟩, hst, -⟩ := h
  rw [ht]
  exact ⟨hin, ⟨hwork, hworkLen, hworkW⟩, ⟨hout, houtLen, houtW⟩, hhist, hlegal,
    by show t.status = _; rw [hstatus, hst.pairValid]; rfl, hinfo⟩

/-- The start of a command is in order in every state (30 R103, 60 R260). -/
theorem Inv.midCommand_begin (h : Inv s) : MidCommand s.begin := h.midCommand_of_status rfl rfl rfl

/-- A command in progress has started (10 R23). -/
theorem Inv.midCommand (h : Inv s) (ha : s.activity ≠ .idle) : MidCommand s := by
  have hbusy : s.status.busy = true := h.progress.busyIff.2 ha
  have hdone : s.status.done = false := eq_false_of_ne_true fun hd => h.status.notBusyAndDone ⟨hbusy, hd⟩
  have herr : s.status.err = false :=
    eq_false_of_ne_true fun he => absurd (h.status.errIsDone he) (by simp [hdone])
  have hcode : s.status.errCode = 0#4 := by
    by_contra hne
    exact absurd (h.status.errIffCode.2 hne) (by simp [herr])
  refine h.midCommand_of_status rfl ?_ (h.status.infoOnlyOnError herr)
  show (⟨s.status.busy, s.status.done, s.status.err, s.status.pairValid, s.status.errCode⟩ : Status) = _
  rw [hbusy, hdone, herr, hcode]
  rfl

/-- The invariant does not speak of the schedule and of what the host holds. -/
theorem Inv.host (h : Inv s) (ms : List Move) (v : Word) (n : Nat) :
    Inv { s with schedule := ms, readData := v, freeCount := n } := by
  obtain ⟨hstorage, hlengths, hstatus, hprogress⟩ := h
  exact ⟨{ hstorage with }, { hlengths with }, { hstatus with },
    progressOk_of_stands rfl hprogress.busyIff hprogress.stands⟩

/-- While no command runs, the host may write `IN_LEN`, `HDR` and IN (10 R24, R27, R40). -/
theorem Inv.idleWrites (h : Inv s) (hbusy : s.status.busy = false) (n : Word) (d : Hdr) {m : Memory}
    (hm : BufferOk m s.params.capIn) : Inv { s with inLen := n, hdr := d, bufIn := m } := by
  obtain ⟨hstorage, hlengths, hstatus, hprogress⟩ := h
  have hidle : s.activity = .idle := by
    by_contra ha
    exact absurd (hprogress.busyIff.2 ha) (by simp [hbusy])
  exact ⟨{ hstorage with bufIn := hm }, { hlengths with }, { hstatus with },
    progressOk_of_stands (a := .idle) hidle (by simp [hbusy]) trivial⟩

/-- Reset gives the invariant to every legal choice of capacities (10 R50, 70 R280). -/
theorem inv_of_reset (p : Params) (hp : p.Legal) (ms : List Move) (v : Word) (n e : Nat) :
    Inv { State.reset with params := p, schedule := ms, readData := v, freeCount := n, epoch := e } := by
  obtain ⟨hin, hwork, hout, hhist⟩ := reset_memory_wf
  refine ⟨⟨⟨hin, ?_⟩, ⟨hwork, ?_⟩, ⟨hout, ?_⟩, ⟨hhist, ?_⟩⟩,
    ⟨hp, Nat.zero_le _, Nat.zero_le _, writtenBelow_zero _, writtenBelow_zero _⟩,
    statusOk_of_noError (fun h => nomatch h.1) rfl rfl rfl rfl,
    progressOk_of_stands (a := .idle) rfl ⟨fun h => (nomatch h), fun h => absurd rfl h⟩ trivial⟩ <;>
    exact fun c hc => nomatch hc

/-- Settles O55: the capacities of log 1 leave OUT room for a header record (00 R8). -/
theorem resetInvariant : Obligations.ResetInvariant :=
  inv_of_reset Config.instanceParams (by decide) [] 0#32 0 0

end

/-! ## The invariant: every move keeps it -/

section
variable {s t : State}

theorem HostEffect.inv {op : HostOp} (h : HostEffect op s t) (hs : Inv s) : Inv t := by
  cases h with
  | answered v n => exact hs.host s.schedule v n
  | rang w hbusy => exact (hs.midCommand_begin.withActivity (.started w)).inv (fun h => nomatch h) trivial
  | wroteInLen n hbusy => exact hs.idleWrites hbusy n s.hdr hs.storage.bufIn
  | wroteHdr d hbusy => exact hs.idleWrites hbusy s.inLen d hs.storage.bufIn
  | wroteIn i v hbusy hi => exact hs.idleWrites hbusy s.inLen s.hdr (hs.storage.bufIn.write hi v)
  | wasReset hop => exact inv_of_reset s.params hs.lengths.legal s.schedule s.readData s.freeCount (s.epoch + 1)

/-- A stretch after which the core stands at `a`. -/
theorem inv_goOn {a : Activity} {r : Ran} (ha : a ≠ .idle) (hr : r.Ends MidCommand)
    (hstands : ∀ u, r = .ok u → Stands { u with activity := a } a) (ht : goOn a r = .next t) : Inv t := by
  cases r with
  | ok u => cases ht; exact (MidCommand.withActivity hr a).inv ha (hstands u rfl)
  | raised e info u => cases ht; exact MidCommand.inv_errorComplete hr e info

theorem rledecEnter_ok {u : State} (h : rledecEnter s = .ok u) :
    s.inLen.toNat ≤ s.params.capIn.toNat ∧ u = ({ s with workLen := 0#32 }).seek Config.hdrLen := by
  unfold rledecEnter at h
  rcases Nat.lt_or_ge s.params.capIn.toNat s.inLen.toNat with hlt | hle
  · rw [checkInLen_raised hlt] at h; cases h
  · rw [checkInLen_ok hle] at h; cases h; exact ⟨hle, rfl⟩

/-- RLEDEC enters its form loop with `RP` at the payload (43 R190). -/
theorem inv_enterStream {c : Bool} (hs : MidCommand s) (hphase : c = true → s.phase = 2#4)
    (ht : goOn (.stream c) (rledecEnter s) = .next t) : Inv t := by
  refine inv_goOn (a := .stream c) (fun h => nomatch h) (rledecEnter_ends MidCommand.closed s hs) (fun u hu => ?_) ht
  obtain ⟨hle, rfl⟩ := rledecEnter_ok hu
  exact ⟨hphase, hle, Nat.le_refl 7, .inr rfl⟩

theorem inv_moveStarted {g : Grain} {w : Word} (hs : Inv s) (ht : moveStarted g w s = .next t) : Inv t := by
  obtain he | ⟨i, hi, he | ⟨c, he⟩ | he⟩ := moveStarted_cases g w s <;> rw [he] at ht
  · cases ht
    exact hs.midCommand_begin.inv_errorComplete _ _
  · obtain ⟨hport, -, -⟩ := encode_of_decodeCommand hi 0#8
    obtain ⟨body, hexec, hbody⟩ := exec_command_ends MidCommand.closed hport fun _ _ => MidCommand.analyzeBody_keeps
    rw [hexec] at ht
    cases ht
    exact (hbody _ hs.midCommand_begin).inv_finish
  · cases ht
    have hmid : MidCommand (inProgress (.header c) { s with phase := if c then 1#4 else s.phase }) :=
      (MidCommand.closed.phase _ _ hs.midCommand_begin).withActivity _
    exact hmid.inv (fun h => nomatch h) fun hc => by rw [hc]; rfl
  · exact inv_enterStream (c := false) hs.midCommand_begin (fun h => nomatch h) ht

theorem parseTests_ok {h : Hdr} (hp : parseTests s = .ok h) :
    7 ≤ s.inLen.toNat ∧ s.inLen.toNat ≤ s.params.capIn.toNat := by
  obtain ⟨-, he⟩ | ⟨-, -, he⟩ | ⟨-, -, -, he⟩ | ⟨hle, -, hlen, -⟩ := parseTests_cases s
  · rw [he] at hp; cases hp
  · rw [he] at hp; cases hp
  · rw [he] at hp; cases hp
  · exact ⟨hlen, hle⟩

theorem inv_moveHeader {c : Bool} (hs : MidCommand s) (hstands : Stands s (.header c))
    (ht : moveHeader c s = .next t) : Inv t := by
  cases hp : parseTests s with
  | error e => rw [moveHeader_error hp] at ht; cases ht; exact hs.inv_errorComplete _ _
  | ok h =>
    rw [moveHeader_ok hp] at ht
    cases ht
    have hmid := MidCommand.closed.hdr _ h (hs.withActivity (.loaded c))
    exact hmid.inv (fun h => nomatch h) ⟨hstands, parseTests_ok (s := s) hp⟩

theorem inv_moveLoaded {c : Bool} (hs : MidCommand s) (ht : moveLoaded c s = .next t) : Inv t := by
  cases c with
  | true => exact inv_enterStream (MidCommand.closed.phase s 2#4 hs) (fun _ => rfl) ht
  | false => cases ht; exact hs.inv_complete

theorem formBody_delivers (f : Form) (s : State) : ∃ ys n v,
    Delivers .work ys (s.rp + BitVec.ofNat 32 (formSize f)) n v s (formBody f s) := by
  cases f with
  | run count value => exact ⟨_, _, _, runBody_delivers count value s⟩
  | lit b => exact ⟨_, _, _, litBody_delivers b s⟩

/-- A form that does not raise has appended to WORK and moved `RP` past itself (43 R192, R193). -/
theorem formBody_ok {f : Form} {u : State} (hfits : s.workLen.toNat ≤ s.params.capWork.toNat)
    (h : formBody f s = .ok u) :
    ∃ ys n v, u = (stored .work ys s).cursors (s.rp + BitVec.ofNat 32 (formSize f)) n v := by
  obtain ⟨ys, n, v, hroom, hfull⟩ := formBody_delivers f s
  refine ⟨ys, n, v, ?_⟩
  rcases Nat.lt_or_ge (s.cap .work).toNat ((s.len .work).toNat + ys.length) with hlt | hle
  · obtain ⟨x, hx, -⟩ := hfull hfits hlt
    rw [hx] at h; cases h
  · rw [hroom hle] at h; cases h; rfl

/-- A form decoded at `RP` lies below `IN_LEN` (43 R192, 20 R75). -/
theorem formSize_le_of_fetchForm {f : Form} {rest : List Byte}
    (hd : decodeForm s.hdr.marker (fetchForm s) = .ok (f, rest)) : formSize f ≤ s.inLen.toNat - s.rp.toNat := by
  have := length_of_decodeForm hd
  rw [fetchForm, State.length_bytes] at this
  omega

theorem inv_moveForm {c : Bool} (hs : MidCommand s) (ha : s.activity = .stream c) (hstands : Stands s (.stream c))
    (hmore : s.more .inp = true) (ht : moveForm s = .next t) : Inv t := by
  cases hd : decodeForm s.hdr.marker (fetchForm s) with
  | error e => rw [moveForm_error hd] at ht; cases ht; exact hs.inv_errorComplete _ _
  | ok d =>
    obtain ⟨f, rest⟩ := d
    have hends := formBody_ends MidCommand.closed f s hs
    rw [moveForm_ok hd, exec_form] at ht
    cases ht
    cases hr : formBody f s with
    | raised e info u => rw [hr] at hends; exact MidCommand.inv_errorComplete hends e info
    | ok u =>
      rw [hr] at hends
      obtain ⟨ys, n, v, rfl⟩ := formBody_ok hs.work.fits hr
      obtain ⟨hphase, hlen, hlow, -⟩ := hstands
      have hsize := formSize_le_of_fetchForm hd
      have hlt : s.rp.toNat < s.inLen.toNat := of_decide_eq_true hmore
      have hbound := s.inLen.isLt
      have hrp : (s.rp + BitVec.ofNat 32 (formSize f)).toNat = s.rp.toNat + formSize f := toNat_add_ofNat (by omega)
      have hact : ((stored .work ys s).cursors (s.rp + BitVec.ofNat 32 (formSize f)) n v).activity = .stream c := ha
      refine MidCommand.inv hends (by rw [Ran.settle_ok, hact]; exact fun h => nomatch h) ?_
      rw [Ran.settle_ok, hact]
      exact ⟨hphase, hlen, by rw [cursors_rp]; omega, .inl (by rw [cursors_rp]; show _ ≤ s.inLen.toNat; omega)⟩

theorem inv_moveStream {c : Bool} (hs : MidCommand s) (ha : s.activity = .stream c) (hstands : Stands s (.stream c))
    (ht : moveStream c s = .next t) : Inv t := by
  cases hmore : s.more .inp with
  | true => exact inv_moveForm hs ha hstands hmore ((moveStream_more c hmore).symm.trans ht)
  | false =>
    rw [moveStream_end c hmore] at ht
    cases c with
    | true =>
      cases ht
      exact (unsubstBody_ends MidCommand.closed _ (MidCommand.closed.phase s 3#4 hs)).inv_finish
    | false => cases ht; exact hs.inv_complete

theorem inv_coreMove {g : Grain} (hs : Inv s) (ht : coreMove g s = .next t) : Inv t := by
  have hstands := hs.progress.stands
  cases ha : s.activity with
  | idle => rw [coreMove_idle g ha] at ht; cases ht; exact hs
  | started w => exact inv_moveStarted hs ((coreMove_started g ha).symm.trans ht)
  | header c =>
    rw [ha] at hstands
    exact inv_moveHeader (hs.midCommand (by simp [ha])) hstands ((coreMove_header g ha).symm.trans ht)
  | loaded c => exact inv_moveLoaded (hs.midCommand (by simp [ha])) ((coreMove_loaded g ha).symm.trans ht)
  | stream c =>
    rw [ha] at hstands
    exact inv_moveStream (hs.midCommand (by simp [ha])) ha hstands ((coreMove_stream g ha).symm.trans ht)

end

/-- Settles O56: a running command is in order wherever its body stands (`MidCommand.closed`), and so are its start, its
completions and the host's moves. -/
theorem stepKeepsInvariant : Obligations.StepKeepsInvariant := by
  intro s t hs h
  obtain ⟨g, rest, -, hmove⟩ | ⟨op, rest, -, heffect⟩ := step_next_cases h
  · exact inv_coreMove (hs.host rest s.readData s.freeCount) hmove
  · exact heffect.inv (hs.host rest s.readData s.freeCount)

/-! ## What an access of the host answers -/

section
variable {s : State} {rest : List Move}

theorem regAccess_word {k : Nat} (hk : k < 16) (act : Reg → State) : regAccess (4 * k) 32 act = .next (act (regAt k)) := by
  unfold regAccess
  rw [if_neg (by omega), if_neg (by omega), Nat.mul_div_cancel_left k (by decide)]

theorem regAccess_noSuchRegister {offset : Nat} (h : 0x40 ≤ offset) (width : Nat) (act : Reg → State) :
    regAccess offset width act = .refused (.noSuchRegister offset) := by
  unfold regAccess
  rw [if_pos h]

theorem regAccess_badRegisterAccess {offset width : Nat} (h : offset < 0x40) (hbad : offset % 4 ≠ 0 ∨ width ≠ 32)
    (act : Reg → State) : regAccess offset width act = .refused (.badRegisterAccess offset width) := by
  unfold regAccess
  rw [if_neg (Nat.not_le.2 h), if_pos hbad]

theorem bufAccess_below {sp : Space} {i : Nat} (h : i < (s.cap sp).toNat) (after : State) :
    bufAccess s sp i after = .next after := by
  unfold bufAccess
  rw [if_neg (Nat.not_le.2 h)]

theorem bufAccess_noSuchByte {sp : Space} {i : Nat} (h : (s.cap sp).toNat ≤ i) (after : State) :
    bufAccess s sp i after = .refused (.noSuchByte sp i) := by
  unfold bufAccess
  rw [if_pos h]

/-! The steps of the host, each as its own operation on the state without the move taken. -/

theorem step_readReg {k : Nat} (hk : k < 16) (h : s.schedule = .host (.readReg (4 * k) 32) :: rest) :
    step s = .next (hostReadReg (regAt k) { s with schedule := rest }) :=
  (step_host h).trans ((hostMove_readReg _ _ _).trans (regAccess_word hk _))

theorem step_writeReg {k : Nat} (hk : k < 16) {w : Word} (h : s.schedule = .host (.writeReg (4 * k) 32 w) :: rest) :
    step s = .next (hostWriteReg (regAt k) w { s with schedule := rest }) :=
  (step_host h).trans ((hostMove_writeReg _ _ _ _).trans (regAccess_word hk _))

theorem step_readBuf {sp : Space} {i : Nat} (hi : i < (s.cap sp).toNat) (h : s.schedule = .host (.readBuf sp i) :: rest) :
    step s = .next (hostReadBuf sp i { s with schedule := rest }) :=
  (step_host h).trans (bufAccess_below (by cases sp <;> exact hi) _)

theorem step_writeBuf {sp : Space} {i : Nat} {v : Byte} (hi : i < (s.cap sp).toNat)
    (h : s.schedule = .host (.writeBuf sp i v) :: rest) :
    step s = .next (hostWriteBuf sp i v { s with schedule := rest }) :=
  (step_host h).trans (bufAccess_below (by cases sp <;> exact hi) _)

/-! BUSY decides what an access does (10 R51). -/

theorem hostReadReg_idle (hbusy : s.status.busy = false) (r : Reg) : hostReadReg r s = deliver (regValue s r) s := by
  unfold hostReadReg
  rw [if_neg (by simp [hbusy])]

theorem hostReadReg_busy_status (hbusy : s.status.busy = true) : hostReadReg .status s = deliverBusyStatus s := by
  unfold hostReadReg
  rw [if_pos hbusy]

theorem hostReadReg_busy (hbusy : s.status.busy = true) {r : Reg} (hr : r ≠ .status) : hostReadReg r s = deliverFree s := by
  unfold hostReadReg
  rw [if_pos hbusy]
  cases r with
  | status => exact absurd rfl hr
  | _ => rfl

theorem hostWriteReg_idle (hbusy : s.status.busy = false) (r : Reg) (w : Word) : hostWriteReg r w s = regWrite r w s := by
  unfold hostWriteReg
  rw [if_neg (by simp [hbusy])]

theorem hostWriteReg_busy (hbusy : s.status.busy = true) (r : Reg) (w : Word) : hostWriteReg r w s = s := by
  unfold hostWriteReg
  rw [if_pos hbusy]

theorem hostReadBuf_free {sp : Space} {i : Nat} (h : s.status.busy = true ∨ (s.len sp).toNat ≤ i) :
    hostReadBuf sp i s = deliverFreeByte s := by
  unfold hostReadBuf
  rw [if_pos h]

theorem hostReadBuf_idle {sp : Space} {i : Nat} (hbusy : s.status.busy = false) (hi : i < (s.len sp).toNat) :
    hostReadBuf sp i s = deliver ((s.byteAt sp i).setWidth 32) s := by
  unfold hostReadBuf
  rw [if_neg (by simp [hbusy, hi])]

theorem hostWriteBuf_busy (hbusy : s.status.busy = true) (sp : Space) (i : Nat) (v : Byte) : hostWriteBuf sp i v s = s := by
  unfold hostWriteBuf
  rw [if_pos hbusy]

theorem hostWriteBuf_inp (hbusy : s.status.busy = false) (i : Nat) (v : Byte) :
    hostWriteBuf .inp i v s = s.writeByte .inp i v := by
  unfold hostWriteBuf
  rw [if_neg (by simp [hbusy])]

/-- WORK and OUT are not the host's to write (10 R40). -/
theorem hostWriteBuf_ignored {sp : Space} (hsp : sp ≠ .inp) (i : Nat) (v : Byte) : hostWriteBuf sp i v s = s := by
  unfold hostWriteBuf
  split
  · rfl
  · cases sp with
    | inp => exact absurd rfl hsp
    | work | out => rfl

end

/-! ## The registers as words -/

theorem regAt_ge {k : Nat} (h : 9 ≤ k) : regAt k = .reserved := by
  obtain ⟨j, rfl⟩ := Nat.exists_eq_add_of_le' h
  rfl

theorem regAt_ne_status {k : Nat} (h : k ≠ 1) : regAt k ≠ .status := by
  unfold regAt
  split <;> first | exact absurd rfl h | exact fun h => nomatch h

theorem flagBit_eq_ofBool (b : Bool) : flagBit b = BitVec.ofBool b := by cases b <;> rfl

/-- The fields of `STATUS` in their places (10 R23): each stands above the lower ones, which the extraction skips. -/
theorem statusWord_fields (st : Status) :
    st.word.extractLsb' 0 1 = BitVec.ofBool st.busy ∧ st.word.extractLsb' 1 1 = BitVec.ofBool st.done ∧
    st.word.extractLsb' 2 1 = BitVec.ofBool st.err ∧ st.word.extractLsb' 3 1 = BitVec.ofBool st.pairValid ∧
    st.word.extractLsb' 4 4 = st.errCode ∧ st.word.extractLsb' 8 24 = 0#24 := by
  unfold Status.word
  simp only [flagBit_eq_ofBool]
  refine ⟨BitVec.extractLsb'_append_eq_right, ?_, ?_, ?_, ?_, ?_⟩
  · rw [BitVec.extractLsb'_append_eq_of_le (by decide)]
    exact BitVec.extractLsb'_append_eq_right
  · iterate 2 rw [BitVec.extractLsb'_append_eq_of_le (by decide)]
    exact BitVec.extractLsb'_append_eq_right
  · iterate 3 rw [BitVec.extractLsb'_append_eq_of_le (by decide)]
    exact BitVec.extractLsb'_append_eq_right
  · iterate 4 rw [BitVec.extractLsb'_append_eq_of_le (by decide)]
    exact BitVec.extractLsb'_append_eq_right
  · iterate 4 rw [BitVec.extractLsb'_append_eq_of_le (by decide)]
    exact BitVec.extractLsb'_append_eq_left

theorem busyWord_eq (b : Bool) : Status.busyWord b = 0#28 ++ BitVec.ofBool b ++ 0b001#3 := by cases b <;> decide

/-- `HDR` by value (10 R27, 20 R64). -/
theorem toNat_hdrWord (h : Hdr) : (hdrWord h).toNat =
    h.marker.toNat * 2 ^ 24 + h.orig2.toNat * 2 ^ 16 + h.orig1.toNat * 2 ^ 8 + h.sub.toNat :=
  toNat_append4 h.sub h.orig1 h.orig2 h.marker

/-- `PAIR` by value (10 R29). -/
theorem toNat_pairWord (p : Pair) : (pairWord p).toNat = p.b.toNat * 2 ^ 8 + p.a.toNat := by
  have := toNat_append4 p.a p.b 0#8 0#8
  simpa [pairWord] using this

/-! ## The statements about the host's accesses -/

/-- Settles O6: the reset values are written out in `State.reset`. -/
theorem resetState : Obligations.ResetState := ⟨rfl, rfl, rfl, rfl, rfl, rfl, rfl, rfl⟩

/-- Settles O11: an idle machine's doorbell is `State.ring`. -/
theorem commandStart : Obligations.CommandStart := by
  intro s w rest hbusy hs
  rw [step_writeReg (k := 0) (by decide) hs, hostWriteReg_idle (s := { s with schedule := rest }) hbusy]
  rfl

/-- Settles O12: every access of a busy machine is an ignored write or draws a free value. -/
theorem busyAccess : Obligations.BusyAccess := by
  intro s rest hbusy
  have hbusy' : (State.status { s with schedule := rest }).busy = true := hbusy
  refine ⟨fun k w hk hs => ?_, fun sp i v hi hs => ?_, fun hs => ?_, fun k hk hne hs => ?_, fun sp i hi hs => ?_⟩
  · rw [step_writeReg hk hs, hostWriteReg_busy hbusy']
  · rw [step_writeBuf hi hs, hostWriteBuf_busy hbusy']
  · have hreg : regAt 1 = .status := rfl
    refine ⟨BitVec.ofBool ((Config.freeWord s.freeCount).getLsbD 0), ?_⟩
    rw [step_readReg (k := 1) (by decide) hs, hreg, hostReadReg_busy_status hbusy', deliverBusyStatus, busyWord_eq]
  · rw [step_readReg hk hs, hostReadReg_busy hbusy' (regAt_ne_status hne)]
    exact ⟨_, rfl⟩
  · rw [step_readBuf hi hs, hostReadBuf_free (.inl hbusy')]
    exact ⟨_, rfl⟩

/-- Settles O13: an idle machine answers `regValue` of the register. -/
theorem registerReads : Obligations.RegisterReads := by
  intro s k rest hbusy hk hs
  refine ⟨regValue s (regAt k), ?_, ?_, ?_, ?_, ?_, ?_, ?_, ?_, ?_, ?_, ?_⟩
  · rw [step_readReg hk hs, hostReadReg_idle (s := { s with schedule := rest }) hbusy]
    cases regAt k <;> rfl
  · rintro rfl; rfl
  · rintro rfl; exact statusWord_fields s.status
  · rintro rfl; rfl
  · rintro rfl; rfl
  · rintro rfl; rfl
  · rintro rfl; exact toNat_hdrWord s.hdr
  · rintro rfl; exact toNat_pairWord s.pair
  · rintro rfl; rfl
  · rintro rfl; rfl
  · intro hge; rw [regAt_ge hge]; rfl

/-- Settles O14: an idle machine does `regWrite` of the register. -/
theorem registerWrites : Obligations.RegisterWrites := by
  intro s k w rest hbusy hpos hk hs
  rw [step_writeReg hk hs, hostWriteReg_idle (s := { s with schedule := rest }) hbusy]
  by_cases h9 : 9 ≤ k
  · rw [regAt_ge h9, if_neg (by omega), if_neg (by omega)]
    rfl
  · interval_cases k <;> rfl

/-- Settles O15: of an idle machine the host reads below the length and writes IN. -/
theorem bufferAccess : Obligations.BufferAccess := by
  intro s i v rest hbusy
  have hbusy' : (State.status { s with schedule := rest }).busy = false := hbusy
  refine ⟨fun sp hlen hcap hs => ?_, fun sp hlen hcap hs => ?_, fun hcap hs => ?_, fun sp hsp hcap hs => ?_⟩
  · rw [step_readBuf hcap hs, hostReadBuf_idle hbusy' (by cases sp <;> exact hlen)]
    cases sp <;> rfl
  · rw [step_readBuf hcap hs, hostReadBuf_free (.inr (by cases sp <;> exact hlen))]
    exact ⟨_, rfl⟩
  · rw [step_writeBuf (sp := .inp) hcap hs, hostWriteBuf_inp hbusy']
    exact ⟨_, rfl, fun j => State.byteAt_writeByte { s with schedule := rest } .inp i j v⟩
  · rw [step_writeBuf hcap hs, hostWriteBuf_ignored hsp]

/-- Settles O16: the tests of `regAccess` and `bufAccess` come before what the access does. -/
theorem badAccessStops : Obligations.BadAccessStops := by
  intro s rest w v
  refine ⟨fun offset width h => ⟨fun hs => ?_, fun hs => ?_⟩, fun offset width h hbad => ⟨fun hs => ?_, fun hs => ?_⟩,
    fun sp i h => ⟨fun hs => ?_, fun hs => ?_⟩⟩ <;> rw [step_host hs]
  · rw [hostMove_readReg, regAccess_noSuchRegister h]
  · rw [hostMove_writeReg, regAccess_noSuchRegister h]
  · rw [hostMove_readReg, regAccess_badRegisterAccess h hbad]
  · rw [hostMove_writeReg, regAccess_badRegisterAccess h hbad]
  · exact bufAccess_noSuchByte (by cases sp <;> exact h) _
  · exact bufAccess_noSuchByte (by cases sp <;> exact h) _

end Sys2Proof.Machine

namespace Sys2Proof

/-! ## The decoders, port by port -/

theorem decode_header_ok {bytes rest : List Byte} {h : Hdr} (hd : decodeHeader bytes = .ok (h, rest)) :
    decode .header bytes = .ok (.hdr h, rest) := by
  simp only [decode, hd]

theorem decode_header_error {bytes : List Byte} {e : DecodeError} (hd : decodeHeader bytes = .error e) :
    decode .header bytes = .error e := by
  simp only [decode, hd]

theorem decode_stream_ok {m : Byte} {bytes rest : List Byte} {f : Form} (hd : decodeForm m bytes = .ok (f, rest)) :
    decode (.stream m) bytes = .ok (f.toInstr, rest) := by
  simp only [decode, hd]

theorem decode_stream_error {m : Byte} {bytes : List Byte} {e : DecodeError} (hd : decodeForm m bytes = .error e) :
    decode (.stream m) bytes = .error e := by
  simp only [decode, hd]

/-- The doorbell takes four bytes and decodes the word they are (20 R64, 30 R103). -/
theorem decode_cmd_inv {bytes rest : List Byte} {i : Instr} (h : decode .cmd bytes = .ok (i, rest)) :
    ∃ w, decodeCommand w = .ok i ∧ bytes = bytesOfWord w ++ rest := by
  match bytes with
  | b0 :: b1 :: b2 :: b3 :: more =>
    have hbytes : b0 :: b1 :: b2 :: b3 :: more = bytesOfWord (wordOfBytes b0 b1 b2 b3) ++ more := by
      rw [bytesOfWord_wordOfBytes]; rfl
    rw [hbytes, decode_cmd_bytesOfWord] at h
    cases hw : decodeCommand (wordOfBytes b0 b1 b2 b3) with
    | ok j => rw [hw] at h; cases h; exact ⟨_, hw, hbytes⟩
    | error e => rw [hw] at h; cases h
  | [] | [_] | [_, _] | [_, _, _] => cases h

theorem decode_header_inv {bytes rest : List Byte} {i : Instr} (h : decode .header bytes = .ok (i, rest)) :
    ∃ fields, i = .hdr fields ∧ decodeHeader bytes = .ok (fields, rest) := by
  cases hd : decodeHeader bytes with
  | ok d => rw [decode_header_ok hd] at h; cases h; exact ⟨_, rfl, rfl⟩
  | error e => rw [decode_header_error hd] at h; cases h

theorem decode_stream_inv {m : Byte} {bytes rest : List Byte} {i : Instr}
    (h : decode (.stream m) bytes = .ok (i, rest)) : ∃ f : Form, i = f.toInstr ∧ decodeForm m bytes = .ok (f, rest) := by
  cases hd : decodeForm m bytes with
  | ok d => rw [decode_stream_ok hd] at h; cases h; exact ⟨_, rfl, rfl⟩
  | error e => rw [decode_stream_error hd] at h; cases h

/-! ## The header record and the payload forms -/

theorem decodeHeader_headerBytes (h : Hdr) (rest : List Byte) : decodeHeader (headerBytes h ++ rest) = .ok (h, rest) :=
  decodeHeader_ok h.sub h.orig1 h.orig2 h.marker rest ⟨rfl, rfl, rfl⟩

/-- A header record that is accepted is the magic and its four fields (30 R91). -/
theorem headerBytes_of_decodeHeader {bytes rest : List Byte} {h : Hdr} (hd : decodeHeader bytes = .ok (h, rest)) :
    bytes = headerBytes h ++ rest := by
  unfold decodeHeader at hd
  split at hd
  · split at hd
    · rename_i hmagic
      obtain ⟨rfl, rfl, rfl⟩ := hmagic
      split at hd <;> cases hd
      rfl
    · cases hd
  · cases hd

theorem decodeForm_run (m count value : Byte) (rest : List Byte) :
    decodeForm m (m :: count :: value :: rest) = .ok (.run count value, rest) := if_pos rfl

theorem decodeForm_lit {m b : Byte} (h : b ≠ m) (rest : List Byte) : decodeForm m (b :: rest) = .ok (.lit b, rest) :=
  if_neg h

theorem decodeForm_truncated (m : Byte) {rest : List Byte} (h : rest.length < 2) :
    decodeForm m (m :: rest) = .error .truncatedRun := by
  match rest with
  | [] | [_] => exact if_pos rfl
  | _ :: _ :: _ => simp only [List.length_cons] at h; omega

/-- A run is accepted behind the marker only, a literal only where its byte is not the marker (30 R94, R95). -/
theorem encode_of_decodeForm {m : Byte} {bytes rest : List Byte} {f : Form} (hd : decodeForm m bytes = .ok (f, rest)) :
    WellFormed m f.toInstr = true ∧ bytes = encode m f.toInstr ++ rest := by
  match bytes with
  | [] => cases hd
  | b :: more =>
    by_cases hb : b = m
    · subst hb
      match more with
      | count :: value :: more => rw [decodeForm_run] at hd; cases hd; exact ⟨rfl, rfl⟩
      | [] | [_] => rw [decodeForm_truncated b (by simp)] at hd; cases hd
    · rw [decodeForm_lit hb] at hd
      cases hd
      exact ⟨bne_iff_ne.2 hb, rfl⟩

/-! ## Decoder and encoder -/

/-- The encoder writes a command as the word that decodes to it (30 R104). -/
theorem encode_command {m : Byte} {i : Instr} (h : i.port m = .cmd) :
    ∃ w, decodeCommand w = .ok i ∧ encode m i = bytesOfWord w := by
  cases i with
  | hdr _ | run _ _ | lit _ => cases h
  | _ => exact ⟨_, rfl, rfl⟩

/-- Settles O1: a command by its word, the header record and the forms by the rules of their decoders. -/
theorem decodeEncodeAgree : Obligations.DecodeEncodeAgree := by
  intro m i rest hwf
  cases hp : i.port m with
  | cmd =>
    obtain ⟨w, hw, he⟩ := encode_command hp
    rw [he, decode_cmd_bytesOfWord, hw]
  | header =>
    cases i with
    | hdr fields => exact decode_header_ok (decodeHeader_headerBytes fields rest)
    | _ => cases hp
  | stream m' =>
    cases i with
    | run count value => cases hp; exact decode_stream_ok (decodeForm_run m count value rest)
    | lit b => cases hp; exact decode_stream_ok (decodeForm_lit (bne_iff_ne.1 hwf) rest)
    | _ => cases hp

/-- Settles O2: each decoder accepts only what the encoder writes; where the marker does not matter it is 0. -/
theorem encodeDecodeAgree : Obligations.EncodeDecodeAgree := by
  intro p bytes i rest h
  cases p with
  | cmd =>
    obtain ⟨w, hw, hbytes⟩ := decode_cmd_inv h
    obtain ⟨hport, hwf, he⟩ := encode_of_decodeCommand hw 0x00#8
    exact ⟨0x00#8, hport, hwf, he ▸ hbytes⟩
  | header =>
    obtain ⟨fields, rfl, hd⟩ := decode_header_inv h
    exact ⟨0x00#8, rfl, rfl, headerBytes_of_decodeHeader hd⟩
  | stream m =>
    obtain ⟨f, rfl, hd⟩ := decode_stream_inv h
    obtain ⟨hwf, hbytes⟩ := encode_of_decodeForm hd
    exact ⟨m, by cases f <;> rfl, hwf, hbytes⟩

/-- Settles O3: the decoders compute on these bytes. -/
theorem sampleWordsDecode : Obligations.SampleWordsDecode := ⟨rfl, rfl, rfl, rfl, rfl, rfl, rfl⟩

/-! ## What the file decoders reject -/

/-- 44 R214: the test of the magic comes first, also on a file of fewer than three bytes. -/
theorem decodeHeader_badMagic {bytes : List Byte}
    (h : bytes.take 3 ≠ [Config.magic0, Config.magic1, Config.magic2]) : decodeHeader bytes = .error .badMagic := by
  match bytes with
  | [] | [_] | [_, _] => rfl
  | _ :: _ :: _ :: _ => exact decodeHeader_bad (by simpa using h)

theorem eq_magic_append {bytes : List Byte} (h : bytes.take 3 = [Config.magic0, Config.magic1, Config.magic2]) :
    bytes = Config.magic0 :: Config.magic1 :: Config.magic2 :: bytes.drop 3 := by
  have := List.take_append_drop 3 bytes
  rw [h] at this
  exact this.symm

/-- 44 R215: the magic, but fewer than seven bytes. -/
theorem decodeHeader_shortHeader {bytes : List Byte}
    (h : bytes.take 3 = [Config.magic0, Config.magic1, Config.magic2]) (hlen : bytes.length < 7) :
    decodeHeader bytes = .error .shortHeader := by
  rw [eq_magic_append h]
  exact decodeHeader_short ⟨rfl, rfl, rfl⟩ (by rw [List.length_drop]; omega)

theorem decodeHeader_whole {bytes : List Byte}
    (h : bytes.take 3 = [Config.magic0, Config.magic1, Config.magic2]) (hlen : 7 ≤ bytes.length) :
    ∃ fields, decodeHeader bytes = .ok (fields, bytes.drop 7) := by
  match bytes, hlen with
  | _ :: _ :: _ :: s :: x :: y :: m :: rest, _ => exact ⟨_, decodeHeader_ok s x y m rest (by simpa using h)⟩

/-- Settles O4: the tests of the header decoder in their order, and the marker's two followers. -/
theorem illegalFormsExact : Obligations.IllegalFormsExact := by
  refine ⟨fun bytes h => decode_header_error (decodeHeader_badMagic h),
    fun bytes h hlen => decode_header_error (decodeHeader_shortHeader h hlen),
    fun bytes h hlen => ?_, fun m bytes h hlen => ?_, fun m bytes h hlen => ?_,
    fun m b rest h => decode_stream_ok (decodeForm_lit h rest)⟩
  · obtain ⟨fields, hd⟩ := decodeHeader_whole h hlen
    exact ⟨fields, decode_header_ok hd⟩
  · obtain ⟨rest, rfl⟩ := List.head?_eq_some_iff.1 h
    rw [List.length_cons] at hlen
    exact decode_stream_error (decodeForm_truncated m (by omega))
  · obtain ⟨rest, rfl⟩ := List.head?_eq_some_iff.1 h
    match rest, hlen with
    | count :: value :: more, _ => exact ⟨count, value, decode_stream_ok (decodeForm_run m count value more)⟩

end Sys2Proof

namespace Sys2Proof.Machine

/-! ## The steps that take a command word -/

/-- Settles O8: a word that decodes is run as its instruction. -/
theorem stepRunsCommandWord : Obligations.StepRunsCommandWord := by
  intro s w i hact hdec
  have hrun : ∀ t : State, t.activity = .started w → coreMove .whole t = exec i t := fun t ht =>
    (coreMove_started .whole ht).trans (moveStarted_whole (decode_cmd_ok.1 hdec))
  exact ⟨fun hs => (step_nil hs).trans (hrun s hact), fun rest hs => (step_core hs).trans (hrun _ hact)⟩

/-- A reserved word written to `CMD` of an idle machine: the doorbell, then the core's error completion (30 R105). -/
theorem run_reserved {s : State} {w : Word} {rest : List Move} (hw : w.toNat = 0 ∨ 11 ≤ w.toNat)
    (hbusy : s.status.busy = false) (hs : s.schedule = .host (.writeReg 0x00 32 w) :: .core .whole :: rest) :
    Host.Core.run core 2 s =
      .next (State.errorComplete .illegalCommand w (State.ring { s with schedule := rest } w)) := by
  have hcore : step (State.ring { s with schedule := .core .whole :: rest } w) =
      .next (State.errorComplete .illegalCommand w (State.ring { s with schedule := rest } w)) :=
    (step_core rfl).trans ((coreMove_started .whole rfl).trans (moveStarted_reserved .whole hw))
  exact (run_succ 1 (commandStart s w _ hbusy hs)).trans (run_succ 0 hcore)

theorem completedWith_errorComplete (e : ErrorKind) (info : Word) (s : State) :
    CompletedWith e info (s.errorComplete e info) := ⟨rfl, rfl, rfl, rfl, rfl, rfl, rfl, rfl⟩

theorem coreLeavesAlone_errorComplete_ring (e : ErrorKind) (info w : Word) (s : State) :
    CoreLeavesAlone s ((s.ring w).errorComplete e info) := ⟨rfl, fun _ => rfl, rfl, rfl, rfl, rfl, rfl⟩

/-- Settles O5: the doorbell, then the error completion; a busy machine ignores the write. -/
theorem illegalCommandWrite : Obligations.IllegalCommandWrite := by
  intro s w rest hw
  refine ⟨fun hbusy hs => ⟨_, run_reserved hw hbusy hs, completedWith_errorComplete _ w _,
    coreLeavesAlone_errorComplete_ring _ w w _, ?analysis, rfl, ?bytes, ?bytes', ?working, rfl⟩, fun hbusy hs => ?busy⟩
  case analysis => exact ⟨rfl, rfl, rfl, fun _ => rfl, fun _ => rfl⟩
  case bytes | bytes' => exact fun _ _ => rfl
  case working => exact ⟨fun _ => ⟨rfl, rfl⟩, fun _ => rfl, fun _ => rfl, fun _ => rfl⟩
  case busy =>
    rw [step_writeReg (k := 0) (by decide) hs, hostWriteReg_busy (s := { s with schedule := .core .whole :: rest }) hbusy]

end Sys2Proof.Machine

namespace Sys2Proof.Codec

/-! ## Counts and winners of a buffer -/

/-- Every list of numbers below `n` is as long as the counts of 0 to `n` - 1 sum to. -/
theorem sum_count_range {l : List Nat} {n : Nat} (h : ∀ k ∈ l, k < n) :
    ((List.range n).map fun k => l.count k).sum = l.length := by
  have hcard := Multiset.sum_count_eq_card (s := Finset.range n) (m := (l : Multiset Nat)) (by simpa using h)
  rw [← List.toFinset_range, List.sum_toFinset _ List.nodup_range] at hcard
  simpa using hcard

/-- The two bytes of a pair are those of its pair index (00 R12). -/
theorem pairCount_pairOfIndex (l : List Byte) {k : Nat} (hk : k < 65536) :
    pairCount l ((Machine.pairOfIndex k).a, (Machine.pairOfIndex k).b) =
      ((pairs l).map fun q => Machine.pairIndex q.1 q.2).count k := by
  have hinj : Function.Injective fun q : Byte × Byte => Machine.pairIndex q.1 q.2 := fun q r h =>
    Prod.ext_iff.2 (Machine.pairIndex_inj.1 h)
  have hcount := List.count_map_of_injective (pairs l) _ hinj ((Machine.pairOfIndex k).a, (Machine.pairOfIndex k).b)
  rw [Machine.pairOfIndex_pairIndex hk] at hcount
  exact hcount.symm

/-- 40 R122: every index but the last is that of one pair. -/
theorem sum_pairCount (l : List Byte) :
    ((List.range 65536).map fun k => pairCount l ((Machine.pairOfIndex k).a, (Machine.pairOfIndex k).b)).sum =
      l.length - 1 := by
  have hlt : ∀ k ∈ (pairs l).map fun q => Machine.pairIndex q.1 q.2, k < 65536 := by
    intro k hk
    obtain ⟨q, -, rfl⟩ := List.mem_map.1 hk
    exact Machine.pairIndex_lt q.1 q.2
  rw [List.map_congr_left fun k hk => pairCount_pairOfIndex l (List.mem_range.1 hk), sum_count_range hlt,
    List.length_map, length_pairs]

theorem mem_of_mem_pairs {l : List Byte} {a b : Byte} (h : (a, b) ∈ pairs l) : a ∈ l ∧ b ∈ l := by
  obtain ⟨ha, hb⟩ := List.of_mem_zip h
  exact ⟨ha, List.mem_of_mem_tail hb⟩

section
variable {l : List Byte} {m : Nat} {p q : Byte × Byte}

theorem FirstToReach.unique (hp : FirstToReach l m p) (hq : FirstToReach l m q) : p = q := by
  obtain ⟨i, hi, hci, hbeforei⟩ := hp
  obtain ⟨j, hj, hcj, hbeforej⟩ := hq
  rcases Nat.lt_trichotomy i j with hij | rfl | hij
  · exact absurd hci (hbeforej i p hij hi).ne
  · exact Option.some.inj (hi.symm.trans hj)
  · exact absurd hcj (hbeforei j q hij hj).ne

theorem FirstEncountered.unique (hp : FirstEncountered l m p) (hq : FirstEncountered l m q) : p = q := by
  obtain ⟨i, hi, hci, hbeforei⟩ := hp
  obtain ⟨j, hj, hcj, hbeforej⟩ := hq
  rcases Nat.lt_trichotomy i j with hij | rfl | hij
  · exact absurd hci (hbeforej i p hij hi)
  · exact Option.some.inj (hi.symm.trans hj)
  · exact absurd hcj (hbeforei j q hij hj)

theorem LowestIndex.unique (hp : LowestIndex l m p) (hq : LowestIndex l m q) : p = q := by
  obtain ⟨hmemp, hcp, hleastp⟩ := hp
  obtain ⟨hmemq, hcq, hleastq⟩ := hq
  exact Prod.ext_iff.2 (Machine.pairIndex_inj.1 (Nat.le_antisymm (hleastp q hmemq hcq) (hleastq p hmemp hcp)))

/-- With a maximum of 1 the first pair of the buffer reaches it. -/
theorem FirstToReach.head (h : FirstToReach l 1 p) : (pairs l)[0]? = some p := by
  obtain ⟨j, hj, -, hbefore⟩ := h
  cases j with
  | zero => exact hj
  | succ j =>
    obtain ⟨q, rest, hpairs⟩ := List.exists_cons_of_ne_nil (l := pairs l) (by rintro hn; simp [hn] at hj)
    have hlt := hbefore 0 q (Nat.succ_pos j) (by rw [hpairs]; rfl)
    rw [hpairs] at hlt
    simp at hlt

end

end Sys2Proof.Codec

namespace Sys2Proof.Machine

/-! ## The tables are determined by what they read as -/

/-- A cleared `HIST` lists the counters that are not 0 (10 R42). -/
theorem Hist.cellRead_eq {h : Hist} (hw : h.wf) (hc : h.fill = .cleared) (e k : Nat) :
    cellRead h.cells k = if h.read e k = 0#32 then none else some (h.read e k) := by
  cases hr : cellRead h.cells k with
  | none => simp [Hist.read, hr, hc]
  | some v =>
    obtain ⟨-, hnonzero⟩ := hw
    have hv : v ≠ 0#32 := hnonzero hc _ (mem_of_cellRead hr)
    simp [Hist.read, hr, hv]

theorem HistOk.cellRead_of_ge {h : Hist} (hh : HistOk h) {k : Nat} (hk : 65536 ≤ k) : cellRead h.cells k = none := by
  obtain ⟨-, hlt⟩ := hh
  cases hr : cellRead h.cells k with
  | none => rfl
  | some v => exact absurd (hlt _ (mem_of_cellRead hr)) (Nat.not_lt.2 hk)

/-- Cleared tables that count every pair alike are the same table. -/
theorem HistOk.eq_of_read {h h' : Hist} {e e' : Nat} (hh : HistOk h) (hh' : HistOk h') (hc : h.fill = .cleared)
    (hc' : h'.fill = .cleared) (hread : ∀ a b, h.read e (pairIndex a b) = h'.read e' (pairIndex a b)) : h = h' := by
  have ⟨hwf, _⟩ := hh
  have ⟨hwf', _⟩ := hh'
  have hcells : h.cells = h'.cells := rising_ext hwf.1 hwf'.1 fun k => by
    rcases Nat.lt_or_ge k 65536 with hk | hk
    · have hk' := hread (pairOfIndex k).a (pairOfIndex k).b
      rw [pairOfIndex_pairIndex hk] at hk'
      rw [Hist.cellRead_eq hwf hc e, Hist.cellRead_eq hwf' hc' e', hk']
    · rw [hh.cellRead_of_ge hk, hh'.cellRead_of_ge hk]
  obtain ⟨fill, cells⟩ := h
  obtain ⟨fill', cells'⟩ := h'
  exact congr (congrArg Hist.mk (hc.trans hc'.symm)) hcells

/-- Cleared tables that mark the same values are the same table. -/
theorem Used.eq_of_read {u u' : Used} {e e' : Nat} (hc : u.fill = .cleared) (hc' : u'.fill = .cleared)
    (hread : ∀ v, u.read e v = u'.read e' v) : u = u' := by
  obtain ⟨fill, marks⟩ := u
  obtain ⟨fill', marks'⟩ := u'
  obtain rfl : fill = .cleared := hc
  obtain rfl : fill' = .cleared := hc'
  have hmarks : marks = marks' := BitVec.eq_of_getLsbD_eq fun i hi => by
    have hi' := hread (BitVec.ofNat 8 i)
    simpa [Used.read, Nat.mod_eq_of_lt hi] using hi'
  rw [hmarks]

/-! ## What ANALYZE ends in -/

/-- `t` is the end of an ANALYZE of the input of `s`: its results by what they mean (40 R122 to R126). -/
structure Analyzed (s t : State) : Prop where
  completed : CompletedOk t
  histOk : HistOk t.hist
  histCleared : t.hist.fill = .cleared
  counts : ∀ a b, (t.hist.read t.epoch (pairIndex a b)).toNat = Codec.pairCount s.input (a, b)
  usedCleared : t.used.fill = .cleared
  used : ∀ v, t.used.read t.epoch v = decide (v ∈ s.input)
  greatest : ∀ q, Codec.pairCount s.input q ≤ t.bestCount.toNat
  noPair : Codec.pairs s.input = [] → t.bestCount = 0#32 ∧ t.pair = ⟨0#8, 0#8⟩
  atLeastOne : Codec.pairs s.input ≠ [] → 1 ≤ t.bestCount.toNat
  winner : Codec.pairs s.input ≠ [] → TieOk s.params.tie s.input t.bestCount.toNat (t.pair.a, t.pair.b)
  pairValid : t.status.pairValid = pairValidOf t.bestCount

theorem exec_analyze {s : State} (hcap : s.inLen.toNat ≤ s.params.capIn.toNat) :
    ∃ t, exec .analyze s = .next t ∧ Analyzed s t := by
  obtain ⟨h, u, m, p, pv, hbody, hhist, hhistFill, hcounts, husedFill, hused, hgreatest, hnone, hsome⟩ :=
    analyzeBody_spec s.begin hcap
  exact ⟨_, command_ok hbody, ⟨rfl, rfl, rfl, rfl, rfl, rfl⟩, hhist, hhistFill, hcounts, husedFill, hused, hgreatest,
    hnone, fun hne => (hsome hne).1, fun hne => (hsome hne).2, rfl⟩

theorem length_input (s : State) : s.input.length = s.inLen.toNat := State.length_bytes ..

theorem mem_input {s : State} {v : Byte} : v ∈ s.input ↔ ∃ i, i < s.inLen.toNat ∧ s.byteAt .inp i = v := by
  simp [State.input, State.bytes]

theorem pairs_input_eq_nil {s : State} (h : s.inLen.toNat < 2) : Codec.pairs s.input = [] := by
  rw [← List.length_eq_zero_iff, Codec.length_pairs, length_input]
  omega

theorem head_pairs_input {s : State} (h : 2 ≤ s.inLen.toNat) :
    (Codec.pairs s.input)[0]? = some (s.byteAt .inp 0, s.byteAt .inp 1) := by
  obtain ⟨n, hn⟩ := Nat.exists_eq_add_of_le' h
  rw [State.input, hn, State.bytes_succ, State.bytes_succ]
  rfl

theorem pairValidOf_iff {m : Word} : pairValidOf m = true ↔ 2 ≤ m.toNat := decide_eq_true_iff

section
variable {r : TieRule} {l : List Byte} {m : Nat} {p q : Byte × Byte}

/-- Every tie rule picks one of the most frequent pairs (00 R10). -/
theorem TieOk.count (h : TieOk r l m p) (hm : ∀ q, Codec.pairCount l q ≤ m) : Codec.pairCount l p = m := by
  cases r with
  | firstToReachMax => exact Codec.FirstToReach.count h hm
  | firstEncountered =>
    obtain ⟨-, -, hc, -⟩ := h
    exact hc
  | lowestIndex =>
    obtain ⟨-, hc, -⟩ := h
    exact hc

/-- Every tie rule picks one pair (00 R10). -/
theorem TieOk.unique (hp : TieOk r l m p) (hq : TieOk r l m q) : p = q := by
  cases r with
  | firstToReachMax => exact Codec.FirstToReach.unique hp hq
  | firstEncountered => exact Codec.FirstEncountered.unique hp hq
  | lowestIndex => exact Codec.LowestIndex.unique hp hq

end

theorem Pair.eq_of_prod {p q : Pair} (h : (p.a, p.b) = (q.a, q.b)) : p = q := by
  cases p
  cases q
  cases h
  rfl

namespace Analyzed
variable {s t s' t' : State}

theorem pairCount_winner (h : Analyzed s t) (hne : Codec.pairs s.input ≠ []) :
    Codec.pairCount s.input (t.pair.a, t.pair.b) = t.bestCount.toNat := (h.winner hne).count h.greatest

theorem winner_mem (h : Analyzed s t) (hne : Codec.pairs s.input ≠ []) : (t.pair.a, t.pair.b) ∈ Codec.pairs s.input :=
  Codec.pairCount_pos.1 (by have := h.atLeastOne hne; rwa [h.pairCount_winner hne])

theorem pairValid_iff (h : Analyzed s t) : t.status.pairValid = true ↔ 2 ≤ t.bestCount.toNat := by
  rw [h.pairValid, pairValidOf_iff]

theorem pairValid_of_bestCount (h : Analyzed s t) {m : Word} (hm : t.bestCount = m) :
    t.status.pairValid = pairValidOf m := hm ▸ h.pairValid

theorem ne_nil_of_pairValid (h : Analyzed s t) (hv : t.status.pairValid = true) : Codec.pairs s.input ≠ [] := by
  intro hnil
  obtain ⟨hzero, -⟩ := h.noPair hnil
  have := h.pairValid_iff.1 hv
  rw [hzero] at this
  simp at this

theorem pairCount_of_pairValid (h : Analyzed s t) (hv : t.status.pairValid = true) :
    2 ≤ Codec.pairCount s.input (t.pair.a, t.pair.b) := by
  rw [h.pairCount_winner (h.ne_nil_of_pairValid hv)]
  exact h.pairValid_iff.1 hv

/-- Where all pairs of the input are one, it wins under every tie rule (40 R129). -/
theorem of_pairs_replicate (h : Analyzed s t) {q : Byte × Byte} {n : Nat}
    (hq : Codec.pairs s.input = List.replicate (n + 1) q) :
    t.bestCount.toNat = n + 1 ∧ t.pair = { a := q.1, b := q.2 } := by
  have hne : Codec.pairs s.input ≠ [] := by simp [hq]
  have hmem := h.winner_mem hne
  rw [hq] at hmem
  have hpair := List.eq_of_mem_replicate hmem
  refine ⟨?_, Pair.eq_of_prod hpair⟩
  rw [← h.pairCount_winner hne, hpair, Codec.pairCount, hq, List.count_replicate_self]

/-! Two runs on the same input. -/

section
variable (h : Analyzed s t) (h' : Analyzed s' t') (hin : s.input = s'.input)
include h h' hin

theorem hist_eq : t.hist = t'.hist :=
  h.histOk.eq_of_read h'.histOk h.histCleared h'.histCleared fun a b =>
    BitVec.eq_of_toNat_eq (by rw [h.counts, h'.counts, hin])

theorem used_eq : t.used = t'.used :=
  Used.eq_of_read h.usedCleared h'.usedCleared fun v => by rw [h.used, h'.used, hin]

theorem bestCount_le : t.bestCount.toNat ≤ t'.bestCount.toNat := by
  by_cases hnil : Codec.pairs s.input = []
  · obtain ⟨hzero, -⟩ := h.noPair hnil
    simp [hzero]
  · rw [← h.pairCount_winner hnil, hin]
    exact h'.greatest _

theorem bestCount_eq : t.bestCount = t'.bestCount :=
  BitVec.eq_of_toNat_eq (Nat.le_antisymm (h.bestCount_le h' hin) (h'.bestCount_le h hin.symm))

theorem pair_eq (htie : s.params.tie = s'.params.tie) : t.pair = t'.pair := by
  by_cases hnil : Codec.pairs s.input = []
  · obtain ⟨-, hpair⟩ := h.noPair hnil
    obtain ⟨-, hpair'⟩ := h'.noPair (hin ▸ hnil)
    rw [hpair, hpair']
  · have hwin := h.winner hnil
    rw [hin, htie, h.bestCount_eq h' hin] at hwin
    exact Pair.eq_of_prod (hwin.unique (h'.winner (hin ▸ hnil)))

end

end Analyzed

/-! ## The statements about ANALYZE -/

/-- Settles O17: the sweep's counters are the pair counts, which sum to the number of pairs (`Codec.sum_pairCount`). -/
theorem analyzeCounts : Obligations.AnalyzeCounts := by
  intro s hcap
  obtain ⟨t, ht, h⟩ := exec_analyze hcap
  have hcounter : ∀ k ∈ List.range 65536, (t.hist.read t.epoch k).toNat =
      Codec.pairCount s.input ((pairOfIndex k).a, (pairOfIndex k).b) := fun k hk => by
    rw [← h.counts, pairOfIndex_pairIndex (List.mem_range.1 hk)]
  refine ⟨t, ht, h.completed, h.counts, ?_⟩
  rw [List.map_congr_left hcounter, Codec.sum_pairCount, length_input]

/-- Settles O18: the marked values are the members of the input. -/
theorem analyzeUsedBytes : Obligations.AnalyzeUsedBytes := by
  intro s hcap
  obtain ⟨t, ht, h⟩ := exec_analyze hcap
  exact ⟨t, ht, h.completed, fun v => by rw [h.used, decide_eq_true_iff, mem_input]⟩

/-- Settles O19: whatever the tie rule, the winner has the greatest count (`TieOk.count`). -/
theorem analyzeBest : Obligations.AnalyzeBest := by
  intro s hcap
  obtain ⟨t, ht, h⟩ := exec_analyze hcap
  refine ⟨t, ht, h.completed, h.greatest, fun hlen => ?_, fun hlen => h.noPair (pairs_input_eq_nil hlen),
    h.pairValid_iff, fun hv => ⟨_, h.pairCount_of_pairValid hv⟩, fun ⟨q, hq⟩ => ?_⟩
  · have hne := pairs_input_ne_nil hlen
    exact ⟨h.atLeastOne hne, h.pairCount_winner hne⟩
  · exact h.pairValid_iff.2 (hq.trans (h.greatest q))

/-- Settles O20: the running maximum is replaced only by a greater count, so the first pair to reach it stays. -/
theorem analyzeTieBreak : Obligations.AnalyzeTieBreak := by
  intro s hcap hlen htie
  obtain ⟨t, ht, h⟩ := exec_analyze hcap
  have hwin := h.winner (pairs_input_ne_nil hlen)
  rw [htie] at hwin
  exact ⟨t, ht, h.completed, hwin⟩

/-- Settles O22: the sweep changes the analyzer's results, `RP` and `PREV` alone (`State.analysis`). -/
theorem analyzeFrame : Obligations.AnalyzeFrame := by
  intro s hcap
  obtain ⟨h, u, m, p, pv, hbody, -⟩ := analyzeBody_spec s.begin hcap
  exact ⟨_, command_ok hbody, ⟨rfl, rfl, rfl, rfl, rfl, rfl⟩, coreLeavesAlone_of_untouched rfl, rfl, rfl, rfl,
    fun _ _ => rfl, fun _ _ => rfl, fun _ => ⟨rfl, rfl⟩, nofun, fun _ => rfl, fun _ => rfl⟩

/-- Settles O23: what the results mean determines them, the tables by their canonical form (10 R42). -/
theorem analyzeDeterministic : Obligations.AnalyzeDeterministic := by
  intro s s' hcap hcap' hin htie
  obtain ⟨t, ht, h⟩ := exec_analyze hcap
  obtain ⟨t', ht', h'⟩ := exec_analyze hcap'
  have hbest := h.bestCount_eq h' hin
  exact ⟨t, t', ht, ht', h.hist_eq h' hin, h.used_eq h' hin, hbest, h.pair_eq h' hin htie,
    by rw [h.pairValid, h'.pairValid, hbest]⟩

/-- Settles O24: no pair, one pair once or twice, and all pairs once. -/
theorem analyzeCornerCases : Obligations.AnalyzeCornerCases := by
  intro s hcap
  obtain ⟨t, ht, h⟩ := exec_analyze hcap
  refine ⟨t, ht, h.completed, fun hin => ?_, fun x hin => ?_, fun x y hin => ?_, fun x hin => ?_,
    fun htie hlen hnodup => ?_⟩
  · obtain ⟨hbest, hpair⟩ := h.noPair (by rw [hin]; rfl)
    exact ⟨hbest, hpair, h.pairValid_of_bestCount hbest, fun v => by simp [h.used, hin]⟩
  · obtain ⟨hbest, hpair⟩ := h.noPair (by rw [hin]; rfl)
    exact ⟨hbest, hpair, h.pairValid_of_bestCount hbest, fun v => by simp [h.used, hin]⟩
  · obtain ⟨hcount, hpair⟩ := h.of_pairs_replicate (q := (x, y)) (n := 0) (by rw [hin]; rfl)
    have hbest : t.bestCount = 1#32 := BitVec.eq_of_toNat_eq hcount
    exact ⟨hbest, hpair, h.pairValid_of_bestCount hbest, fun v => by simp [h.used, hin]⟩
  · obtain ⟨hcount, hpair⟩ := h.of_pairs_replicate (q := (x, x)) (n := 1) (by rw [hin]; rfl)
    have hbest : t.bestCount = 2#32 := BitVec.eq_of_toNat_eq hcount
    exact ⟨hbest, hpair, h.pairValid_of_bestCount hbest, fun v => by simp [h.used, hin]⟩
  · have hne := pairs_input_ne_nil hlen
    have hone : t.bestCount.toNat = 1 := by
      rw [← h.pairCount_winner hne]
      exact List.count_eq_one_of_mem hnodup (h.winner_mem hne)
    have hwin := h.winner hne
    rw [htie, hone] at hwin
    have hbest : t.bestCount = 1#32 := BitVec.eq_of_toNat_eq hone
    have hhead := (Codec.FirstToReach.head hwin).symm.trans (head_pairs_input hlen)
    exact ⟨hbest, Pair.eq_of_prod (Option.some.inj hhead), h.pairValid_of_bestCount hbest⟩

/-! ## SELECT -/

/-- SELECT's test is the one 40 R135 words. -/
theorem freeFor_eq_unusedValue (s : State) : freeFor s = unusedValue s := by
  funext v
  simp only [freeFor, unusedValue, bne, beq_eq_decide, decide_not]

theorem unusedValue_iff {s : State} {v : Byte} :
    unusedValue s v = true ↔ s.used.read s.epoch v = false ∧ v ≠ s.pair.a ∧ v ≠ s.pair.b := by
  simp [unusedValue, and_assoc]

/-- The value SELECT chooses (40 R135): none without a pair, and none where the range holds no free value. -/
def selectedSub (s : State) : Option Byte :=
  if s.status.pairValid then candidates.find? (freeFor s) else none

theorem selectedSub_eq_none {s : State} (h : s.status.pairValid = false) : selectedSub s = none := by
  simp [selectedSub, h]

theorem selectedSub_leastFree {s : State} (h : s.status.pairValid = true) :
    Codec.LeastFree (unusedValue s) (selectedSub s) := by
  rw [selectedSub, if_pos h, ← freeFor_eq_unusedValue]
  exact find_candidates s

/-- SELECT writes `HDR` and `SCAN` alone. -/
theorem selectBody_writes (s : State) :
    ∃ v, selectBody s = .ok { s with hdr := (writeChoice (selectedSub s) s).hdr, scan := v } := by
  rw [selectBody_eq]
  cases hv : s.status.pairValid with
  | false => exact ⟨s.scan, by rw [selectedSub_eq_none hv]; rfl⟩
  | true =>
    rw [selectedSub, if_pos hv]
    exact ⟨0xFE#8, by cases candidates.find? (freeFor s) <;> rfl⟩

/-- Settles O25: the scan finds the least free value (`find_candidates`), and only `HDR` and `SCAN` are written. -/
theorem selectRule : Obligations.SelectRule := by
  intro s
  obtain ⟨v, hbody⟩ := selectBody_writes s.begin
  refine ⟨_, command_ok hbody, ⟨rfl, rfl, rfl, rfl, rfl, rfl⟩, fun hv => ?_, fun hv => ?_,
    coreLeavesAlone_of_untouched rfl, sameAnalysis_of_analysisOf rfl, rfl, rfl, fun _ _ => rfl, fun _ _ => rfl, rfl,
    fun _ => ⟨rfl, rfl⟩, fun _ => rfl, nofun, fun _ => rfl⟩
  · have hleast : Codec.LeastFree (unusedValue s) (selectedSub s.begin) := selectedSub_leastFree (s := s.begin) hv
    cases hsub : selectedSub s.begin with
    | some w => exact .inl ⟨w, hsub ▸ hleast, rfl⟩
    | none => exact .inr ⟨hsub ▸ hleast, rfl⟩
  · rw [selectedSub_eq_none (s := s.begin) hv]
    rfl

/-- After ANALYZE a value is free where the input does not hold it; the pair's own bytes stand in the input (40 R137). -/
theorem Analyzed.unusedValue_iff_not_mem {s t : State} (h : Analyzed s t) (hv : t.status.pairValid = true) {v : Byte} :
    unusedValue t v = true ↔ v ∉ s.input := by
  obtain ⟨ha, hb⟩ := Codec.mem_of_mem_pairs (h.winner_mem (h.ne_nil_of_pairValid hv))
  rw [unusedValue_iff, h.used, decide_eq_false_iff_not]
  exact ⟨fun ⟨hin, _⟩ => hin, fun hin => ⟨hin, fun he => hin (he ▸ ha), fun he => hin (he ▸ hb)⟩⟩

/-- Settles O26: SELECT's rule on what ANALYZE leaves, where the free values are those not in the input. -/
theorem selectFreshness : Obligations.SelectFreshness := by
  intro s hcap
  obtain ⟨t, ht, h⟩ := exec_analyze hcap
  obtain ⟨u, hu, hok, hwith, hwithout, -⟩ := selectRule t
  refine ⟨t, u, ht, hu, hok, ?_⟩
  cases hv : t.status.pairValid with
  | false =>
    rw [hwithout hv]
    exact ⟨fun hne => absurd rfl hne, fun _ => ⟨rfl, rfl, .inl rfl⟩⟩
  | true =>
    obtain ⟨v, ⟨hlo, hhi, hfree, -⟩, hhdr⟩ | ⟨hleast, hhdr⟩ := hwith hv <;> rw [hhdr]
    · obtain ⟨-, hnea, hneb⟩ := unusedValue_iff.1 hfree
      refine ⟨fun _ => ⟨(h.unusedValue_iff_not_mem hv).1 hfree, ?_, hnea, hneb, h.pairCount_of_pairValid hv⟩, ?_⟩
      · rintro rfl
        exact absurd hhi (by decide)
      · rintro rfl
        exact absurd hlo (by decide)
    · refine ⟨fun hne => absurd rfl hne, fun _ => ⟨rfl, rfl, .inr fun v hlo hhi => ?_⟩⟩
      by_contra hnot
      exact absurd ((h.unusedValue_iff_not_mem hv).2 hnot) (by simp [hleast v hlo hhi])

end Sys2Proof.Machine

namespace Sys2Proof.Codec

/-! ## The substitution transform and its reversal, with substitution on or off -/

/-- 41 R163: each substitute byte becomes two. -/
theorem length_restored {s : Byte} (a b : Byte) (l : List Byte) (h : s ≠ Config.noSub) :
    (restored s a b l).length = l.length + l.count s := by
  induction l with
  | nil => rfl
  | cons x l ih =>
    by_cases hx : x = s
    · subst hx
      rw [restored_cons_sub a b l h, List.count_cons_self]
      simp only [List.length_cons, ih]
      omega
    · rw [restored_cons_ne a b l hx, List.count_cons_of_ne hx]
      simp only [List.length_cons, ih]
      omega

/-- 41 R164, with the case in which substitution is off. -/
theorem restored_substituted_of_off_or_fresh {s : Byte} (a b : Byte) {l : List Byte} (h : s = Config.noSub ∨ s ∉ l) :
    restored s a b (substituted s a b l) = l := by
  obtain rfl | h := h
  · rw [substituted_off, restored_off]
  · exact restored_substituted a b h

end Sys2Proof.Codec

namespace Sys2Proof.Machine

/-! ## A command that fills WORK or OUT anew -/

/-- The state after a command of `s` that emptied `sp`, appended `ys` to it and left `RP`, `RUNLEN`, `CURV` at `r`, `n`, `v`. -/
def refilled (sp : Space) (ys : List Byte) (r : Word) (n v : Byte) (s : State) : State :=
  ((stored sp ys (s.begin.setLen sp 0#32)).cursors r n v).complete

section
variable {sp sp' : Space} {ys : List Byte} {r : Word} {n v : Byte} {s : State}

theorem completedOk_refilled : CompletedOk (refilled sp ys r n v s) := by
  cases sp <;> exact ⟨rfl, rfl, rfl, rfl, rfl, rfl⟩

theorem coreLeavesAlone_refilled (h : sp ≠ .inp) : CoreLeavesAlone s (refilled sp ys r n v s) := by
  cases sp with
  | inp => exact absurd rfl h
  | work | out => exact coreLeavesAlone_of_untouched rfl

theorem sameAnalysis_refilled : SameAnalysis s (refilled sp ys r n v s) := by
  cases sp <;> exact sameAnalysis_of_analysisOf rfl

theorem sameWorking_refilled : SameWorking s (refilled sp ys r s.runLen s.curV s) false false false false := by
  cases sp <;> exact ⟨fun _ => ⟨rfl, rfl⟩, fun _ => rfl, fun _ => rfl, fun _ => rfl⟩

theorem refilled_hdr : (refilled sp ys r n v s).hdr = s.hdr := by cases sp <;> rfl

theorem len_refilled : (refilled sp ys r n v s).len sp' = (stored sp ys (s.begin.setLen sp 0#32)).len sp' := by
  rw [refilled, State.len_complete, len_cursors]

theorem byteAt_refilled (i : Nat) :
    (refilled sp ys r n v s).byteAt sp' i = (stored sp ys (s.begin.setLen sp 0#32)).byteAt sp' i := by
  cases sp' <;> rfl

/-- Neither the start of a command nor the emptying of a buffer writes a byte. -/
theorem byteAt_begin_setLen (w : Word) (i : Nat) : (s.begin.setLen sp w).byteAt sp' i = s.byteAt sp' i := by
  cases sp <;> cases sp' <;> rfl

theorem refilled_len_ne (h : sp' ≠ sp) : (refilled sp ys r n v s).len sp' = s.len sp' := by
  rw [len_refilled, len_stored_ne _ _ _ _ h, State.len_setLen_ne _ _ _ _ h, State.len_begin]

theorem sameBytesFrom_refilled_ne (h : sp' ≠ sp) : SameBytesFrom sp' 0 s (refilled sp ys r n v s) := by
  intro i _
  rw [byteAt_refilled, byteAt_stored_ne _ _ _ _ h, byteAt_begin_setLen]

theorem bytes_refilled : (refilled sp ys r n v s).bytes sp 0 ys.length = ys := by
  have hstored := bytes_stored_same (s.begin.setLen sp 0#32) sp ys
  rw [State.len_setLen_same] at hstored
  exact (State.bytes_congr fun i _ _ => byteAt_refilled i).trans hstored

section
variable (h : ys.length ≤ (s.cap sp).toNat)
include h

theorem toNat_len_refilled : ((refilled sp ys r n v s).len sp).toNat = ys.length := by
  have hcap := (s.cap sp).isLt
  rw [len_refilled, len_stored_same, State.len_setLen_same, BitVec.zero_add, BitVec.toNat_ofNat, Nat.mod_eq_of_lt (by omega)]

theorem contents_refilled :
    (refilled sp ys r n v s).bytes sp 0 ((refilled sp ys r n v s).len sp).toNat = ys := by
  rw [toNat_len_refilled h, bytes_refilled]

theorem sameBytesFrom_refilled :
    SameBytesFrom sp ((refilled sp ys r n v s).len sp).toNat s (refilled sp ys r n v s) := by
  intro i hi
  rw [toNat_len_refilled h] at hi
  rw [byteAt_refilled, byteAt_stored_same, State.len_setLen_same, if_neg (by simpa using hi), byteAt_begin_setLen]

end

end

/-! ## The statements about SUBST and UNSUBST -/

theorem exec_subst {s : State} (hcap : s.inLen.toNat ≤ s.params.capIn.toNat)
    (hroom : (Codec.substituted s.hdr.sub s.hdr.orig1 s.hdr.orig2 s.input).length ≤ s.params.capWork.toNat) :
    exec .subst s = .next (refilled .work (Codec.substituted s.hdr.sub s.hdr.orig1 s.hdr.orig2 s.input)
      s.inLen s.runLen s.curV s) := by
  obtain ⟨hbody, -⟩ := subst_delivers s.begin hcap
  exact command_ok (hbody ((Nat.zero_add _).trans_le hroom))

theorem exec_unsubst {s : State}
    (hroom : (Codec.restored s.hdr.sub s.hdr.orig1 s.hdr.orig2 s.workBytes).length ≤ s.params.capOut.toNat) :
    exec .unsubst s = .next (refilled .out (Codec.restored s.hdr.sub s.hdr.orig1 s.hdr.orig2 s.workBytes)
      s.workLen s.runLen s.curV s) := by
  obtain ⟨hbody, -⟩ := unsubst_delivers s.begin
  exact command_ok (hbody ((Nat.zero_add _).trans_le hroom))

theorem length_workBytes (s : State) : s.workBytes.length = s.workLen.toNat := State.length_bytes ..

/-- Settles O27: SUBST fills WORK with the document's transform of the input (`subst_delivers`). -/
theorem substResult : Obligations.SubstResult := by
  intro s hcap hroom
  have hwork := contents_refilled (sp := .work) (r := s.inLen) (n := s.runLen) (v := s.curV) hroom
  refine ⟨_, exec_subst hcap hroom, completedOk_refilled, hwork, fun hoff => hwork.trans ?_,
    coreLeavesAlone_refilled (by decide), sameAnalysis_refilled, refilled_hdr, refilled_len_ne (sp' := .out) (by decide),
    sameBytesFrom_refilled (sp := .work) hroom, sameBytesFrom_refilled_ne (by decide), sameWorking_refilled⟩
  rw [hoff]
  exact Codec.substituted_off _ _ _

/-- Settles O28: the bounds of the transform, `Codec.length_substituted_le` and `Codec.le_length_substituted`. -/
theorem substLength : Obligations.SubstLength := by
  intro s hcap hroom
  have hle := Codec.length_substituted_le s.hdr.sub s.hdr.orig1 s.hdr.orig2 s.input
  have hge := Codec.le_length_substituted s.hdr.sub s.hdr.orig1 s.hdr.orig2 s.input
  obtain ⟨t, ht, hok, hwork, -⟩ := substResult s hcap (by rw [length_input] at hle; exact hle.trans hroom)
  rw [← hwork, length_workBytes, length_input] at hle hge
  exact ⟨t, ht, hok, hle, hge⟩

/-- Settles O29: UNSUBST fills OUT with the document's reversal of WORK (`unsubst_delivers`). -/
theorem unsubstResult : Obligations.UnsubstResult := by
  intro s hroom
  have hout := contents_refilled (sp := .out) (r := s.workLen) (n := s.runLen) (v := s.curV) hroom
  refine ⟨_, exec_unsubst hroom, completedOk_refilled, hout, fun hoff => hout.trans ?_, fun hon => ?_,
    coreLeavesAlone_refilled (by decide), sameAnalysis_refilled, refilled_hdr, refilled_len_ne (sp' := .work) (by decide),
    sameBytesFrom_refilled (sp := .out) hroom, sameBytesFrom_refilled_ne (by decide), sameWorking_refilled⟩
  · rw [hoff]
    exact Codec.restored_off _ _ _
  · rw [← length_workBytes, ← Codec.length_restored s.hdr.orig1 s.hdr.orig2 s.workBytes hon]
    exact toNat_len_refilled (sp := .out) hroom

/-- Settles O30: UNSUBST reads the WORK and the `HDR` that SUBST leaves, and the reversal undoes the transform. -/
theorem unsubstUndoesSubst : Obligations.UnsubstUndoesSubst := by
  intro s hin hwork hout hfresh
  have hle := Codec.length_substituted_le s.hdr.sub s.hdr.orig1 s.hdr.orig2 s.input
  rw [length_input] at hle
  obtain ⟨t, ht, htok, hbytes, -, halone, -, hhdr, -⟩ := substResult s hin (hle.trans hwork)
  have hback : Codec.restored t.hdr.sub t.hdr.orig1 t.hdr.orig2 t.workBytes = s.input := by
    rw [hhdr, hbytes, Codec.restored_substituted_of_off_or_fresh _ _ hfresh]
  obtain ⟨u, hu, huok, houtput, -⟩ := unsubstResult t (by rwa [hback, halone.params, length_input])
  exact ⟨t, u, ht, htok, hu, huok, houtput.trans hback⟩

end Sys2Proof.Machine

namespace Sys2Proof.Machine

/-! ## What an append leaves in its buffer -/

theorem length_output (s : State) : s.output.length = s.outLen.toNat := State.length_bytes ..

section
variable {sp : Space} {ys : List Byte} {s : State} (h : (s.len sp).toNat + ys.length ≤ (s.cap sp).toNat)
include h

theorem contents_stored :
    (stored sp ys s).bytes sp 0 ((stored sp ys s).len sp).toNat = s.bytes sp 0 (s.len sp).toNat ++ ys := by
  rw [toNat_len_stored h, State.bytes_add, bytes_stored_below s sp ys (Nat.zero_add _).le, Nat.zero_add, bytes_stored_same]

theorem sameBytesFrom_stored : SameBytesFrom sp ((stored sp ys s).len sp).toNat s (stored sp ys s) := by
  intro i hi
  rw [toNat_len_stored h] at hi
  rw [byteAt_stored_same, if_neg (by omega)]

end

/-! ## RLEENC, and RLEDEC on what it wrote -/

/-- The state after RLEENC of `s`, with `RUNLEN` and `CURV` of its last run at `n` and `v` (42 R170, R171). -/
def runLengthCoded (n v : Byte) (s : State) : State :=
  ((stored .out (Codec.encoded s.workBytes) s.begin).cursors s.workLen n v).complete

theorem exec_rleenc {s : State} (hroom : s.outLen.toNat + (Codec.encoded s.workBytes).length ≤ s.params.capOut.toNat) :
    ∃ n v, exec .rleenc s = .next (runLengthCoded n v s) := by
  obtain ⟨n, v, hbody, -⟩ := rleenc_delivers s.begin
  exact ⟨n, v, command_ok (hbody hroom)⟩

/-- A payload without a truncated triplet whose expansion fits: RLEDEC fills WORK with the expansion (43 R190). -/
theorem exec_rledec {s : State} {ys : List Byte} (hcap : s.inLen.toNat ≤ s.params.capIn.toNat)
    (hexpand : Codec.expand s.hdr.marker 7 (s.input.drop 7) = (ys, none)) (hroom : ys.length ≤ s.params.capWork.toNat) :
    ∃ r n v, exec .rledec s = .next (refilled .work ys r n v s) := by
  obtain ⟨r, n, v, hbody, -⟩ := rledec_decodes s.begin hcap
  change Codec.expand s.begin.hdr.marker 7 (s.begin.input.drop 7) = _ at hexpand
  rw [hexpand] at hbody
  exact ⟨r, n, v, command_ok (hbody ((Nat.zero_add _).trans_le hroom))⟩

/-- Settles O31: RLEENC ends in `runLengthCoded`, where only OUT, `RP`, `RUNLEN` and `CURV` differ. -/
theorem rleencResult : Obligations.RleencResult := by
  intro s hroom
  obtain ⟨n, v, hexec⟩ := exec_rleenc hroom
  have hout : (runLengthCoded n v s).output = s.output ++ Codec.encoded s.workBytes :=
    contents_stored (sp := .out) (s := s.begin) hroom
  have habove : SameBytesFrom .out (runLengthCoded n v s).outLen.toNat s (runLengthCoded n v s) :=
    sameBytesFrom_stored (sp := .out) (s := s.begin) hroom
  exact ⟨_, hexec, ⟨rfl, rfl, rfl, rfl, rfl, rfl⟩, hout, coreLeavesAlone_of_untouched rfl, sameAnalysis_of_analysisOf rfl,
    rfl, rfl, habove, fun _ _ => rfl, nofun, fun _ => rfl, fun _ => rfl, fun _ => rfl⟩

/-- Settles O32: the bounds of the encoding, `Codec.length_encoded_le` and `Codec.length_encoded_le_of_notMem`. -/
theorem rleencSize : Obligations.RleencSize := by
  intro s hroom
  have hle := Codec.length_encoded_le s.workBytes
  rw [length_workBytes] at hle
  obtain ⟨t, ht, hok, hout, -⟩ := rleencResult s (by omega)
  have hlen : t.outLen.toNat = s.outLen.toNat + (Codec.encoded s.workBytes).length := by
    rw [← length_output, hout, List.length_append, length_output]
  refine ⟨t, ht, hok, by omega, fun hmarker => ?_⟩
  have hshort := Codec.length_encoded_le_of_notMem hmarker
  rw [length_workBytes] at hshort
  omega

/-- Settles O35: the payload is the encoding of WORK (`rleencResult`), which the decoder undoes (`Codec.expand_encoded`). -/
theorem rledecUndoesRleenc : Obligations.RledecUndoesRleenc := by
  intro s t u hroom ht hcap hwork hmarker hpayload
  obtain ⟨_, ht', -, hout, -⟩ := rleencResult s hroom
  cases ht.symm.trans ht'
  have hcoded : t.output.drop s.outLen.toNat = Codec.encoded s.workBytes := by
    rw [hout, ← length_output, List.drop_left]
  have hexpand : Codec.expand u.hdr.marker 7 (u.input.drop 7) = (s.workBytes, none) := by
    rw [hpayload, hcoded, hmarker]
    exact Codec.expand_encoded s.workBytes 7
  have hfits : s.workBytes.length ≤ u.params.capWork.toNat := (length_workBytes s).trans_le hwork
  obtain ⟨r, n, v, hexec⟩ := exec_rledec hcap hexpand hfits
  exact ⟨_, hexec, completedOk_refilled, contents_refilled (sp := .work) hfits⟩

end Sys2Proof.Machine

namespace Sys2Proof.Codec

/-- 43 R194: a truncated triplet is the marker in one of the last two places of the payload. -/
theorem expand_truncated {m : Byte} {pos p : Nat} {l : List Byte} (h : (expand m pos l).2 = some p) :
    pos ≤ p ∧ p < pos + l.length ∧ pos + l.length ≤ p + 2 ∧ l[p - pos]? = some m := by
  fun_induction expand m pos l with
  | case1 | case3 => cases h
  | case2 pos => cases h; simp
  | case4 pos y => cases h; simp
  | case5 pos x y hx r ih | case7 pos x c v rest hx r ih =>
    obtain ⟨hle, hlt, hlast, hmark⟩ := ih h
    have hindex : p - pos = p - (pos + 1) + 1 := by omega
    rw [hindex, List.getElem?_cons_succ]
    simp only [List.length_cons] at hlt hlast ⊢
    exact ⟨by omega, by omega, by omega, hmark⟩
  | case6 pos c v rest r ih =>
    obtain ⟨hle, hlt, hlast, hmark⟩ := ih h
    have hindex : p - pos = p - (pos + 3) + 3 := by omega
    rw [hindex]
    simp only [List.length_cons] at hlt hlast ⊢
    exact ⟨by omega, by omega, by omega, hmark⟩

end Sys2Proof.Codec

namespace Sys2Proof.Machine

/-! ## The payload forms -/

theorem coreMove_form {s : State} {c : Bool} {f : Form} {more : List Byte} (g : Grain) (hact : s.activity = .stream c)
    (hlt : s.rp.toNat < s.inLen.toNat) (hform : decodeForm s.hdr.marker (fetchForm s) = .ok (f, more)) :
    coreMove g s = exec f.toInstr s :=
  (coreMove_stream g hact).trans ((moveStream_more c (State.more_true (sp := .inp) hlt)).trans (moveForm_ok hform))

/-- Settles O10: with a form at `RP` the decoder's move is that form's (`coreMove_form`). -/
theorem stepRunsPayloadForm : Obligations.StepRunsPayloadForm := by
  intro s c i more hact hlt hdec
  obtain ⟨f, rfl, hform⟩ := decode_stream_inv hdec
  exact ⟨fun hs => (step_nil hs).trans (coreMove_form _ hact hlt hform),
    fun g rest hs => (step_core hs).trans (coreMove_form (s := { s with schedule := rest }) g hact hlt hform)⟩

theorem exec_form_ok {f : Form} {s t : State} (h : formBody f s = .ok t) : exec f.toInstr s = .next t := by
  rw [exec_form, h, Ran.settle_ok]

theorem exec_run {c v : Byte} {s : State} (hroom : s.workLen.toNat + c.toNat ≤ s.params.capWork.toNat) :
    exec (.run c v) s = .next ((stored .work (List.replicate c.toNat v) s).cursors (s.rp + 3#32) 0#8 v) := by
  obtain ⟨hbody, -⟩ := runBody_delivers c v s
  exact exec_form_ok (f := .run c v) (hbody (by rwa [List.length_replicate]))

theorem exec_lit {b : Byte} {s : State} (hroom : s.workLen.toNat < s.params.capWork.toNat) :
    exec (.lit b) s = .next ((stored .work [b] s).cursors (s.rp + 1#32) s.runLen s.curV) := by
  obtain ⟨hbody, -⟩ := litBody_delivers b s
  exact exec_form_ok (f := .lit b) (hbody hroom)

/-- Settles O41: RUN appends its bytes (`runBody_delivers`) and leaves `RUNLEN` at 0. -/
theorem runExpands : Obligations.RunExpands := by
  intro s c v hroom
  have hlen : (List.replicate c.toNat v).length = c.toNat := List.length_replicate
  refine ⟨_, exec_run hroom, ?len, rfl, fun i => ?byte, coreLeavesAlone_of_untouched rfl, sameAnalysis_of_analysisOf rfl,
    rfl, rfl, rfl, rfl, fun _ _ => rfl, rfl, nofun, fun _ => rfl, fun _ => rfl, fun _ => rfl⟩
  case len =>
    have h := toNat_len_stored (sp := .work) (s := s) (ys := List.replicate c.toNat v) (by rwa [hlen])
    rwa [hlen] at h
  case byte =>
    rw [byteAt_cursors, byteAt_stored_same, hlen]
    refine ite_congr rfl (fun hi => ?_) fun _ => rfl
    have hlt : i - s.workLen.toNat < c.toNat := by omega
    exact List.getD_replicate _ hlt

/-- Settles O42: LIT appends its byte (`litBody_delivers`). -/
theorem litCopies : Obligations.LitCopies := by
  intro s b hroom
  refine ⟨_, exec_lit hroom, toNat_len_stored (sp := .work) (ys := [b]) hroom, rfl, fun i => ?byte,
    coreLeavesAlone_of_untouched rfl, sameAnalysis_of_analysisOf rfl, rfl, rfl, rfl, rfl, fun _ _ => rfl, rfl,
    fun _ => ⟨rfl, rfl⟩, fun _ => rfl, fun _ => rfl, fun _ => rfl⟩
  case byte => exact State.byteAt_writeByte s .work s.workLen.toNat i b

/-! ## RLEDEC's end -/

/-- Settles O33: RLEDEC fills WORK with the expansion of the payload (`exec_rledec`), whose length is that of
`Codec.length_expand_le`. -/
theorem rledecResult : Obligations.RledecResult := by
  intro s ys hcap hexpand hroom
  obtain ⟨r, n, v, hexec⟩ := exec_rledec hcap hexpand hroom
  have hlen : (refilled .work ys r n v s).workLen.toNat = ys.length := toNat_len_refilled (sp := .work) hroom
  have hle := Codec.length_expand_le s.hdr.marker 7 (s.input.drop 7)
  rw [hexpand, List.length_drop, length_input, ← hlen] at hle
  exact ⟨_, hexec, completedOk_refilled, contents_refilled (sp := .work) hroom, hle, coreLeavesAlone_refilled (by decide),
    sameAnalysis_refilled, refilled_hdr, refilled_len_ne (sp' := .out) (by decide),
    sameBytesFrom_refilled (sp := .work) hroom, sameBytesFrom_refilled_ne (by decide), nofun, fun _ => rfl, fun _ => rfl,
    fun _ => rfl⟩

section
variable {sp sp' : Space} {s t : State} (h : Drift sp s t)
include h

theorem Drift.untouched_eq (hsp : sp ≠ .inp) : untouched t = untouched s := by
  obtain ⟨m, l, r, n, v, rfl, -⟩ := h
  cases sp with
  | inp => exact absurd rfl hsp
  | work | out => rfl

theorem Drift.analysisOf_eq : analysisOf t = analysisOf s := by
  obtain ⟨m, l, r, n, v, rfl, -⟩ := h
  cases sp <;> rfl

theorem Drift.hdr_eq : t.hdr = s.hdr := by
  obtain ⟨m, l, r, n, v, rfl, -⟩ := h
  cases sp <;> rfl

theorem Drift.byteAt_ne (hne : sp' ≠ sp) (i : Nat) : t.byteAt sp' i = s.byteAt sp' i := by
  obtain ⟨m, l, r, n, v, rfl, -⟩ := h
  refine State.byteAt_congr ?_ (by cases sp <;> rfl) i
  rw [buf_cursors, State.buf_setLen, State.buf_setBuf_ne _ _ _ _ hne]

theorem Drift.sameWorking : SameWorking s t true false false false := by
  obtain ⟨m, l, r, n, v, rfl, -⟩ := h
  cases sp <;> exact ⟨nofun, fun _ => rfl, fun _ => rfl, fun _ => rfl⟩

end

theorem command_raised {body : State → Ran} {s t : State} {e : ErrorKind} {info : Word}
    (h : body s.begin = .raised e info t) : command body s = .next (t.errorComplete e info) := by
  unfold command
  rw [h, Ran.finish_raised]

/-- A truncated triplet behind an expansion that fits: RLEDEC ends at its marker, with WORK and the cursors moved (43 R194). -/
theorem exec_rledec_truncated {s : State} {ys : List Byte} {p : Nat} (hcap : s.inLen.toNat ≤ s.params.capIn.toNat)
    (hexpand : Codec.expand s.hdr.marker 7 (s.input.drop 7) = (ys, some p))
    (hroom : ys.length ≤ s.params.capWork.toNat) :
    ∃ t, exec .rledec s = .next (t.errorComplete .corruptedStream (BitVec.ofNat 32 p)) ∧
      Drift .work ({ s.begin with workLen := 0#32 }.seek 7) t := by
  obtain ⟨r, n, v, hbody, -⟩ := rledec_decodes s.begin hcap
  change Codec.expand s.begin.hdr.marker 7 (s.begin.input.drop 7) = _ at hexpand
  rw [hexpand] at hbody
  obtain ⟨t, ht, hdrift⟩ := hbody ((Nat.zero_add _).trans_le hroom)
  exact ⟨t, command_raised ht, hdrift⟩

/-- Settles O34: the index is the marker's place (`Codec.expand_truncated`), and the forms before it moved only WORK and the
decoder's cursors. -/
theorem rledecTruncated : Obligations.RledecTruncated := by
  intro s ys p hcap hexpand hroom
  obtain ⟨hle, hlt, hlast, hmark⟩ := Codec.expand_truncated (congrArg Prod.snd hexpand)
  rw [payload_eq, State.length_bytes] at hlt hlast
  rw [payload_eq, State.getElem?_bytes, if_pos (by omega), Option.some.injEq, Nat.add_sub_cancel' hle] at hmark
  obtain ⟨t, hexec, hdrift⟩ := exec_rledec_truncated hcap hexpand hroom
  exact ⟨hle, by omega, by omega, hmark, _, hexec, completedWith_errorComplete _ _ t,
    coreLeavesAlone_of_untouched (hdrift.untouched_eq (by decide)), sameAnalysis_of_analysisOf hdrift.analysisOf_eq,
    hdrift.hdr_eq, fun i _ => hdrift.byteAt_ne (sp' := .out) (by decide) i, hdrift.sameWorking⟩

end Sys2Proof.Machine

namespace Sys2Proof.Machine

/-! ## A body in another shell -/

/-- The control shell of a state. -/
def State.shell (s : State) : Shell where
  busy := s.status.busy
  done := s.status.done
  err := s.status.err
  code := s.status.errCode
  info := s.errInfo
  phase := s.phase
  act := s.activity
  sched := s.schedule

section
variable {b : State → Ran} (hb : Same b)
include hb

/-- A body ends in the shell it starts in. -/
theorem Same.map_shell (s : State) : (b s).map s.shell.on = b s := (hb s.shell s).symm

theorem Same.activity_eq {s t : State} (h : b s = .ok t) : t.activity = s.activity := by
  have hmap := hb.map_shell s
  rw [h] at hmap
  exact (congrArg State.activity (Ran.ok.inj hmap)).symm

/-- A change of the shell before a body may as well come after it. -/
theorem Same.reshell (g : Shell → Shell) (s : State) :
    b ((g s.shell).on s) = (b s).map fun t => (g t.shell).on t := by
  rw [hb, ← hb.map_shell s]
  cases b s <;> rfl

theorem Same.scheduled (ms : List Move) (s : State) :
    b { s with schedule := ms } = (b s).map fun t => { t with schedule := ms } :=
  hb.reshell (fun c => { c with sched := ms }) s

theorem Same.standing (a : Activity) (s : State) :
    b { s with activity := a } = (b s).map fun t => { t with activity := a } :=
  hb.reshell (fun c => { c with act := a }) s

end

theorem Ran.andThen_ok (r : Ran) : r.andThen .ok = r := by cases r <;> rfl

theorem Ran.finish_map_activity (a : Activity) (r : Ran) :
    (r.map fun t => { t with activity := a }).finish = r.finish := by cases r <;> rfl

theorem Ran.finish_map_schedule (ms : List Move) (r : Ran) :
    (r.map fun t => { t with schedule := ms }).finish = { r.finish with schedule := ms } := by cases r <;> rfl

/-- The state after a stretch of a running command behind which the core stands at `a`. -/
def Ran.resume (a : Activity) : Ran → State
  | .ok s => { s with activity := a }
  | .raised e info s => s.errorComplete e info

theorem goOn_eq (a : Activity) (r : Ran) : goOn a r = .next (r.resume a) := by cases r <;> rfl

theorem Ran.resume_map_activity (a a' : Activity) (r : Ran) :
    (r.map fun t => { t with activity := a }).resume a' = r.resume a' := by cases r <;> rfl

/-! ## The decoding commands form by form -/

/-- The core takes `s` to `t` in one move of grain form, whatever is scheduled after it. -/
def FormMove (s t : State) : Prop :=
  ∀ ms, coreMove .form { s with schedule := ms } = .next { t with schedule := ms }

/-- Some number of moves of grain form. -/
abbrev FormMoves : State → State → Prop := Relation.ReflTransGen FormMove

/-- The moves can be scheduled in advance. -/
theorem FormMoves.run {s t : State} (h : FormMoves s t) :
    ∃ n, Host.Core.run core n { s with schedule := List.replicate n (Move.core .form) } = .next { t with schedule := [] } := by
  induction h using Relation.ReflTransGen.head_induction_on with
  | refl => exact ⟨0, run_zero⟩
  | @head s u hmove _ ih =>
    obtain ⟨n, hrun⟩ := ih
    have hstep : step { s with schedule := List.replicate (n + 1) (.core .form) } =
        .next { u with schedule := List.replicate n (.core .form) } := (step_core rfl).trans (hmove _)
    exact ⟨n + 1, (run_succ n hstep).trans hrun⟩

section
variable {s : State}

/-- A move that is a body and goes on behind it. -/
theorem formMove_goOn {b : State → Ran} (hb : Same b) {a : Activity} {x : State}
    (hmove : ∀ ms, coreMove .form { s with schedule := ms } = goOn a (b { x with schedule := ms })) :
    FormMove s ((b x).resume a) := by
  intro ms
  rw [hmove, hb.scheduled, goOn_eq]
  cases b x <;> rfl

/-! ### The form loop -/

theorem moveForm_eq (s : State) : moveForm s = .next (rledecIter s).settle := by
  unfold rledecIter
  cases hd : decodeForm s.hdr.marker (fetchForm s) with
  | error e => exact moveForm_error hd
  | ok d => exact (moveForm_ok hd).trans (exec_form d.1 s)

theorem coreMove_iter {c : Bool} (g : Grain) (hact : s.activity = .stream c) (hmore : s.more .inp = true) :
    coreMove g s = .next (rledecIter s).settle :=
  (coreMove_stream g hact).trans ((moveStream_more c hmore).trans (moveForm_eq s))

theorem formMove_iter {c : Bool} (hact : s.activity = .stream c) (hmore : s.more .inp = true) :
    FormMove s (rledecIter s).settle := by
  intro ms
  rw [coreMove_iter (s := { s with schedule := ms }) .form hact hmore, same_rledecIter.scheduled]
  cases rledecIter s <;> rfl

/-- An iteration that does not raise brings `RP` closer to `IN_LEN` (`moveForm_progress`). -/
theorem rledecIter_ok {c : Bool} {u : State} (hact : s.activity = .stream c) (h : rledecIter s = .ok u) :
    u.activity = .stream c ∧ u.inLen.toNat - u.rp.toNat < s.inLen.toNat - s.rp.toNat := by
  have hstream : u.activity = .stream c := (same_rledecIter.activity_eq h).trans hact
  obtain ⟨t, ht, hcase⟩ := moveForm_progress s
  rw [moveForm_eq, h] at ht
  cases ht
  obtain ⟨hidle, -⟩ | ⟨-, -, hlt⟩ := hcase
  · cases hstream.symm.trans hidle
  · exact ⟨hstream, hlt⟩

/-- What a command does after its form loop: RLEDEC nothing more, DECOMPRESS its third stage (45 R240). -/
def afterStream (c : Bool) (s : State) : Ran := if c then stage 3#4 unsubstBody s else .ok s

theorem afterStream_false : afterStream false = .ok := rfl

theorem afterStream_finish_standing (c : Bool) (a : Activity) (s : State) :
    (afterStream c { s with activity := a }).finish = (afterStream c s).finish := by
  cases c with
  | false => rfl
  | true =>
    exact (congrArg Ran.finish (same_unsubst.standing a { s with phase := 3#4 })).trans (Ran.finish_map_activity a _)

theorem coreMove_streamEnd {c : Bool} (g : Grain) (hact : s.activity = .stream c) (hmore : s.more .inp = false) :
    coreMove g s = .next (afterStream c s).finish := by
  rw [coreMove_stream g hact, moveStream_end c hmore]
  cases c <;> rfl

theorem afterStream_finish_scheduled (c : Bool) (ms : List Move) (s : State) :
    (afterStream c { s with schedule := ms }).finish = { (afterStream c s).finish with schedule := ms } := by
  cases c with
  | false => rfl
  | true =>
    exact (congrArg Ran.finish (same_unsubst.scheduled ms { s with phase := 3#4 })).trans (Ran.finish_map_schedule ms _)

theorem formMove_streamEnd {c : Bool} (hact : s.activity = .stream c) (hmore : s.more .inp = false) :
    FormMove s (afterStream c s).finish := fun ms =>
  (coreMove_streamEnd (s := { s with schedule := ms }) .form hact hmore).trans
    (congrArg _ (afterStream_finish_scheduled c ms s))

/-- RLEDEC's loop is a move for each form, and one that finds no more of them (43 R191, R200). -/
theorem formMoves_loop {c : Bool} : ∀ (fuel : Nat) (s : State), s.activity = .stream c →
    s.inLen.toNat - s.rp.toNat ≤ fuel →
    FormMoves s ((whileLoop (fun s => s.more .inp) rledecIter fuel s).andThen (afterStream c)).finish := by
  intro fuel
  induction fuel with
  | zero =>
    intro s hact hfuel
    exact .single (formMove_streamEnd hact (State.more_false (sp := .inp) (by show s.inLen.toNat ≤ _; omega)))
  | succ fuel ih =>
    intro s hact hfuel
    cases hmore : s.more .inp with
    | false =>
      rw [whileLoop_false _ hmore]
      exact .single (formMove_streamEnd hact hmore)
    | true =>
      have hfirst := formMove_iter hact hmore
      rw [whileLoop_true _ hmore]
      cases hiter : rledecIter s with
      | raised e info u => rw [hiter] at hfirst; exact .single hfirst
      | ok u =>
        rw [hiter] at hfirst
        obtain ⟨hstream, hlt⟩ := rledecIter_ok hact hiter
        exact .head hfirst (ih u hstream (by omega))

/-! ### The commands -/

/-- RLEDEC as a stage, from its form loop on. -/
theorem formMoves_rledec (c : Bool) (s : State) :
    FormMoves ((rledecEnter s).resume (.stream c)) ((rledecBody s).andThen (afterStream c)).finish := by
  unfold rledecBody
  cases rledecEnter s with
  | raised e info u => exact .refl
  | ok u =>
    have hloop : Same (whileLoop (fun s => s.more .inp) rledecIter u.inLen.toNat) :=
      same_while (fun _ _ => rfl) same_rledecIter _
    have hmoves := formMoves_loop (c := c) u.inLen.toNat { u with activity := .stream c } rfl (Nat.sub_le _ _)
    rw [hloop.standing] at hmoves
    rw [Ran.ok_andThen]
    cases hrun : whileLoop (fun s => s.more .inp) rledecIter u.inLen.toNat u with
    | raised e info v => rw [hrun] at hmoves; exact hmoves
    | ok v =>
      rw [hrun] at hmoves
      exact (afterStream_finish_standing c (.stream c) v) ▸ hmoves

/-- What a command does after its header record: PARSE nothing more, DECOMPRESS its other stages (45 R240). -/
def afterParse (c : Bool) (s : State) : Ran :=
  if c then (stage 2#4 rledecBody s).andThen (afterStream true) else .ok s

theorem afterParse_false : afterParse false = .ok := rfl

theorem formMoves_loaded (c : Bool) (s : State) :
    FormMoves { s with activity := .loaded c } (afterParse c s).finish := by
  cases c with
  | false => exact .single fun ms => coreMove_loaded .form (c := false) rfl
  | true =>
    refine .head ?_ (formMoves_rledec true { s with phase := 2#4 })
    have hmove := formMove_goOn (s := { s with activity := .loaded true }) same_rledecEnter (a := .stream true)
      (x := { s with phase := 2#4, activity := .loaded true }) fun ms => coreMove_loaded .form (c := true) rfl
    rw [same_rledecEnter.standing (.loaded true) { s with phase := 2#4 }, Ran.resume_map_activity] at hmove
    exact hmove

theorem moveHeader_eq (c : Bool) (s : State) : moveHeader c s = goOn (.loaded c) (parseBody s) := by
  cases hp : parseTests s with
  | error e => rw [moveHeader_error hp, parseBody_error hp]; rfl
  | ok h => rw [moveHeader_ok hp, parseBody_ok hp]; rfl

theorem formMoves_header (c : Bool) (s : State) :
    FormMoves { s with activity := .header c } ((parseBody s).andThen (afterParse c)).finish := by
  have hmove := formMove_goOn (s := { s with activity := .header c }) same_parse (a := .loaded c)
    (x := { s with activity := .header c }) fun ms => (coreMove_header .form rfl).trans (moveHeader_eq c _)
  rw [same_parse.standing, Ran.resume_map_activity] at hmove
  refine .head hmove ?_
  cases parseBody s with
  | raised e info u => exact .refl
  | ok u => exact formMoves_loaded c u

section
variable {w : Word} (hact : s.activity = .started w)
include hact

theorem coreMove_enter {i : Instr} (hi : decodeCommand w = .ok i) (ms : List Move) :
    coreMove .form { s with schedule := ms } = enterByForm i { s with schedule := ms } := by
  rw [coreMove_started (s := { s with schedule := ms }) .form hact, moveStarted_form hi]

theorem formMoves_execParse (hi : decodeCommand w = .ok .parse) : FormMoves s (parseBody s.begin).finish := by
  have hmove : FormMove s (inProgress (.header false) s) := coreMove_enter hact hi
  have hmoves := formMoves_header false s.begin
  rw [afterParse_false, Ran.andThen_ok] at hmoves
  exact .head hmove hmoves

theorem formMoves_execRledec (hi : decodeCommand w = .ok .rledec) : FormMoves s (rledecBody s.begin).finish := by
  have hmove : FormMove s ((rledecEnter s.begin).resume (.stream false)) :=
    formMove_goOn same_rledecEnter (x := s.begin) (coreMove_enter hact hi)
  have hmoves := formMoves_rledec false s.begin
  rw [afterStream_false, Ran.andThen_ok] at hmoves
  exact .head hmove hmoves

theorem formMoves_execDecompress (hi : decodeCommand w = .ok .decompress) : FormMoves s (decompressBody s.begin).finish := by
  have hmove : FormMove s (inProgress (.header true) { s with phase := 1#4 }) := coreMove_enter hact hi
  unfold decompressBody
  rw [Ran.andThen_assoc]
  exact .head hmove (formMoves_header true { s.begin with phase := 1#4 })

end

end

theorem schedule_of_exec {s t : State} {w : Word} {i : Instr} (hact : s.activity = .started w)
    (hi : decodeCommand w = .ok i) (h : exec i s = .next t) : t.schedule = s.schedule :=
  (coreMove_leavesAlone ((coreMove_started .whole hact).trans ((moveStarted_whole hi).trans h))).schedule

/-- Settles O53: the loop of RLEDEC is a move for each form (`formMoves_loop`), and the stages around it are a move each. -/
theorem formByFormAgrees : Obligations.FormByFormAgrees := by
  intro s w i hmem hact hdec hs
  have hi := decode_cmd_ok.1 hdec
  obtain ⟨t, ht, hmoves⟩ : ∃ t, exec i s = .next t ∧ FormMoves s t := by
    simp only [List.mem_cons, List.not_mem_nil, or_false] at hmem
    obtain rfl | rfl | rfl := hmem
    · exact ⟨_, rfl, formMoves_execParse hact hi⟩
    · exact ⟨_, rfl, formMoves_execRledec hact hi⟩
    · exact ⟨_, rfl, formMoves_execDecompress hact hi⟩
  obtain ⟨n, hrun⟩ := hmoves.run
  have hsched : { t with schedule := [] } = t := by rw [← (schedule_of_exec hact hi ht).trans hs]
  exact ⟨n, t, ht, hrun.trans (congrArg _ hsched)⟩

end Sys2Proof.Machine

namespace Sys2Proof.Machine

/-! ## The header record as an instruction -/

/-- Settles O40: `exec` of the record is `loadHeader` (`exec_hdr`). -/
theorem hdrLoads : Obligations.HdrLoads := fun s f => exec_hdr f s

/-- PARSE's tests pass on a record the header decoder accepts (44 R213). -/
theorem parseTests_of_decodeHeader {s : State} {h : Hdr} {more : List Byte} (hcap : s.inLen.toNat ≤ s.params.capIn.toNat)
    (hdec : decodeHeader (fetchHeader s) = .ok (h, more)) : parseTests s = .ok h := by
  rw [parseTests_eq hcap, hdec]

theorem coreMove_record {s : State} {c : Bool} {h : Hdr} {more : List Byte} (g : Grain) (hact : s.activity = .header c)
    (hcap : s.inLen.toNat ≤ s.params.capIn.toNat) (hdec : decodeHeader (fetchHeader s) = .ok (h, more)) :
    coreMove g s = exec (.hdr h) { s with activity := .loaded c } :=
  (coreMove_header g hact).trans (moveHeader_ok (parseTests_of_decodeHeader hcap hdec))

/-- Settles O9: with a record at the start of IN the move of a running PARSE is that record's (`coreMove_record`). -/
theorem stepRunsHeaderRecord : Obligations.StepRunsHeaderRecord := by
  intro s c i more hact hcap hdec
  obtain ⟨h, rfl, hrecord⟩ := decode_header_inv hdec
  exact ⟨fun hs => (step_nil hs).trans (coreMove_record _ hact hcap hrecord),
    fun g rest hs => (step_core hs).trans (coreMove_record (s := { s with schedule := rest }) g hact hcap hrecord)⟩

/-! ## FRAME -/

/-- FRAME is a refill of OUT with the record, by a command that moves no cursor (44 R210). -/
theorem exec_frame (s : State) :
    exec .frame s = .next (refilled .out (headerBytes (framedHeader s)) s.rp s.runLen s.curV s) :=
  command_ok (frameBody_eq s.begin)

/-- A refill writes no byte past what it appends, whatever the capacity. -/
theorem sameBytesFrom_refilled_length {sp : Space} {ys : List Byte} {r : Word} {n v : Byte} {s : State} :
    SameBytesFrom sp ys.length s (refilled sp ys r n v s) := by
  intro i hi
  rw [byteAt_refilled, byteAt_stored_same, State.len_setLen_same, if_neg (by simpa using hi), byteAt_begin_setLen]

theorem framed_output (s : State) {r : Word} {n v : Byte} :
    (refilled .out (headerBytes (framedHeader s)) r n v s).output = headerBytes (framedHeader s) :=
  bytes_refilled

/-- Settles O36: FRAME is a refill of OUT with the record of `framedHeader` (`exec_frame`). -/
theorem frameResult : Obligations.FrameResult := fun s =>
  ⟨_, exec_frame s, completedOk_refilled, rfl, framed_output s, coreLeavesAlone_refilled (by decide), sameAnalysis_refilled,
    refilled_hdr, refilled_len_ne (sp' := .work) (by decide),
    sameBytesFrom_refilled_length (ys := headerBytes (framedHeader s)), sameBytesFrom_refilled_ne (by decide), rfl,
    sameWorking_refilled⟩

/-! ## PARSE -/

/-- PARSE's tests look at IN, `IN_LEN` and the capacity, none of which the start of a command writes. -/
theorem parseTests_begin (s : State) : parseTests s.begin = parseTests s := by
  obtain h | h := Nat.lt_or_ge s.params.capIn.toNat s.inLen.toNat
  · unfold parseTests
    rw [checkInLen_raised h, checkInLen_raised (s := s.begin) h]
  · rw [parseTests_eq h, parseTests_eq (s := s.begin) h]
    rfl

theorem exec_parse_ok {s : State} {h : Hdr} (hp : parseTests s = .ok h) :
    exec .parse s = .next (loadHeader h s.begin).complete :=
  command_ok (parseBody_ok ((parseTests_begin s).trans hp))

theorem exec_parse_error {s : State} {e : ErrorKind} {info : Word} (hp : parseTests s = .error (e, info)) :
    exec .parse s = .next (s.begin.errorComplete e info) :=
  command_raised (parseBody_error ((parseTests_begin s).trans hp))

/-- What PARSE leaves unchanged on every path (44 R213; `RP` by log 6). -/
theorem exec_parse_keeps (s : State) : ∃ t, exec .parse s = .next t ∧ CoreLeavesAlone s t ∧ SameAnalysis s t ∧
    SameWorking s t false false false false ∧ t.rp = s.rp := by
  cases hp : parseTests s with
  | ok h =>
    exact ⟨_, exec_parse_ok hp, coreLeavesAlone_of_untouched rfl, sameAnalysis_of_analysisOf rfl,
      ⟨fun _ => ⟨rfl, rfl⟩, fun _ => rfl, fun _ => rfl, fun _ => rfl⟩, rfl⟩
  | error _ =>
    exact ⟨_, exec_parse_error hp, coreLeavesAlone_of_untouched rfl, sameAnalysis_of_analysisOf rfl,
      ⟨fun _ => ⟨rfl, rfl⟩, fun _ => rfl, fun _ => rfl, fun _ => rfl⟩, rfl⟩

/-- Settles O37: the four cases of PARSE's tests (`parseTests_cases`), with what every path keeps (`exec_parse_keeps`). -/
theorem parseOutcome : Obligations.ParseOutcome := by
  intro s
  obtain ⟨t, ht, halone, hanalysis, hworking, hrp⟩ := exec_parse_keeps s
  refine ⟨t, ht, halone, hanalysis, hworking, hrp, ?_⟩
  have hcases := parseTests_cases s
  simp only [Config.magic0, Config.magic1, Config.magic2] at hcases
  obtain ⟨hcap, hp⟩ | ⟨hcap, hmagic, hp⟩ | ⟨hcap, hmagic, hlen, hp⟩ | ⟨hcap, hmagic, hlen, hp⟩ := hcases
  · cases ht.symm.trans (exec_parse_error hp)
    rw [if_pos hcap]
    exact ⟨completedWith_errorComplete .., rfl⟩
  · cases ht.symm.trans (exec_parse_error hp)
    rw [if_neg (Nat.not_lt.2 hcap), if_pos hmagic]
    exact ⟨completedWith_errorComplete .., rfl⟩
  · cases ht.symm.trans (exec_parse_error hp)
    rw [if_neg (Nat.not_lt.2 hcap), if_neg (not_not.2 hmagic), if_pos hlen]
    exact ⟨completedWith_errorComplete .., rfl⟩
  · cases ht.symm.trans (exec_parse_ok hp)
    rw [if_neg (Nat.not_lt.2 hcap), if_neg (not_not.2 hmagic), if_neg (Nat.not_lt.2 hlen)]
    exact ⟨⟨rfl, rfl, rfl, rfl, rfl, rfl⟩, rfl, rfl, rfl, fun _ _ => rfl, fun _ _ => rfl⟩

theorem take_three_input {s : State} (hlen : 3 ≤ s.inLen.toNat) :
    s.input.take 3 = [s.byteAt .inp 0, s.byteAt .inp 1, s.byteAt .inp 2] := by
  rw [State.input, State.take_bytes, Nat.min_eq_left hlen]
  rfl

/-- Settles O38: the last branch of `parseOutcome`, with `HDR` read as a word (`toNat_hdrWord`). -/
theorem parseLoads : Obligations.ParseLoads := by
  intro s hcap hlen h0 h1 h2
  have hmagic : s.input.take 3 = [0x50#8, 0x58#8, 0x4C#8] := by rw [take_three_input (by omega), h0, h1, h2]
  obtain ⟨t, ht, halone, hanalysis, hworking, hrp, hend⟩ := parseOutcome s
  rw [if_neg (Nat.not_lt.2 hcap), if_neg (not_not.2 hmagic), if_neg (Nat.not_lt.2 hlen)] at hend
  obtain ⟨hok, hhdr, hwork, hout, hworkBytes, houtBytes⟩ := hend
  refine ⟨t, ht, hok, ?word, halone, hanalysis, hwork, hout, hworkBytes, houtBytes, hworking, hrp⟩
  case word =>
    rw [hhdr]
    exact toNat_hdrWord (fileFields s)

theorem fetchHeader_eq_take (s : State) : fetchHeader s = s.input.take 7 := (State.take_bytes s .inp 0 _ 7).symm

/-- Settles O39: FRAME wrote the record of `framedHeader`, which the header decoder reads back (`decodeHeader_headerBytes`). -/
theorem parseUndoesFrame : Obligations.ParseUndoesFrame := by
  intro s t u ht _ hcap hrecord
  cases ht.symm.trans (exec_frame s)
  have hdec : decodeHeader (fetchHeader u) = .ok (framedHeader s, []) := by
    rw [fetchHeader_eq_take, hrecord, framed_output]
    exact decodeHeader_headerBytes (framedHeader s) []
  exact ⟨_, exec_parse_ok (parseTests_of_decodeHeader hcap hdec), ⟨rfl, rfl, rfl, rfl, rfl, rfl⟩, rfl⟩

end Sys2Proof.Machine

namespace Sys2Proof.Machine

/-! ## A composite command and its units -/

/-- The stages of a composite command, each with its `PHASE`; a raise in one ends them all (45 R230, R240). -/
def runStages : List (BitVec 4 × (State → Ran)) → State → Ran
  | [], s => .ok s
  | (p, body) :: rest, s => (stage p body s).andThen (runStages rest)

theorem compressBody_eq (s : State) :
    compressBody s =
      runStages [(1#4, analyzeBody), (2#4, selectBody), (3#4, substBody), (4#4, frameBody), (5#4, rleencBody)] s := by
  rw [← Ran.andThen_ok (compressBody s)]
  simp only [compressBody, Ran.andThen_assoc]
  rfl

theorem decompressBody_eq (s : State) :
    decompressBody s = runStages [(1#4, parseBody), (2#4, rledecBody), (3#4, unsubstBody)] s := by
  rw [← Ran.andThen_ok (decompressBody s)]
  simp only [decompressBody, Ran.andThen_assoc]
  rfl

/-- The unit command `i` is the command with the body of the stage, and that body does the same in every shell (45 R246). -/
def IsUnitOf (i : Instr) (st : BitVec 4 × (State → Ran)) : Prop := (∀ s, exec i s = command st.2 s) ∧ Same st.2

/-- A body that ends normally does so in the shell it starts in. -/
theorem Same.shell_on {b : State → Ran} (hb : Same b) {s t : State} (h : b s = .ok t) : s.shell.on t = t := by
  have hshell := hb.map_shell s
  rw [h] at hshell
  exact Ran.ok.inj hshell

/-- A unit that ends normally leaves ERR 0, and for the next unit's start the state the next stage finds, but for `PHASE` and
the activity. -/
theorem Same.complete_begin {b : State → Ran} (hb : Same b) {s t : State} (h : b s.begin = .ok t) :
    t.complete.status.err = false ∧ t.complete.begin = { t with activity := .idle } := by
  rw [← hb.shell_on h]
  exact ⟨rfl, rfl⟩

/-- Units issued one after the other, and the same stages behind one start, end alike but for `PHASE` (45 R246): in step
with the units, the composite command stands in the state of a unit's start. -/
theorem runStages_of_issueUnits {is : List Instr} {stages : List (BitVec 4 × (State → Ran))}
    (h : List.Forall₂ IsUnitOf is stages) : ∀ (s t : State) (p : BitVec 4) (a : Activity),
    (is = [] → s.begin.complete = s) → issueUnits is s = .next t →
    ∃ q, (runStages stages { s.begin with phase := p, activity := a }).finish = { t with phase := q } := by
  induction h with
  | nil =>
    intro s t p a hs ht
    obtain rfl : s = t := by cases ht; rfl
    refine ⟨p, ?_⟩
    conv_rhs => rw [← hs rfl]
    rfl
  | @cons i st is stages hi _ ih =>
    intro s t p a _ ht
    obtain ⟨q, b⟩ := st
    obtain ⟨hexec, hsame⟩ : (∀ s, exec i s = command b s) ∧ Same b := hi
    have hstage : stage q b { s.begin with phase := p, activity := a } =
        (b s.begin).map fun t => { t with phase := q, activity := a } :=
      hsame.reshell (fun c => { c with phase := q, act := a }) s.begin
    rw [issueUnits, hexec, command] at ht
    rw [runStages, hstage]
    cases hb : b s.begin with
    | ok u =>
      rw [hb] at ht
      obtain ⟨herr, hbegin⟩ := hsame.complete_begin hb
      simp only [Ran.finish_ok, herr, Bool.false_eq_true, if_false] at ht
      obtain ⟨q', hq'⟩ := ih u.complete t q a (fun _ => by rw [hbegin]; rfl) ht
      rw [hbegin] at hq'
      exact ⟨q', hq'⟩
    | raised e info u =>
      rw [hb] at ht
      cases ht
      exact ⟨q, rfl⟩

theorem command_of_issueUnits {body : State → Ran} {i : Instr} {is : List Instr}
    {stages : List (BitVec 4 × (State → Ran))} (hbody : ∀ s, body s = runStages stages s)
    (h : List.Forall₂ IsUnitOf (i :: is) stages) {s t : State} (ht : issueUnits (i :: is) s = .next t) :
    ∃ p, command body s = .next { t with phase := p } := by
  obtain ⟨p, hp⟩ := runStages_of_issueUnits h s t s.phase s.activity nofun ht
  exact ⟨p, congrArg Host.Outcome.next ((congrArg Ran.finish (hbody s.begin)).trans hp)⟩

/-- Settles O48: each of the five units is the command whose body is the stage's (`command_of_issueUnits`). -/
theorem compressIsItsUnits : Obligations.CompressIsItsUnits := fun _ _ =>
  command_of_issueUnits compressBody_eq <|
    .cons ⟨fun _ => rfl, same_analyze⟩ <| .cons ⟨fun _ => rfl, same_select⟩ <| .cons ⟨fun _ => rfl, same_subst⟩ <|
      .cons ⟨fun _ => rfl, same_frame⟩ <| .cons ⟨fun _ => rfl, same_rleenc⟩ .nil

/-- Settles O52: each of the three units is the command whose body is the stage's (`command_of_issueUnits`). -/
theorem decompressIsItsUnits : Obligations.DecompressIsItsUnits := fun _ _ =>
  command_of_issueUnits decompressBody_eq <|
    .cons ⟨fun _ => rfl, same_parse⟩ <| .cons ⟨fun _ => rfl, same_rledec⟩ <| .cons ⟨fun _ => rfl, same_unsubst⟩ .nil

section
variable {i : Instr} {rest : List Instr} {s t : State}

/-- After a normal completion the host issues the next unit. -/
theorem issueUnits_of_completedOk (h : exec i s = .next t) (hok : CompletedOk t) :
    issueUnits (i :: rest) s = issueUnits rest t := by
  obtain ⟨-, -, herr, -⟩ := hok
  simp [issueUnits, h, herr]

/-- After an error completion the host stops. -/
theorem issueUnits_of_completedWith {e : ErrorKind} {info : Word} (h : exec i s = .next t) (he : CompletedWith e info t) :
    issueUnits (i :: rest) s = .next t := by
  obtain ⟨-, -, herr, -⟩ := he
  simp [issueUnits, h, herr]

end

/-! ## What two commands in a row keep -/

section
variable {s t u : State}

theorem CoreLeavesAlone.trans (h : CoreLeavesAlone s t) (h' : CoreLeavesAlone t u) : CoreLeavesAlone s u where
  inLen := h'.inLen.trans h.inLen
  inBytes i := (h'.inBytes i).trans (h.inBytes i)
  params := h'.params.trans h.params
  schedule := h'.schedule.trans h.schedule
  readData := h'.readData.trans h.readData
  freeCount := h'.freeCount.trans h.freeCount
  epoch := h'.epoch.trans h.epoch

theorem SameAnalysis.trans (h : SameAnalysis s t) (h' : SameAnalysis t u) : SameAnalysis s u where
  pair := h'.pair.trans h.pair
  bestCount := h'.bestCount.trans h.bestCount
  pairValid := h'.pairValid.trans h.pairValid
  hist k := (h'.hist k).trans (h.hist k)
  used v := (h'.used v).trans (h.used v)

theorem SameBytesFrom.trans {sp : Space} {m n k : Nat} (h : SameBytesFrom sp m s t) (h' : SameBytesFrom sp n t u)
    (hm : m ≤ k) (hn : n ≤ k) : SameBytesFrom sp k s u := fun i hi =>
  (h' i (hn.trans hi)).trans (h i (hm.trans hi))

theorem CoreLeavesAlone.input_eq (h : CoreLeavesAlone s t) : t.input = s.input := by
  unfold State.input
  rw [h.inLen]
  exact State.bytes_congr fun i _ _ => h.inBytes i

theorem workBytes_eq (hlen : t.workLen = s.workLen) (h : SameBytesFrom .work 0 s t) : t.workBytes = s.workBytes := by
  unfold State.workBytes
  rw [hlen]
  exact State.bytes_congr fun i _ _ => h i (Nat.zero_le i)

/-- `PHASE` is outside what a command must keep (10 R44). -/
theorem CoreLeavesAlone.setPhase (h : CoreLeavesAlone s t) (p : BitVec 4) : CoreLeavesAlone s { t with phase := p } :=
  h.trans (coreLeavesAlone_of_untouched rfl)

theorem SameAnalysis.setPhase (h : SameAnalysis s t) (p : BitVec 4) : SameAnalysis s { t with phase := p } :=
  h.trans (sameAnalysis_of_analysisOf rfl)

end

/-! ## Units that find their buffer full -/

theorem exec_subst_overflow {s : State} (hcap : s.inLen.toNat ≤ s.params.capIn.toNat)
    (hover : s.params.capWork.toNat < (Codec.substituted s.hdr.sub s.hdr.orig1 s.hdr.orig2 s.input).length) :
    ∃ t : State, exec .subst s = .next (t.errorComplete .capacityExceeded 0#32) := by
  obtain ⟨-, hraise⟩ := subst_delivers s.begin hcap
  obtain ⟨t, ht, -⟩ := hraise (Nat.zero_le _) (hover.trans_eq (Nat.zero_add _).symm)
  exact ⟨t, command_raised ht⟩

theorem exec_rleenc_overflow {s : State} (hlen : s.outLen.toNat ≤ s.params.capOut.toNat)
    (hover : s.params.capOut.toNat < s.outLen.toNat + (Codec.encoded s.workBytes).length) :
    ∃ t : State, exec .rleenc s = .next (t.errorComplete .capacityExceeded 0#32) := by
  obtain ⟨_, _, -, hraise⟩ := rleenc_delivers s.begin
  obtain ⟨t, ht, -⟩ := hraise hlen hover
  exact ⟨t, command_raised ht⟩

theorem exec_rledec_overflow {s : State} (hcap : s.inLen.toNat ≤ s.params.capIn.toNat)
    (hover : s.params.capWork.toNat < (Codec.expand s.hdr.marker 7 (s.input.drop 7)).1.length) :
    ∃ t, exec .rledec s = .next (t.errorComplete .capacityExceeded 0#32) ∧
      Drift .work ((s.begin.setLen .work 0#32).seek 7) t := by
  obtain ⟨_, _, _, -, hraise⟩ := rledec_decodes s.begin hcap
  obtain ⟨t, ht, hdrift⟩ := hraise (Nat.zero_le _) (hover.trans_eq (Nat.zero_add _).symm)
  exact ⟨t, command_raised ht, hdrift⟩

theorem exec_unsubst_overflow {s : State}
    (hover : s.params.capOut.toNat < (Codec.restored s.hdr.sub s.hdr.orig1 s.hdr.orig2 s.workBytes).length) :
    ∃ t, exec .unsubst s = .next (t.errorComplete .capacityExceeded 0#32) ∧
      Drift .out ((s.begin.setLen .out 0#32).seek 0) t := by
  obtain ⟨-, hraise⟩ := unsubst_delivers s.begin
  obtain ⟨t, ht, hdrift⟩ := hraise (Nat.zero_le _) (hover.trans_eq (Nat.zero_add _).symm)
  exact ⟨t, command_raised ht, hdrift⟩

/-! ## DECOMPRESS -/

/-- What every unit of DECOMPRESS keeps. -/
structure DecoderKeeps (s t : State) : Prop where
  alone : CoreLeavesAlone s t
  analysis : SameAnalysis s t
  prev : t.prev = s.prev
  scan : t.scan = s.scan

theorem DecoderKeeps.trans {s t u : State} (h : DecoderKeeps s t) (h' : DecoderKeeps t u) : DecoderKeeps s u where
  alone := h.alone.trans h'.alone
  analysis := h.analysis.trans h'.analysis
  prev := h'.prev.trans h.prev
  scan := h'.scan.trans h.scan

/-- What a decoding unit that fills the buffer `sp` keeps, completed or in error. -/
structure FillsOnly (sp : Space) (s t : State) : Prop extends DecoderKeeps s t where
  hdr : t.hdr = s.hdr
  others : ∀ sp', sp' ≠ sp → SameBytesFrom sp' 0 s t

section
variable {sp : Space} {s : State} (hsp : sp ≠ .inp)
include hsp

theorem fillsOnly_refilled {ys : List Byte} {r : Word} {n v : Byte} : FillsOnly sp s (refilled sp ys r n v s) where
  alone := coreLeavesAlone_refilled hsp
  analysis := sameAnalysis_refilled
  prev := by cases sp <;> rfl
  scan := by cases sp <;> rfl
  hdr := refilled_hdr
  others _ hne := sameBytesFrom_refilled_ne hne

theorem Drift.fillsOnly {t : State} {k : Nat} (h : Drift sp ((s.begin.setLen sp 0#32).seek k) t) (e : ErrorKind)
    (info : Word) : FillsOnly sp s (t.errorComplete e info) := by
  obtain ⟨-, hprev, hscan, -⟩ := h.sameWorking
  have huntouched := h.untouched_eq hsp
  have hanalysis := h.analysisOf_eq
  have hhdr := h.hdr_eq
  have hbytes := fun sp' hne i => h.byteAt_ne (sp' := sp') hne i
  cases sp with
  | inp => exact absurd rfl hsp
  | work | out =>
    exact ⟨⟨coreLeavesAlone_of_untouched huntouched, sameAnalysis_of_analysisOf hanalysis, hprev rfl, hscan rfl⟩, hhdr,
      fun sp' hne i _ => (hbytes sp' hne i).trans (byteAt_begin_setLen 0#32 i)⟩

end

theorem fields_of_parseTests {s : State} {h : Hdr} (hp : parseTests s = .ok h) :
    s.inLen.toNat ≤ s.params.capIn.toNat ∧ s.input.take 3 = [0x50#8, 0x58#8, 0x4C#8] ∧ 7 ≤ s.inLen.toNat ∧
      h = fileFields s := by
  obtain ⟨-, hp'⟩ | ⟨-, -, hp'⟩ | ⟨-, -, -, hp'⟩ | ⟨hcap, hmagic, hlen, hp'⟩ := parseTests_cases s <;>
    cases hp.symm.trans hp'
  exact ⟨hcap, hmagic, hlen, rfl⟩

/-- How RLEDEC ends when `ys` is what the payload expands to, up to a truncated triplet at `e` if there is one (43 R194;
60 R257). -/
theorem rledec_outcome {s : State} {ys : List Byte} {e : Option Nat} (hcap : s.inLen.toNat ≤ s.params.capIn.toNat)
    (hexpand : Codec.expand s.hdr.marker 7 (s.input.drop 7) = (ys, e)) :
    ∃ t, exec .rledec s = .next t ∧ FillsOnly .work s t ∧
      if s.params.capWork.toNat < ys.length then CompletedWith .capacityExceeded 0#32 t
      else match e with
        | some p => CompletedWith .corruptedStream (BitVec.ofNat 32 p) t
        | none => CompletedOk t ∧ t.workBytes = ys ∧ SameBytesFrom .work t.workLen.toNat s t := by
  split
  next hover =>
    obtain ⟨t, ht, hdrift⟩ := exec_rledec_overflow hcap (by rwa [hexpand])
    exact ⟨_, ht, hdrift.fillsOnly (by decide) _ _, completedWith_errorComplete ..⟩
  next hroom =>
    have hroom := Nat.le_of_not_lt hroom
    cases e with
    | some p =>
      obtain ⟨t, ht, hdrift⟩ := exec_rledec_truncated hcap hexpand hroom
      exact ⟨_, ht, hdrift.fillsOnly (by decide) _ _, completedWith_errorComplete ..⟩
    | none =>
      obtain ⟨r, n, v, ht⟩ := exec_rledec hcap hexpand hroom
      exact ⟨_, ht, fillsOnly_refilled (by decide), completedOk_refilled, contents_refilled (sp := .work) hroom,
        sameBytesFrom_refilled (sp := .work) hroom⟩

/-- How UNSUBST ends (41 R160; 60 R255). -/
theorem unsubst_outcome (s : State) :
    ∃ t, exec .unsubst s = .next t ∧ FillsOnly .out s t ∧
      if s.params.capOut.toNat < (Codec.restored s.hdr.sub s.hdr.orig1 s.hdr.orig2 s.workBytes).length then
        CompletedWith .capacityExceeded 0#32 t
      else CompletedOk t ∧ t.workLen = s.workLen ∧
        t.output = Codec.restored s.hdr.sub s.hdr.orig1 s.hdr.orig2 s.workBytes ∧
        SameBytesFrom .out t.outLen.toNat s t := by
  split
  next hover =>
    obtain ⟨t, ht, hdrift⟩ := exec_unsubst_overflow hover
    exact ⟨_, ht, hdrift.fillsOnly (by decide) _ _, completedWith_errorComplete ..⟩
  next hroom =>
    have hroom := Nat.le_of_not_lt hroom
    exact ⟨_, exec_unsubst hroom, fillsOnly_refilled (by decide), completedOk_refilled,
      refilled_len_ne (sp' := .work) (by decide), contents_refilled (sp := .out) hroom,
      sameBytesFrom_refilled (sp := .out) hroom⟩

/-- How DECOMPRESS ends once the header is loaded, when the payload expands to `ys` up to a truncated triplet at `e` if there
is one (43 R194; 45 R242; 60 R257). -/
def DecodeEnd (ys : List Byte) (e : Option Nat) (s t : State) : Prop :=
  if s.params.capWork.toNat < ys.length then CompletedWith .capacityExceeded 0#32 t
  else match e with
    | some p => CompletedWith .corruptedStream (BitVec.ofNat 32 p) t
    | none =>
      if s.params.capOut.toNat < (Codec.restored t.hdr.sub t.hdr.orig1 t.hdr.orig2 ys).length then
        CompletedWith .capacityExceeded 0#32 t
      else CompletedOk t ∧ t.workBytes = ys ∧ t.output = Codec.restored t.hdr.sub t.hdr.orig1 t.hdr.orig2 ys ∧
        SameBytesFrom .work t.workLen.toNat s t ∧ SameBytesFrom .out t.outLen.toNat s t

/-- RLEDEC and UNSUBST after a loaded header: an error of the first is the end, else the second reverses the expansion. -/
theorem decode_outcome {s : State} {ys : List Byte} {e : Option Nat} (hcap : s.inLen.toNat ≤ s.params.capIn.toNat)
    (hexpand : Codec.expand s.hdr.marker 7 (s.input.drop 7) = (ys, e)) :
    ∃ t, issueUnits [.rledec, .unsubst] s = .next t ∧ DecoderKeeps s t ∧ t.hdr = s.hdr ∧ DecodeEnd ys e s t := by
  obtain ⟨t, ht, hfill, hend⟩ := rledec_outcome hcap hexpand
  unfold DecodeEnd
  split at hend
  next hover => exact ⟨t, issueUnits_of_completedWith ht hend, hfill.toDecoderKeeps, hfill.hdr, by rwa [if_pos hover]⟩
  next hroom =>
    simp only [if_neg hroom]
    cases e with
    | some p => exact ⟨t, issueUnits_of_completedWith ht hend, hfill.toDecoderKeeps, hfill.hdr, hend⟩
    | none =>
      obtain ⟨hok, hwork, habove⟩ := hend
      obtain ⟨u, hu, hfill', hend'⟩ := unsubst_outcome t
      have hkeeps := hfill.toDecoderKeeps.trans hfill'.toDecoderKeeps
      have hhdr : u.hdr = s.hdr := hfill'.hdr.trans hfill.hdr
      have hlast : ∀ rest, issueUnits (.rledec :: rest) s = issueUnits rest t := fun _ =>
        issueUnits_of_completedOk ht hok
      simp only [hwork, hfill.hdr, hfill.alone.params] at hend'
      split at hend'
      next hover =>
        exact ⟨u, (hlast _).trans (issueUnits_of_completedWith hu hend'), hkeeps, hhdr, by simpa only [hhdr, if_pos hover]⟩
      next hroom' =>
        obtain ⟨hok', hlen, hout, habove'⟩ := hend'
        have hworkSame := hfill'.others .work (by decide)
        refine ⟨u, (hlast _).trans (issueUnits_of_completedOk hu hok'), hkeeps, hhdr, ?_⟩
        rw [hhdr, if_neg hroom', workBytes_eq hlen hworkSame, hlen]
        exact ⟨hok', hwork, hout, habove.trans hworkSame le_rfl (Nat.zero_le _),
          (hfill.others .out (by decide)).trans habove' (Nat.zero_le _) le_rfl⟩

/-- Settles O49: DECOMPRESS ends as its units do (`decompressIsItsUnits`): in PARSE's error, or as `decode_outcome` says. -/
theorem decompressOutcome : Obligations.DecompressOutcome := by
  intro s
  obtain ⟨t, ht, halone, hanalysis, ⟨-, hprev, hscan, -⟩, -, hend⟩ := parseOutcome s
  cases hp : parseTests s with
  | error r =>
    obtain ⟨e, info⟩ := r
    cases ht.symm.trans (exec_parse_error hp)
    obtain ⟨p, hdec⟩ := decompressIsItsUnits s _ (issueUnits_of_completedWith ht (completedWith_errorComplete ..))
    refine ⟨_, hdec, halone.setPhase p, hanalysis.setPhase p, ⟨nofun, hprev, hscan, nofun⟩, ?_⟩
    split_ifs at hend ⊢
    · exact hend
    · exact hend
    · exact hend
    · obtain ⟨⟨-, -, herr, -⟩, -⟩ := hend
      cases herr
  | ok h =>
    obtain ⟨hcap, hmagic, hlen, rfl⟩ := fields_of_parseTests hp
    have hparse := exec_parse_ok hp
    cases ht.symm.trans hparse
    obtain ⟨u, hu, hkeeps, hhdr, hdecode⟩ :=
      decode_outcome (s := (loadHeader (fileFields s) s.begin).complete) hcap (Prod.mk.eta.symm)
    have hfirst := issueUnits_of_completedOk (rest := [.rledec, .unsubst]) hparse ⟨rfl, rfl, rfl, rfl, rfl, rfl⟩
    obtain ⟨p, hdec⟩ := decompressIsItsUnits s u (hfirst.trans hu)
    refine ⟨_, hdec, (halone.trans hkeeps.alone).setPhase p, (hanalysis.trans hkeeps.analysis).setPhase p,
      ⟨nofun, fun _ => hkeeps.prev.trans (hprev rfl), fun _ => hkeeps.scan.trans (hscan rfl), nofun⟩, ?_⟩
    rw [if_neg (Nat.not_lt.2 hcap), if_neg (not_not.2 hmagic), if_neg (Nat.not_lt.2 hlen)]
    exact ⟨hhdr, _, _, hhdr ▸ rfl, hdecode⟩

/-- Settles O50: the last branch of `decompressOutcome`. -/
theorem decompressResult : Obligations.DecompressResult := by
  intro s ys hcap hlen hmagic hexpand hwork hout
  obtain ⟨t, ht, -, -, -, hend⟩ := decompressOutcome s
  rw [if_neg (Nat.not_lt.2 hcap), if_neg (not_not.2 hmagic), if_neg (Nat.not_lt.2 hlen)] at hend
  obtain ⟨hhdr, ys', e, hexpand', hdecode⟩ := hend
  rw [hhdr] at hexpand' hdecode
  cases hexpand.symm.trans hexpand'
  simp only [if_neg (Nat.not_lt.2 hwork), if_neg (Nat.not_lt.2 hout)] at hdecode
  obtain ⟨hok, hbytes, houtput, -⟩ := hdecode
  exact ⟨t, ht, hok, hhdr, hbytes, houtput⟩

/-- The parts of a file, a header record and a payload (30 R91), as DECOMPRESS finds them. -/
theorem file_parts {s : State} {h : Hdr} {payload : List Byte} (hin : s.input = headerBytes h ++ payload) :
    7 ≤ s.inLen.toNat ∧ s.input.take 3 = [0x50#8, 0x58#8, 0x4C#8] ∧ fileFields s = h ∧ s.input.drop 7 = payload := by
  have hlen : 7 ≤ s.inLen.toNat := by
    rw [← length_input, hin]
    simp [headerBytes]
  have hbyte : ∀ i, i < 7 → some (s.byteAt .inp i) = (headerBytes h ++ payload)[i]? := fun i hi => by
    rw [← hin, State.input, State.getElem?_bytes, if_pos (by omega), Nat.zero_add]
  have h3 : s.byteAt .inp 3 = h.sub := Option.some.inj (hbyte 3 (by decide))
  have h4 : s.byteAt .inp 4 = h.orig1 := Option.some.inj (hbyte 4 (by decide))
  have h5 : s.byteAt .inp 5 = h.orig2 := Option.some.inj (hbyte 5 (by decide))
  have h6 : s.byteAt .inp 6 = h.marker := Option.some.inj (hbyte 6 (by decide))
  refine ⟨hlen, by rw [hin]; rfl, ?_, by rw [hin]; rfl⟩
  rw [fileFields, h3, h4, h5, h6]

/-- Settles O51: a file without a payload expands to nothing (`decompressResult`). -/
theorem decompressEmptyFile : Obligations.DecompressEmptyFile := by
  intro s hcap hin
  obtain ⟨hlen, hmagic, hfields, hpayload⟩ := file_parts (h := ⟨0x00#8, 0x00#8, 0x00#8, 0xFF#8⟩) (payload := []) hin
  obtain ⟨t, ht, hok, hhdr, hwork, hout⟩ := decompressResult s [] hcap hlen hmagic (by rw [hpayload]; rfl)
    (Nat.zero_le _) (Nat.zero_le _)
  have houtLen : t.outLen.toNat = 0 := by rw [← length_output, hout]; rfl
  have hworkLen : t.workLen.toNat = 0 := by rw [← length_workBytes, hwork]; rfl
  exact ⟨t, ht, hok, BitVec.eq_of_toNat_eq houtLen, BitVec.eq_of_toNat_eq hworkLen, hhdr.trans hfields⟩

/-! ## COMPRESS: the choice of the substitution -/

/-- The header fields that ANALYZE and SELECT choose for an input (40 R135 to R140): a value that is not in the input, for a
pair of greatest count, or none, where no pair repeats or no value is free. -/
structure Chosen (input : List Byte) (h : Hdr) : Prop where
  sub : h.sub ≠ 0x00#8 → 128 ≤ h.sub.toNat ∧ h.sub.toNat ≤ 254 ∧ h.sub ∉ input ∧
    2 ≤ Codec.pairCount input (h.orig1, h.orig2) ∧
    ∀ q, Codec.pairCount input q ≤ Codec.pairCount input (h.orig1, h.orig2)
  noSub : h.sub = 0x00#8 → h.orig1 = 0x00#8 ∧ h.orig2 = 0x00#8 ∧
    ((∀ q, Codec.pairCount input q ≤ 1) ∨ ∀ v : Byte, 128 ≤ v.toNat → v.toNat ≤ 254 → v ∈ input)

/-- What SELECT chooses after ANALYZE of the same input. -/
theorem Analyzed.chosen {s t u : State} (h : Analyzed s t) (hu : exec .select t = .next u) : Chosen s.input u.hdr := by
  obtain ⟨u', hu', -, hwith, hwithout, -⟩ := selectRule t
  cases hu.symm.trans hu'
  cases hv : t.status.pairValid with
  | false =>
    rw [hwithout hv]
    have hbest : ¬2 ≤ t.bestCount.toNat := fun hle => by simp [h.pairValid_iff.2 hle] at hv
    exact ⟨fun hne => absurd rfl hne, fun _ => ⟨rfl, rfl, .inl fun q => by have := h.greatest q; omega⟩⟩
  | true =>
    obtain ⟨v, ⟨hlo, hhi, hfree, -⟩, hhdr⟩ | ⟨hleast, hhdr⟩ := hwith hv <;> rw [hhdr]
    · refine ⟨fun _ => ⟨hlo, hhi, (h.unusedValue_iff_not_mem hv).1 hfree, h.pairCount_of_pairValid hv, fun q => ?_⟩, ?_⟩
      · rw [h.pairCount_winner (h.ne_nil_of_pairValid hv)]
        exact h.greatest q
      · rintro rfl
        exact absurd hlo (by decide)
    · refine ⟨fun hne => absurd rfl hne, fun _ => ⟨rfl, rfl, .inr fun v hlo hhi => ?_⟩⟩
      by_contra hnot
      exact absurd ((h.unusedValue_iff_not_mem hv).2 hnot) (by simp [hleast v hlo hhi])

/-- The substitution of the chosen header fields can be undone (41 R164). -/
theorem Chosen.off_or_fresh {input : List Byte} {h : Hdr} (hc : Chosen input h) :
    h.sub = Config.noSub ∨ h.sub ∉ input := by
  by_cases hs : h.sub = 0x00#8
  · exact .inl hs
  · obtain ⟨-, -, hfresh, -⟩ := hc.sub hs
    exact .inr hfresh

/-- `u` is the state that ANALYZE and SELECT of `s` leave to the other units of COMPRESS. -/
structure Prepared (s u : State) : Prop where
  units : ∀ rest, issueUnits (.analyze :: .select :: rest) s = issueUnits rest u
  chosen : Chosen s.input u.hdr
  marker : u.hdr.marker = s.hdr.marker
  noPair : Codec.pairs s.input = [] → u.bestCount = 0#32 ∧ u.status.pairValid = false
  alone : CoreLeavesAlone s u
  work : SameBytesFrom .work 0 s u
  out : SameBytesFrom .out 0 s u

theorem exists_prepared {s : State} (hcap : s.inLen.toNat ≤ s.params.capIn.toNat) : ∃ u, Prepared s u := by
  obtain ⟨t, ht, hok, halone, hhdr, -, -, hwork, hout, -⟩ := analyzeFrame s hcap
  obtain ⟨_, ht', h⟩ := exec_analyze hcap
  cases ht.symm.trans ht'
  obtain ⟨u, hu, hok', hwith, hwithout, halone', hanalysis, -, -, hwork', hout', -⟩ := selectRule t
  refine ⟨u, fun rest => ?units, h.chosen hu, ?marker, fun hnil => ?noPair, halone.trans halone',
    hwork.trans hwork' le_rfl le_rfl, hout.trans hout' le_rfl le_rfl⟩
  case units => rw [issueUnits_of_completedOk ht hok, issueUnits_of_completedOk hu hok']
  case marker =>
    cases hv : t.status.pairValid with
    | false => rw [hwithout hv, ← hhdr]
    | true => obtain ⟨v, -, he⟩ | ⟨-, he⟩ := hwith hv <;> rw [he, ← hhdr]
  case noPair =>
    obtain ⟨hbest, -⟩ := h.noPair hnil
    rw [hanalysis.bestCount, hanalysis.pairValid, h.pairValid_of_bestCount hbest]
    exact ⟨hbest, rfl⟩

/-! ## COMPRESS: the processed buffer and the file -/

/-- The processed buffer: what SUBST makes of the input (41 R150). -/
def State.processed (s : State) : List Byte := Codec.substituted s.hdr.sub s.hdr.orig1 s.hdr.orig2 s.input

theorem length_processed_le (s : State) : s.processed.length ≤ s.inLen.toNat :=
  (Codec.length_substituted_le ..).trans_eq (length_input s)

/-- `w` is the state that SUBST and FRAME of `u` leave to RLEENC. -/
structure Framed (u w : State) : Prop where
  units : ∀ rest, issueUnits (.subst :: .frame :: rest) u = issueUnits rest w
  outLen : w.outLen = 7#32
  output : w.output = [0x50#8, 0x58#8, 0x4C#8, u.hdr.sub, u.hdr.orig1, u.hdr.orig2, 0xFF#8]
  workBytes : w.workBytes = u.processed
  hdr : w.hdr = u.hdr
  alone : CoreLeavesAlone u w
  analysis : SameAnalysis u w
  work : SameBytesFrom .work w.workLen.toNat u w
  out : SameBytesFrom .out 7 u w

theorem exists_framed {u : State} (hcap : u.inLen.toNat ≤ u.params.capIn.toNat)
    (hwork : u.processed.length ≤ u.params.capWork.toNat) : ∃ w, Framed u w := by
  obtain ⟨v, hv, hok, hbytes, -, halone, hanalysis, hhdr, -, habove, hout, -⟩ := substResult u hcap hwork
  obtain ⟨w, hw, hok', houtLen, houtput, halone', hanalysis', hhdr', hlen, hout', hwork', -⟩ := frameResult v
  exact ⟨w, fun rest => by rw [issueUnits_of_completedOk hv hok, issueUnits_of_completedOk hw hok'], houtLen,
    by rw [houtput, hhdr], (workBytes_eq hlen hwork').trans hbytes, hhdr'.trans hhdr, halone.trans halone',
    hanalysis.trans hanalysis', habove.trans hwork' (by rw [hlen]) (Nat.zero_le _),
    hout.trans hout' (Nat.zero_le _) le_rfl⟩

/-- `t` is the end of a COMPRESS of `s` that had room: the choice of the header fields, the processed buffer and the file
(45 R230). -/
structure Compressed (s t : State) : Prop where
  completed : CompletedOk t
  chosen : Chosen s.input t.hdr
  marker : t.hdr.marker = s.hdr.marker
  workBytes : t.workBytes = Codec.substituted t.hdr.sub t.hdr.orig1 t.hdr.orig2 s.input
  output : t.output =
    [0x50#8, 0x58#8, 0x4C#8, t.hdr.sub, t.hdr.orig1, t.hdr.orig2, 0xFF#8] ++ Codec.encoded t.workBytes
  noPair : Codec.pairs s.input = [] → t.bestCount = 0#32 ∧ t.status.pairValid = false
  alone : CoreLeavesAlone s t
  work : SameBytesFrom .work t.workLen.toNat s t
  out : SameBytesFrom .out t.outLen.toNat s t

section
variable {s u : State} (hp : Prepared s u) (hcap : s.inLen.toNat ≤ s.params.capIn.toNat)
include hp hcap

/-- With room for the processed buffer and the file COMPRESS gives both. -/
theorem Prepared.compressed (hwork : u.processed.length ≤ s.params.capWork.toNat)
    (hout : 7 + (Codec.encoded u.processed).length ≤ s.params.capOut.toNat) :
    ∃ t, exec .compress s = .next t ∧ Compressed s t := by
  rw [← hp.alone.inLen] at hcap
  rw [← hp.alone.params] at hcap hwork hout
  obtain ⟨w, hw⟩ := exists_framed hcap hwork
  obtain ⟨t, ht, hok, houtput, halone, hanalysis, hhdr, hlen, habove, hworkSame, -⟩ := rleencResult w (by
    rw [hw.outLen, hw.workBytes, hw.alone.params]
    exact hout)
  have hunits : issueUnits [.analyze, .select, .subst, .frame, .rleenc] s = .next t := by
    rw [hp.units, hw.units, issueUnits_of_completedOk ht hok]
    rfl
  obtain ⟨p, hexec⟩ := compressIsItsUnits s t hunits
  have hhdr' : t.hdr = u.hdr := hhdr.trans hw.hdr
  have hbytes : t.workBytes = w.workBytes := workBytes_eq hlen hworkSame
  have houtLen : 7 ≤ t.outLen.toNat := by
    rw [← length_output, houtput, List.length_append, hw.output]
    exact Nat.le_add_right ..
  have hanalysis' := hw.analysis.trans hanalysis
  refine ⟨_, hexec, hok, hhdr' ▸ hp.chosen, (congrArg Hdr.marker hhdr').trans hp.marker, ?workBytes, ?output,
    fun hnil => ?noPair, (hp.alone.trans (hw.alone.trans halone)).setPhase p, ?work, ?out⟩
  case workBytes =>
    change t.workBytes = Codec.substituted t.hdr.sub t.hdr.orig1 t.hdr.orig2 s.input
    rw [hbytes, hw.workBytes, hhdr', State.processed, hp.alone.input_eq]
  case output =>
    change t.output = [_, _, _, t.hdr.sub, t.hdr.orig1, t.hdr.orig2, _] ++ Codec.encoded t.workBytes
    rw [houtput, hw.output, hbytes, hhdr']
  case noPair =>
    obtain ⟨hbest, hvalid⟩ := hp.noPair hnil
    exact ⟨hanalysis'.bestCount.trans hbest, hanalysis'.pairValid.trans hvalid⟩
  case work =>
    have hwork' := hw.work.trans hworkSame le_rfl (Nat.zero_le _)
    rw [← hlen] at hwork'
    exact hp.work.trans hwork' (Nat.zero_le _) le_rfl
  case out => exact hp.out.trans (hw.out.trans habove houtLen le_rfl) (Nat.zero_le _) le_rfl

/-- Without room for one of them COMPRESS ends in CapacityExceeded (45 R234). -/
theorem Prepared.compress_overflow (hlegal : s.params.Legal)
    (hover : s.params.capWork.toNat < u.processed.length ∨
      s.params.capOut.toNat < 7 + (Codec.encoded u.processed).length) :
    ∃ t, exec .compress s = .next t ∧ CompletedWith .capacityExceeded 0#32 t := by
  rw [← hp.alone.inLen] at hcap
  rw [← hp.alone.params] at hcap hover hlegal
  obtain ⟨t, hunits, he⟩ : ∃ t, issueUnits [.subst, .frame, .rleenc] u = .next t ∧
      CompletedWith .capacityExceeded 0#32 t := by
    obtain hlt | hroom := Nat.lt_or_ge u.params.capWork.toNat u.processed.length
    · obtain ⟨t, ht⟩ := exec_subst_overflow hcap hlt
      have he := completedWith_errorComplete .capacityExceeded 0#32 t
      exact ⟨_, issueUnits_of_completedWith ht he, he⟩
    · obtain ⟨w, hw⟩ := exists_framed hcap hroom
      obtain ⟨t, ht⟩ := exec_rleenc_overflow (s := w) (by rw [hw.outLen, hw.alone.params]; exact hlegal) (by
        rw [hw.outLen, hw.workBytes, hw.alone.params]
        exact hover.resolve_left (Nat.not_lt.2 hroom))
      have he := completedWith_errorComplete .capacityExceeded 0#32 t
      exact ⟨_, (hw.units _).trans (issueUnits_of_completedWith ht he), he⟩
  obtain ⟨p, hexec⟩ := compressIsItsUnits s t ((hp.units _).trans hunits)
  exact ⟨_, hexec, he⟩

end

/-- The room of 00 R9 is enough: the encoding of a buffer is at most twice as long and one byte (42 R178). -/
theorem length_file_le (s : State) : 7 + (Codec.encoded s.processed).length ≤ 2 * s.inLen.toNat + 8 := by
  have hencoded := Codec.length_encoded_le s.processed
  have hprocessed := length_processed_le s
  omega

theorem exec_compress {s : State} (hcap : s.inLen.toNat ≤ s.params.capIn.toNat)
    (hwork : s.inLen.toNat ≤ s.params.capWork.toNat) (hout : 2 * s.inLen.toNat + 8 ≤ s.params.capOut.toNat) :
    ∃ t, exec .compress s = .next t ∧ Compressed s t := by
  obtain ⟨u, hu⟩ := exists_prepared hcap
  have hprocessed := length_processed_le u
  have hfile := length_file_le u
  rw [hu.alone.inLen] at hprocessed hfile
  exact hu.compressed hcap (hprocessed.trans hwork) (hfile.trans hout)

theorem Compressed.length_workBytes_le {s t : State} (h : Compressed s t) : t.workBytes.length ≤ s.inLen.toNat := by
  rw [h.workBytes]
  exact (Codec.length_substituted_le ..).trans_eq (length_input s)

/-- The file is at most 2n + 8 bytes (45 R235). -/
theorem Compressed.outLen_le {s t : State} (h : Compressed s t) : t.outLen.toNat ≤ 2 * s.inLen.toNat + 8 := by
  have hencoded := Codec.length_encoded_le t.workBytes
  have hwork := h.length_workBytes_le
  rw [← length_output, h.output, List.length_append]
  simp only [List.length_cons, List.length_nil]
  omega

/-- Settles O45: the parts of `Compressed`. -/
theorem compressResult : Obligations.CompressResult := by
  intro s hcap hwork hout
  obtain ⟨t, ht, h⟩ := exec_compress hcap hwork hout
  exact ⟨t, ht, h.completed, h.workBytes, h.output, h.outLen_le, h.marker, h.chosen.sub, h.chosen.noSub, h.alone, h.work,
    h.out⟩

/-- Settles O46: an empty input has no pair to replace and no byte to encode, so the header alone must fit. -/
theorem compressEmpty : Obligations.CompressEmpty := by
  intro s hlegal hlen
  have hin : s.input = [] := by rw [State.input, hlen]; rfl
  obtain ⟨u, hu⟩ := exists_prepared (s := s) (by rw [hlen]; exact Nat.zero_le _)
  have hprocessed : u.processed = [] := by rw [State.processed, hu.alone.input_eq, hin]; rfl
  obtain ⟨t, ht, h⟩ := hu.compressed (by rw [hlen]; exact Nat.zero_le _) (by rw [hprocessed]; exact Nat.zero_le _)
    (by rw [hprocessed]; exact hlegal)
  have hsub : t.hdr.sub = 0x00#8 := by
    by_contra hne
    obtain ⟨-, -, -, htwo, -⟩ := h.chosen.sub hne
    rw [hin] at htwo
    exact absurd htwo (Nat.not_succ_le_zero 1)
  obtain ⟨horig1, horig2, -⟩ := h.chosen.noSub hsub
  have hwork : t.workBytes = [] := by rw [h.workBytes, hin]; rfl
  have hworkLen : t.workLen.toNat = 0 := by rw [← length_workBytes, hwork]; rfl
  obtain ⟨hbest, hvalid⟩ := h.noPair (by rw [hin]; rfl)
  refine ⟨t, ht, h.completed, ?_, BitVec.eq_of_toNat_eq hworkLen, hsub, horig1, horig2, hbest, hvalid⟩
  rw [h.output, hwork, hsub, horig1, horig2]
  rfl

/-- COMPRESS of an input longer than the capacity ends at ANALYZE's test (60 R255, R257). -/
theorem exec_compress_tooLong {s : State} (h : s.params.capIn.toNat < s.inLen.toNat) :
    ∃ t, exec .compress s = .next t ∧ CompletedWith .capacityExceeded 0#32 t := by
  have hbody : analyzeBody s.begin = .raised .capacityExceeded 0#32 s.begin := by
    unfold analyzeBody
    rw [checkInLen_raised (s := s.begin) h]
    rfl
  have he := completedWith_errorComplete .capacityExceeded 0#32 s.begin
  obtain ⟨p, hexec⟩ := compressIsItsUnits s _ (issueUnits_of_completedWith (command_raised hbody) he)
  exact ⟨_, hexec, he⟩

/-- Settles O47: an input that is too long, one with room (`exec_compress` under 00 R9), or an append that finds its buffer
full. -/
theorem compressOnlyCapacity : Obligations.CompressOnlyCapacity := by
  intro s hlegal
  obtain hlong | hcap := Nat.lt_or_ge s.params.capIn.toNat s.inLen.toNat
  · obtain ⟨t, ht, he⟩ := exec_compress_tooLong hlong
    exact ⟨t, ht, .inr he, fun _ hle => absurd hle (Nat.not_le.2 hlong)⟩
  obtain ⟨u, hu⟩ := exists_prepared hcap
  by_cases hover : s.params.capWork.toNat < u.processed.length ∨
      s.params.capOut.toNat < 7 + (Codec.encoded u.processed).length
  · obtain ⟨t, ht, he⟩ := hu.compress_overflow hcap hlegal hover
    refine ⟨t, ht, .inr he, fun ⟨hwork, hout⟩ hle => ?_⟩
    obtain ⟨_, ht', h⟩ := exec_compress hle (hle.trans hwork) (by omega)
    cases ht.symm.trans ht'
    exact h.completed
  · rw [not_or, Nat.not_lt, Nat.not_lt] at hover
    obtain ⟨hwork, hout⟩ := hover
    obtain ⟨t, ht, h⟩ := hu.compressed hcap hwork hout
    exact ⟨t, ht, .inl h.completed, fun _ _ => h.completed⟩

/-! ## The round trip -/

/-- Settles O54: the file's payload expands to the processed buffer (42 R179), whose reversal is the input (41 R164). -/
theorem roundTrip : Obligations.RoundTrip := by
  intro s ⟨hwork, hout⟩ hcap
  obtain ⟨t, ht, h⟩ := exec_compress hcap (hcap.trans hwork) (by omega)
  refine ⟨t, ht, h.completed, h.outLen_le, fun u hin hcapIn hcapWork hcapOut => ?_⟩
  obtain ⟨hlen, hmagic, hfields, hpayload⟩ :=
    file_parts (h := ⟨t.hdr.sub, t.hdr.orig1, t.hdr.orig2, Config.rleMarker⟩) (hin.trans h.output)
  have hfits : u.inLen.toNat ≤ u.params.capIn.toNat := by rwa [← length_input, hin, length_output]
  have hback : Codec.restored t.hdr.sub t.hdr.orig1 t.hdr.orig2 t.workBytes = s.input := by
    rw [h.workBytes, Codec.restored_substituted_of_off_or_fresh _ _ h.chosen.off_or_fresh]
  obtain ⟨v, hv, hok, -, -, houtput⟩ := decompressResult u t.workBytes hfits hlen hmagic
    (by rw [hfields, hpayload]; exact Codec.expand_encoded t.workBytes 7) (h.length_workBytes_le.trans hcapWork)
    (by rw [hfields, hback, length_input]; exact hcapOut)
  exact ⟨v, hv, hok, by rw [houtput, hfields, hback]⟩

end Sys2Proof.Machine

namespace Sys2Proof.Machine

/-! ## An input that is longer than the capacity -/

section
variable {s : State} (h : s.params.capIn.toNat < s.inLen.toNat)
include h

theorem analyzeBody_tooLong : analyzeBody s = .raised .capacityExceeded 0#32 s := by
  unfold analyzeBody
  rw [checkInLen_raised h, Ran.raised_andThen]

theorem substBody_tooLong : substBody s = .raised .capacityExceeded 0#32 s := by
  unfold substBody
  rw [checkInLen_raised h, Ran.raised_andThen]

theorem rledecBody_tooLong : rledecBody s = .raised .capacityExceeded 0#32 s := by
  unfold rledecBody rledecEnter
  rw [checkInLen_raised h, Ran.raised_andThen, Ran.raised_andThen]

theorem parseBody_tooLong : parseBody s = .raised .capacityExceeded 0#32 s := by
  refine parseBody_error ?_
  unfold parseTests
  rw [checkInLen_raised h]

/-- The first stage of COMPRESS is ANALYZE (45 R230). -/
theorem compressBody_tooLong : compressBody s = .raised .capacityExceeded 0#32 { s with phase := 1#4 } := by
  rw [compressBody_eq, runStages, stage, analyzeBody_tooLong (s := { s with phase := 1#4 }) h, Ran.raised_andThen]

/-- The first stage of DECOMPRESS is PARSE (45 R240). -/
theorem decompressBody_tooLong : decompressBody s = .raised .capacityExceeded 0#32 { s with phase := 1#4 } := by
  rw [decompressBody_eq, runStages, stage, parseBody_tooLong (s := { s with phase := 1#4 }) h, Ran.raised_andThen]

/-- The error completion stands right behind the start of the command, but for the `PHASE` of a composite one. -/
theorem exec_tooLong {i : Instr} (hi : i ∈ [Instr.analyze, .subst, .parse, .rledec, .compress, .decompress]) :
    ∃ p, exec i s = .next (({ s.begin with phase := p } : State).errorComplete .capacityExceeded 0#32) := by
  replace h : s.begin.params.capIn.toNat < s.begin.inLen.toNat := h
  simp only [List.mem_cons, List.not_mem_nil, or_false] at hi
  obtain rfl | rfl | rfl | rfl | rfl | rfl := hi
  · exact ⟨s.phase, command_raised (analyzeBody_tooLong h)⟩
  · exact ⟨s.phase, command_raised (substBody_tooLong h)⟩
  · exact ⟨s.phase, command_raised (parseBody_tooLong h)⟩
  · exact ⟨s.phase, command_raised (rledecBody_tooLong h)⟩
  · exact ⟨1#4, command_raised (compressBody_tooLong h)⟩
  · exact ⟨1#4, command_raised (decompressBody_tooLong h)⟩

end

/-- Settles O43: between its start and the error completion the command wrote `PHASE` at most (`exec_tooLong`). -/
theorem inputTooLong : Obligations.InputTooLong := by
  intro s i hi h
  obtain ⟨p, hexec⟩ := exec_tooLong h hi
  exact ⟨_, hexec, completedWith_errorComplete .., coreLeavesAlone_of_untouched rfl, sameAnalysis_of_analysisOf rfl, rfl,
    fun _ _ => rfl, fun _ _ => rfl, rfl, fun _ => ⟨rfl, rfl⟩, fun _ => rfl, fun _ => rfl, nofun⟩

/-! ## An append that finds its buffer full -/

/-- `i` ends in CapacityExceeded of an append and leaves unchanged what 60 R258 keeps, the buffer `other` it does not write,
and the working registers but `RP` and, if it `usesRun`, `RUNLEN` and `CURV`. -/
def EndsFull (i : Instr) (other : Space) (usesRun : Bool) (s : State) : Prop :=
  ∃ t, exec i s = .next t ∧ CompletedWith .capacityExceeded 0#32 t ∧ CoreLeavesAlone s t ∧ SameAnalysis s t ∧
    t.hdr = s.hdr ∧ SameBytesFrom other 0 s t ∧ SameWorking s t usesRun false false false

/-- The registers that SUBST, UNSUBST and LIT do not use, but the other appending instructions do (10 R44). -/
def runRegs (s : State) : Byte × Byte := (s.runLen, s.curV)

/-- The start and the error completion add nothing to what a drift changes beyond the error registers and the lengths. -/
theorem Drift.endsFull {sp other : Space} {i : Instr} {usesRun : Bool} {s t : State} (h : Drift sp s.begin t)
    (hexec : exec i s = .next (t.errorComplete .capacityExceeded 0#32)) (hsp : sp ≠ .inp) (hother : other ≠ sp)
    (hrun : usesRun = false → runRegs t = runRegs s) : EndsFull i other usesRun s := by
  obtain ⟨-, hprev, hscan, hphase⟩ := h.sameWorking
  exact ⟨_, hexec, completedWith_errorComplete .., coreLeavesAlone_of_untouched (h.untouched_eq hsp),
    sameAnalysis_of_analysisOf h.analysisOf_eq, h.hdr_eq, fun k _ => h.byteAt_ne hother k,
    fun hfalse => Prod.mk.inj (hrun hfalse), hprev, hscan, hphase⟩

/-- A command drifts from its start also when it first empties its buffer and places `RP`. -/
theorem Drift.of_setLen_seek {sp : Space} {s t : State} {w : Word} {k : Nat} (h : Drift sp ((s.setLen sp w).seek k) t) :
    Drift sp s t :=
  Drift.trans ⟨s.buf sp, w, BitVec.ofNat 32 k, s.runLen, s.curV, by cases sp <;> rfl, fun _ _ => rfl⟩ h

/-- The start of a command writes none of what a drift does. -/
theorem Drift.begin {sp : Space} {s t : State} (h : Drift sp s t) : Drift sp s.begin t.begin := by
  obtain ⟨m, l, r, n, v, rfl, hm⟩ := h
  cases sp <;> exact ⟨m, l, r, n, v, rfl, hm⟩

/-! ### SUBST and UNSUBST leave `RUNLEN` and `CURV` alone -/

section
variable {s t : State} (h : runRegs t = runRegs s)
include h

theorem append_runRegs (sp : Space) (v : Byte) : (append sp v t).Ends fun u => runRegs u = runRegs s := by
  unfold append
  split
  · exact h
  · cases sp <;> exact h

theorem substIter_runRegs : (substIter t).Ends fun u => runRegs u = runRegs s := by
  unfold substIter
  split <;> exact (append_runRegs h .work _).bind fun _ h => h

theorem unsubstIter_runRegs : (unsubstIter t).Ends fun u => runRegs u = runRegs s := by
  unfold unsubstIter
  refine Ran.Ends.bind ?_ fun _ h => h
  split
  · exact (append_runRegs h .out _).bind fun _ h => append_runRegs h .out _
  · exact append_runRegs h .out _

end

theorem substBody_runRegs (s : State) : (substBody s).Ends fun t => runRegs t = runRegs s :=
  (checkInLen_ends (P := fun t => runRegs t = runRegs s) s rfl).bind fun _ h =>
    whileLoop_ends (fun _ _ h => substIter_runRegs h) _ _ h

theorem unsubstBody_runRegs (s : State) : (unsubstBody s).Ends fun t => runRegs t = runRegs s :=
  whileLoop_ends (fun _ _ h => unsubstIter_runRegs h) _ _ rfl

/-! ### The six instructions that append -/

/-- A command that delivers into a buffer it first set to length `w`, where that does not fit. -/
theorem Delivers.endsFull {sp other : Space} {i : Instr} {usesRun : Bool} {body : State → Ran} {ys : List Byte}
    {r w : Word} {n v : Byte} {k : Nat} {s : State}
    (h : Delivers sp ys r n v ((s.begin.setLen sp w).seek k) (body s.begin)) (hexec : exec i s = command body s)
    (hlen : w.toNat ≤ (s.cap sp).toNat) (hover : (s.cap sp).toNat < w.toNat + ys.length) (hsp : sp ≠ .inp)
    (hother : other ≠ sp) (hrun : usesRun = false → (body s.begin).Ends fun t => runRegs t = runRegs s) :
    EndsFull i other usesRun s := by
  obtain ⟨-, hraise⟩ := h
  have hw : ((s.begin.setLen sp w).seek k).len sp = w := by cases sp <;> rfl
  have hc : ((s.begin.setLen sp w).seek k).cap sp = s.cap sp := by cases sp <;> rfl
  rw [hw, hc] at hraise
  obtain ⟨t, ht, hdrift⟩ := hraise hlen hover
  rw [ht] at hrun
  exact hdrift.of_setLen_seek.endsFull (hexec.trans (command_raised ht)) hsp hother hrun

theorem subst_endsFull {s : State} (hcap : s.inLen.toNat ≤ s.params.capIn.toNat)
    (hover : s.params.capWork.toNat < (Codec.substituted s.hdr.sub s.hdr.orig1 s.hdr.orig2 s.input).length) :
    EndsFull .subst .out false s :=
  Delivers.endsFull (w := 0#32) (subst_delivers s.begin hcap) rfl (Nat.zero_le _)
    (hover.trans_eq (Nat.zero_add _).symm) (by decide) (by decide) fun _ => substBody_runRegs s.begin

theorem unsubst_endsFull {s : State}
    (hover : s.params.capOut.toNat < (Codec.restored s.hdr.sub s.hdr.orig1 s.hdr.orig2 s.workBytes).length) :
    EndsFull .unsubst .work false s :=
  Delivers.endsFull (w := 0#32) (unsubst_delivers s.begin) rfl (Nat.zero_le _)
    (hover.trans_eq (Nat.zero_add _).symm) (by decide) (by decide) fun _ => unsubstBody_runRegs s.begin

theorem rleenc_endsFull {s : State} (hlen : s.outLen.toNat ≤ s.params.capOut.toNat)
    (hover : s.params.capOut.toNat < s.outLen.toNat + (Codec.encoded s.workBytes).length) :
    EndsFull .rleenc .work true s := by
  obtain ⟨n, v, h⟩ := rleenc_delivers s.begin
  exact Delivers.endsFull (w := s.outLen) h rfl hlen hover (by decide) (by decide) nofun

theorem rledec_endsFull {s : State} (hcap : s.inLen.toNat ≤ s.params.capIn.toNat)
    (hover : s.params.capWork.toNat < (Codec.expand s.hdr.marker 7 (s.input.drop 7)).1.length) :
    EndsFull .rledec .out true s := by
  obtain ⟨t, hexec, hdrift⟩ := exec_rledec_overflow hcap hover
  exact hdrift.of_setLen_seek.endsFull hexec (by decide) (by decide) nofun

/-- A form is not behind a start of its own, but its error completion writes over all that a start writes. -/
theorem form_endsFull {f : Form} {usesRun : Bool} {s t : State} (h : formBody f s = .raised .capacityExceeded 0#32 t)
    (hdrift : Drift .work s t) (hrun : usesRun = false → runRegs t = runRegs s) : EndsFull f.toInstr .out usesRun s := by
  refine hdrift.begin.endsFull ?_ (by decide) (by decide) hrun
  rw [exec_form, h]
  rfl

theorem run_endsFull {s : State} {c v : Byte} (hlen : s.workLen.toNat ≤ s.params.capWork.toNat)
    (hover : s.params.capWork.toNat < s.workLen.toNat + c.toNat) : EndsFull (.run c v) .out true s := by
  obtain ⟨-, hraise⟩ := runBody_delivers c v s
  obtain ⟨t, ht, hdrift⟩ := hraise hlen (by rwa [List.length_replicate])
  exact form_endsFull (f := .run c v) ht hdrift nofun

theorem append_full {s : State} {sp : Space} (v : Byte) (h : s.len sp = s.cap sp) :
    append sp v s = .raised .capacityExceeded 0#32 s := by
  unfold append
  rw [if_pos h]

theorem lit_endsFull {s : State} {b : Byte} (hfull : s.workLen = s.params.capWork) : EndsFull (.lit b) .out false s := by
  have hraise : litBody b s = .raised .capacityExceeded 0#32 s := by
    unfold litBody
    rw [append_full (sp := .work) b hfull, Ran.raised_andThen]
  exact form_endsFull (f := .lit b) hraise (Drift.refl .work s) fun _ => rfl

/-- Settles O44: an append that does not fit raises with only its buffer and the cursors moved (`Drift.endsFull`). -/
theorem appendOverflow : Obligations.AppendOverflow := fun _ =>
  ⟨subst_endsFull, unsubst_endsFull, rleenc_endsFull, rledec_endsFull, fun _ _ => run_endsFull, fun _ => lit_endsFull⟩

end Sys2Proof.Machine

namespace Sys2Proof.Machine

/-! ## Reset during a command -/

/-- Reset empties every buffer, so each byte is the free value of the epoch it begins (10 R50; log 3). -/
theorem byteAt_hostReset (s : State) (sp : Space) (i : Nat) :
    (hostReset s).byteAt sp i = Config.powerUpByte (s.epoch + 1) sp i := by
  have hempty : (hostReset s).buf sp = [] := by cases sp <;> rfl
  unfold State.byteAt
  rw [hempty]
  rfl

/-- A scheduled reset is taken whatever the core is doing (70 R280, R281). -/
theorem step_reset {s : State} {rest : List Move} (h : s.schedule = .host .reset :: rest) :
    step s = .next (hostReset { s with schedule := rest }) := step_host h

/-- Settles O7: `hostReset` reads neither the activity nor any register, so a command in progress leaves no trace in it. -/
theorem resetAbandons : Obligations.ResetAbandons := fun s rest h =>
  ⟨_, step_reset h, rfl, rfl, rfl, rfl, rfl, rfl, rfl, rfl, rfl, byteAt_hostReset { s with schedule := rest }, rfl, rfl⟩

end Sys2Proof.Machine
